-- ==== Sys2Proof/Word.lean ====
section
/-! DEFINITION. The words and the value types of Curve9767 CORE and the numbers they are counted in
(spec/00_scope.md R7 to R13, spec/10_state.md R21 to R28). -/

namespace Sys2Proof

/-- A 32-bit word register's content (R21). -/
abbrev Word := BitVec 32

/-- One byte of BUF (R50). -/
abbrev Byte := BitVec 8

/-- The curve order n (R9). -/
abbrev n : Nat :=
  6389436622109970582043832278503799542449455630003248488928817956373993578097

/-- The field order q = p^19, p = 9767 (R7, R8). -/
abbrev q : Nat := 9767 ^ 19

/-- The base field GF(p), as residues in [0, 9766] (R7, R13). -/
abbrev Fp := Fin 9767

/-- The field GF(q): nineteen coefficients, the k-th that of z^k, multiplied modulo
z^19 - 2 (R7, R13). -/
abbrev Gf := Vector Fp 19

/-- The stored form of a field element: nineteen 16-bit cells in Montgomery form (R23). -/
abbrev Cells := Vector (BitVec 16) 19

/-- A scalar: a residue modulo n (R27: a model holds the residue). -/
abbrev Scalar := Fin n

/-- A curve point's value (R28: the two-constructor type; a neutral point has no coordinates). -/
inductive Point where
  | neutral
  | affine (x y : Gf)
deriving DecidableEq, Repr, Inhabited

end Sys2Proof
end

