-- ==== Sys2Proof/Syntax.lean ====
section
/-! DEFINITION. The 60 commands of C9767-CMD version 1 (spec/30_encoding.md R76), operands in assembler
order: the destination first (R15), register numbers 0 to 15 of the file the command fixes (R72). -/

namespace Sys2Proof

/-- A number of a W register (R72, R78). -/
abbrev WReg := Fin 16
/-- A number of an F register (R72, R78). -/
abbrev FReg := Fin 16
/-- A number of an S register (R72, R78). -/
abbrev SReg := Fin 16
/-- A number of a P register (R72, R78). -/
abbrev PReg := Fin 16
/-- The unsigned immediate imm16 (R73). -/
abbrev Imm16 := BitVec 16
/-- The unsigned byte address off12 into BUF (R74). -/
abbrev Off12 := BitVec 12

/-- One command. A constructor per row of spec/opcode_table.json, in the table's order. -/
inductive Instr where
  | wLi (wd : WReg) (imm : Imm16)
  | wLd (wd : WReg) (off : Off12)
  | wSt (wa : WReg) (off : Off12)
  | wMov (wd wa : WReg)
  | gfGetc (wd : WReg) (fa : FReg) (idx : Imm16)
  | gfSetc (fd : FReg) (wa : WReg) (idx : Imm16)
  | gfMov (fd fa : FReg)
  | scMov (sd sa : SReg)
  | pMov (pd pa : PReg)
  | gfSetzero (fd : FReg)
  | gfSetone (fd : FReg)
  | scSetzero (sd : SReg)
  | scSetone (sd : SReg)
  | pSetneutral (pd : PReg)
  | pSetgen (pd : PReg)
  | mpAdd (wd wa wb : WReg)
  | mpSub (wd wa wb : WReg)
  | mpFrommonty (wd wa : WReg)
  | mpMontymul (wd wa wb : WReg)
  | mpTomonty (wd wa : WReg)
  | mpInv (wd wa : WReg)
  | mpIsQr (wd wa : WReg)
  | gfAdd (fd fa fb : FReg)
  | gfSub (fd fa fb : FReg)
  | gfNeg (fd fa : FReg)
  | gfCondneg (fd fa : FReg) (wb : WReg)
  | gfMul (fd fa fb : FReg)
  | gfSqr (fd fa : FReg)
  | gfInv (fd fa : FReg)
  | gfSqrt (wd : WReg) (fc fa : FReg)
  | gfIsqr (wd : WReg) (fa : FReg)
  | gfCubert (fd fa : FReg)
  | gfIsneg (wd : WReg) (fa : FReg)
  | gfEq (wd : WReg) (fa fb : FReg)
  | gfEncode (fa : FReg) (off : Off12)
  | gfDecode (wd : WReg) (fd : FReg) (off : Off12)
  | gfMaptobase (fd : FReg) (off : Off12)
  | scDecodeStrict (wd : WReg) (sd : SReg) (wlen : WReg) (off : Off12)
  | scDecodeReduce (sd : SReg) (wlen : WReg) (off : Off12)
  | scEncode (sa : SReg) (off : Off12)
  | scAdd (sd sa sb : SReg)
  | scSub (sd sa sb : SReg)
  | scNeg (sd sa : SReg)
  | scMul (sd sa sb : SReg)
  | scIszero (wd : WReg) (sa : SReg)
  | scEq (wd : WReg) (sa sb : SReg)
  | scCondcopy (sd sa : SReg) (wb : WReg)
  | scNormalize (sd sa : SReg)
  | scReduceBasisVartime (sa : SReg) (off : Off12)
  | pAdd (pd pa pb : PReg)
  | pNeg (pd pa : PReg)
  | pMul2k (pd pa : PReg) (k : Imm16)
  | pMul (pd pa : PReg) (sb : SReg)
  | pMulgen (pd : PReg) (sa : SReg)
  | pMulMulgenAdd (pd pa : PReg) (sb sc : SReg)
  | pVerifyVartime (wd : WReg) (pa : PReg) (sb sc : SReg) (pe : PReg)
  | pEncode (pa : PReg) (off : Off12)
  | pDecode (wd : WReg) (pd : PReg) (off : Off12)
  | pEncodeX (pa : PReg) (off : Off12)
  | pIsneutral (wd : WReg) (pa : PReg)
deriving DecidableEq, Repr

end Sys2Proof
end

