-- ==== Sys2Proof/WellFormed.lean ====
section
/-! DEFINITION. Which terms of Instr are commands. Register numbers, imm16 and off12 are in range by
their types (R72 to R74, R78); the coefficient index is the one operand with a narrower range (R73). -/

namespace Sys2Proof

/-- R73: the coefficient index of GF_GETC and GF_SETC is 0 to 18. -/
def Instr.wellFormed : Instr → Bool
  | .gfGetc _ _ idx => decide (idx.toNat ≤ 18)
  | .gfSetc _ _ idx => decide (idx.toNat ≤ 18)
  | .wLi _ _ | .wLd _ _ | .wSt _ _ | .wMov _ _ | .gfMov _ _ | .scMov _ _ | .pMov _ _ => true
  | .gfSetzero _ | .gfSetone _ | .scSetzero _ | .scSetone _ | .pSetneutral _ | .pSetgen _ => true
  | .mpAdd _ _ _ | .mpSub _ _ _ | .mpFrommonty _ _ | .mpMontymul _ _ _ | .mpTomonty _ _ => true
  | .mpInv _ _ | .mpIsQr _ _ => true
  | .gfAdd _ _ _ | .gfSub _ _ _ | .gfNeg _ _ | .gfCondneg _ _ _ | .gfMul _ _ _ | .gfSqr _ _ => true
  | .gfInv _ _ | .gfSqrt _ _ _ | .gfIsqr _ _ | .gfCubert _ _ | .gfIsneg _ _ | .gfEq _ _ _ => true
  | .gfEncode _ _ | .gfDecode _ _ _ | .gfMaptobase _ _ => true
  | .scDecodeStrict _ _ _ _ | .scDecodeReduce _ _ _ | .scEncode _ _ | .scAdd _ _ _ => true
  | .scSub _ _ _ | .scNeg _ _ | .scMul _ _ _ | .scIszero _ _ | .scEq _ _ _ => true
  | .scCondcopy _ _ _ | .scNormalize _ _ | .scReduceBasisVartime _ _ => true
  | .pAdd _ _ _ | .pNeg _ _ | .pMul2k _ _ _ | .pMul _ _ _ | .pMulgen _ _ => true
  | .pMulMulgenAdd _ _ _ _ | .pVerifyVartime _ _ _ _ _ | .pEncode _ _ | .pDecode _ _ _ => true
  | .pEncodeX _ _ | .pIsneutral _ _ => true

end Sys2Proof
end

