-- ==== Sys2Proof/Decode.lean ====
section
/-! DEFINITION. Decoding a command word and encoding a command (spec/30_encoding.md R70 to R78). Bit 31
is the most significant bit of the word; op is bits 31:24 and alone selects the command (R71). -/

namespace Sys2Proof

/-- Why a word is illegal: the four conditions of R77. -/
inductive DecodeError where
  /-- R77 item 1: op is none of the 60 values of R76. -/
  | unassignedOp
  /-- R77 item 2: a register field beyond the operand count is not zero. -/
  | registerFieldNotZero
  /-- R77 item 3: bits 3:0 of an R format word are not zero. -/
  | lowBitsNotZero
  /-- R77 item 4: the coefficient index of GF_GETC or GF_SETC is 19 or more. -/
  | indexTooLarge
deriving DecidableEq, Repr

namespace Enc

/-- Bits 23:20 (R71), of the word's value. -/
def r1 (v : Nat) : Fin 16 := Fin.ofNat 16 (v / 2 ^ 20)
/-- Bits 19:16 (R71). -/
def r2 (v : Nat) : Fin 16 := Fin.ofNat 16 (v / 2 ^ 16)
/-- Bits 15:12 (R71). -/
def r3 (v : Nat) : Fin 16 := Fin.ofNat 16 (v / 2 ^ 12)
/-- Bits 11:8 (R71). -/
def r4 (v : Nat) : Fin 16 := Fin.ofNat 16 (v / 2 ^ 8)
/-- Bits 7:4 (R71). -/
def r5 (v : Nat) : Fin 16 := Fin.ofNat 16 (v / 2 ^ 4)
/-- Bits 15:0 (R71, R73). -/
def imm16 (v : Nat) : Imm16 := BitVec.ofNat 16 v
/-- Bits 11:0 (R71, R74). -/
def off12 (v : Nat) : Off12 := BitVec.ofNat 12 v

/-- An R format word with k register operands: the fields after r_k are zero, and so are bits 3:0
(R71, R77 items 2 and 3). -/
def rForm (v k : Nat) (i : Instr) : Except DecodeError Instr :=
  if v % 2 ^ (24 - 4 * k) / 2 ^ 4 ≠ 0 then .error .registerFieldNotZero
  else if v % 2 ^ 4 ≠ 0 then .error .lowBitsNotZero
  else .ok i

/-- An I format word with k register operands; where the immediate is a coefficient index it is at
most 18 (R71, R73, R77 items 2 and 4). -/
def iForm (v k : Nat) (isIndex : Bool) (i : Instr) : Except DecodeError Instr :=
  if v % 2 ^ (24 - 4 * k) / 2 ^ 16 ≠ 0 then .error .registerFieldNotZero
  else if isIndex && decide (18 < v % 2 ^ 16) then .error .indexTooLarge
  else .ok i

/-- An M format word with k register operands (R71, R77 item 2). -/
def mForm (v k : Nat) (i : Instr) : Except DecodeError Instr :=
  if v % 2 ^ (24 - 4 * k) / 2 ^ 12 ≠ 0 then .error .registerFieldNotZero
  else .ok i

/-- R75: word = op*2^24 + r1*2^20 + r2*2^16 + r3*2^12 + r4*2^8 + r5*2^4. -/
def rWord (op : Nat) (a b c d e : Fin 16) : BitVec 32 :=
  BitVec.ofNat 32 (op * 2 ^ 24 + a.val * 2 ^ 20 + b.val * 2 ^ 16 + c.val * 2 ^ 12 + d.val * 2 ^ 8
    + e.val * 2 ^ 4)

/-- R75: word = op*2^24 + r1*2^20 + r2*2^16 + imm16. -/
def iWord (op : Nat) (a b : Fin 16) (imm : Imm16) : BitVec 32 :=
  BitVec.ofNat 32 (op * 2 ^ 24 + a.val * 2 ^ 20 + b.val * 2 ^ 16 + imm.toNat)

/-- R75: word = op*2^24 + r1*2^20 + r2*2^16 + r3*2^12 + off12. -/
def mWord (op : Nat) (a b c : Fin 16) (off : Off12) : BitVec 32 :=
  BitVec.ofNat 32 (op * 2 ^ 24 + a.val * 2 ^ 20 + b.val * 2 ^ 16 + c.val * 2 ^ 12 + off.toNat)

end Enc

open Enc

/-- The command a word stands for, or why it is illegal (R76, R77). Total on every 32-bit word. -/
def decode (w : BitVec 32) : Except DecodeError Instr :=
  let v := w.toNat
  match v / 2 ^ 24 with
  | 0x01 => iForm v 1 false (.wLi (r1 v) (imm16 v))
  | 0x02 => mForm v 1 (.wLd (r1 v) (off12 v))
  | 0x03 => mForm v 1 (.wSt (r1 v) (off12 v))
  | 0x04 => rForm v 2 (.wMov (r1 v) (r2 v))
  | 0x05 => iForm v 2 true (.gfGetc (r1 v) (r2 v) (imm16 v))
  | 0x06 => iForm v 2 true (.gfSetc (r1 v) (r2 v) (imm16 v))
  | 0x07 => rForm v 2 (.gfMov (r1 v) (r2 v))
  | 0x08 => rForm v 2 (.scMov (r1 v) (r2 v))
  | 0x09 => rForm v 2 (.pMov (r1 v) (r2 v))
  | 0x0A => rForm v 1 (.gfSetzero (r1 v))
  | 0x0B => rForm v 1 (.gfSetone (r1 v))
  | 0x0C => rForm v 1 (.scSetzero (r1 v))
  | 0x0D => rForm v 1 (.scSetone (r1 v))
  | 0x0E => rForm v 1 (.pSetneutral (r1 v))
  | 0x0F => rForm v 1 (.pSetgen (r1 v))
  | 0x10 => rForm v 3 (.mpAdd (r1 v) (r2 v) (r3 v))
  | 0x11 => rForm v 3 (.mpSub (r1 v) (r2 v) (r3 v))
  | 0x12 => rForm v 2 (.mpFrommonty (r1 v) (r2 v))
  | 0x13 => rForm v 3 (.mpMontymul (r1 v) (r2 v) (r3 v))
  | 0x14 => rForm v 2 (.mpTomonty (r1 v) (r2 v))
  | 0x15 => rForm v 2 (.mpInv (r1 v) (r2 v))
  | 0x16 => rForm v 2 (.mpIsQr (r1 v) (r2 v))
  | 0x20 => rForm v 3 (.gfAdd (r1 v) (r2 v) (r3 v))
  | 0x21 => rForm v 3 (.gfSub (r1 v) (r2 v) (r3 v))
  | 0x22 => rForm v 2 (.gfNeg (r1 v) (r2 v))
  | 0x23 => rForm v 3 (.gfCondneg (r1 v) (r2 v) (r3 v))
  | 0x24 => rForm v 3 (.gfMul (r1 v) (r2 v) (r3 v))
  | 0x25 => rForm v 2 (.gfSqr (r1 v) (r2 v))
  | 0x26 => rForm v 2 (.gfInv (r1 v) (r2 v))
  | 0x27 => rForm v 3 (.gfSqrt (r1 v) (r2 v) (r3 v))
  | 0x28 => rForm v 2 (.gfIsqr (r1 v) (r2 v))
  | 0x29 => rForm v 2 (.gfCubert (r1 v) (r2 v))
  | 0x2A => rForm v 2 (.gfIsneg (r1 v) (r2 v))
  | 0x2B => rForm v 3 (.gfEq (r1 v) (r2 v) (r3 v))
  | 0x30 => mForm v 1 (.gfEncode (r1 v) (off12 v))
  | 0x31 => mForm v 2 (.gfDecode (r1 v) (r2 v) (off12 v))
  | 0x32 => mForm v 1 (.gfMaptobase (r1 v) (off12 v))
  | 0x40 => mForm v 3 (.scDecodeStrict (r1 v) (r2 v) (r3 v) (off12 v))
  | 0x41 => mForm v 2 (.scDecodeReduce (r1 v) (r2 v) (off12 v))
  | 0x42 => mForm v 1 (.scEncode (r1 v) (off12 v))
  | 0x43 => rForm v 3 (.scAdd (r1 v) (r2 v) (r3 v))
  | 0x44 => rForm v 3 (.scSub (r1 v) (r2 v) (r3 v))
  | 0x45 => rForm v 2 (.scNeg (r1 v) (r2 v))
  | 0x46 => rForm v 3 (.scMul (r1 v) (r2 v) (r3 v))
  | 0x47 => rForm v 2 (.scIszero (r1 v) (r2 v))
  | 0x48 => rForm v 3 (.scEq (r1 v) (r2 v) (r3 v))
  | 0x49 => rForm v 3 (.scCondcopy (r1 v) (r2 v) (r3 v))
  | 0x4A => rForm v 2 (.scNormalize (r1 v) (r2 v))
  | 0x4B => mForm v 1 (.scReduceBasisVartime (r1 v) (off12 v))
  | 0x50 => rForm v 3 (.pAdd (r1 v) (r2 v) (r3 v))
  | 0x51 => rForm v 2 (.pNeg (r1 v) (r2 v))
  | 0x52 => iForm v 2 false (.pMul2k (r1 v) (r2 v) (imm16 v))
  | 0x53 => rForm v 3 (.pMul (r1 v) (r2 v) (r3 v))
  | 0x54 => rForm v 2 (.pMulgen (r1 v) (r2 v))
  | 0x55 => rForm v 4 (.pMulMulgenAdd (r1 v) (r2 v) (r3 v) (r4 v))
  | 0x56 => rForm v 5 (.pVerifyVartime (r1 v) (r2 v) (r3 v) (r4 v) (r5 v))
  | 0x57 => mForm v 1 (.pEncode (r1 v) (off12 v))
  | 0x58 => mForm v 2 (.pDecode (r1 v) (r2 v) (off12 v))
  | 0x59 => mForm v 1 (.pEncodeX (r1 v) (off12 v))
  | 0x5A => rForm v 2 (.pIsneutral (r1 v) (r2 v))
  | _ => .error .unassignedOp

/-- The word of a command (R75, R76). -/
def encode : Instr → BitVec 32
  | .wLi wd imm => iWord 0x01 wd 0 imm
  | .wLd wd off => mWord 0x02 wd 0 0 off
  | .wSt wa off => mWord 0x03 wa 0 0 off
  | .wMov wd wa => rWord 0x04 wd wa 0 0 0
  | .gfGetc wd fa idx => iWord 0x05 wd fa idx
  | .gfSetc fd wa idx => iWord 0x06 fd wa idx
  | .gfMov fd fa => rWord 0x07 fd fa 0 0 0
  | .scMov sd sa => rWord 0x08 sd sa 0 0 0
  | .pMov pd pa => rWord 0x09 pd pa 0 0 0
  | .gfSetzero fd => rWord 0x0A fd 0 0 0 0
  | .gfSetone fd => rWord 0x0B fd 0 0 0 0
  | .scSetzero sd => rWord 0x0C sd 0 0 0 0
  | .scSetone sd => rWord 0x0D sd 0 0 0 0
  | .pSetneutral pd => rWord 0x0E pd 0 0 0 0
  | .pSetgen pd => rWord 0x0F pd 0 0 0 0
  | .mpAdd wd wa wb => rWord 0x10 wd wa wb 0 0
  | .mpSub wd wa wb => rWord 0x11 wd wa wb 0 0
  | .mpFrommonty wd wa => rWord 0x12 wd wa 0 0 0
  | .mpMontymul wd wa wb => rWord 0x13 wd wa wb 0 0
  | .mpTomonty wd wa => rWord 0x14 wd wa 0 0 0
  | .mpInv wd wa => rWord 0x15 wd wa 0 0 0
  | .mpIsQr wd wa => rWord 0x16 wd wa 0 0 0
  | .gfAdd fd fa fb => rWord 0x20 fd fa fb 0 0
  | .gfSub fd fa fb => rWord 0x21 fd fa fb 0 0
  | .gfNeg fd fa => rWord 0x22 fd fa 0 0 0
  | .gfCondneg fd fa wb => rWord 0x23 fd fa wb 0 0
  | .gfMul fd fa fb => rWord 0x24 fd fa fb 0 0
  | .gfSqr fd fa => rWord 0x25 fd fa 0 0 0
  | .gfInv fd fa => rWord 0x26 fd fa 0 0 0
  | .gfSqrt wd fc fa => rWord 0x27 wd fc fa 0 0
  | .gfIsqr wd fa => rWord 0x28 wd fa 0 0 0
  | .gfCubert fd fa => rWord 0x29 fd fa 0 0 0
  | .gfIsneg wd fa => rWord 0x2A wd fa 0 0 0
  | .gfEq wd fa fb => rWord 0x2B wd fa fb 0 0
  | .gfEncode fa off => mWord 0x30 fa 0 0 off
  | .gfDecode wd fd off => mWord 0x31 wd fd 0 off
  | .gfMaptobase fd off => mWord 0x32 fd 0 0 off
  | .scDecodeStrict wd sd wlen off => mWord 0x40 wd sd wlen off
  | .scDecodeReduce sd wlen off => mWord 0x41 sd wlen 0 off
  | .scEncode sa off => mWord 0x42 sa 0 0 off
  | .scAdd sd sa sb => rWord 0x43 sd sa sb 0 0
  | .scSub sd sa sb => rWord 0x44 sd sa sb 0 0
  | .scNeg sd sa => rWord 0x45 sd sa 0 0 0
  | .scMul sd sa sb => rWord 0x46 sd sa sb 0 0
  | .scIszero wd sa => rWord 0x47 wd sa 0 0 0
  | .scEq wd sa sb => rWord 0x48 wd sa sb 0 0
  | .scCondcopy sd sa wb => rWord 0x49 sd sa wb 0 0
  | .scNormalize sd sa => rWord 0x4A sd sa 0 0 0
  | .scReduceBasisVartime sa off => mWord 0x4B sa 0 0 off
  | .pAdd pd pa pb => rWord 0x50 pd pa pb 0 0
  | .pNeg pd pa => rWord 0x51 pd pa 0 0 0
  | .pMul2k pd pa k => iWord 0x52 pd pa k
  | .pMul pd pa sb => rWord 0x53 pd pa sb 0 0
  | .pMulgen pd sa => rWord 0x54 pd sa 0 0 0
  | .pMulMulgenAdd pd pa sb sc => rWord 0x55 pd pa sb sc 0
  | .pVerifyVartime wd pa sb sc pe => rWord 0x56 wd pa sb sc pe
  | .pEncode pa off => mWord 0x57 pa 0 0 off
  | .pDecode wd pd off => mWord 0x58 wd pd 0 off
  | .pEncodeX pa off => mWord 0x59 pa 0 0 off
  | .pIsneutral wd pa => rWord 0x5A wd pa 0 0 0

/-- The op field of a command (R76). -/
def opcode : Instr → Nat
  | .wLi _ _ => 0x01
  | .wLd _ _ => 0x02
  | .wSt _ _ => 0x03
  | .wMov _ _ => 0x04
  | .gfGetc _ _ _ => 0x05
  | .gfSetc _ _ _ => 0x06
  | .gfMov _ _ => 0x07
  | .scMov _ _ => 0x08
  | .pMov _ _ => 0x09
  | .gfSetzero _ => 0x0A
  | .gfSetone _ => 0x0B
  | .scSetzero _ => 0x0C
  | .scSetone _ => 0x0D
  | .pSetneutral _ => 0x0E
  | .pSetgen _ => 0x0F
  | .mpAdd _ _ _ => 0x10
  | .mpSub _ _ _ => 0x11
  | .mpFrommonty _ _ => 0x12
  | .mpMontymul _ _ _ => 0x13
  | .mpTomonty _ _ => 0x14
  | .mpInv _ _ => 0x15
  | .mpIsQr _ _ => 0x16
  | .gfAdd _ _ _ => 0x20
  | .gfSub _ _ _ => 0x21
  | .gfNeg _ _ => 0x22
  | .gfCondneg _ _ _ => 0x23
  | .gfMul _ _ _ => 0x24
  | .gfSqr _ _ => 0x25
  | .gfInv _ _ => 0x26
  | .gfSqrt _ _ _ => 0x27
  | .gfIsqr _ _ => 0x28
  | .gfCubert _ _ => 0x29
  | .gfIsneg _ _ => 0x2A
  | .gfEq _ _ _ => 0x2B
  | .gfEncode _ _ => 0x30
  | .gfDecode _ _ _ => 0x31
  | .gfMaptobase _ _ => 0x32
  | .scDecodeStrict _ _ _ _ => 0x40
  | .scDecodeReduce _ _ _ => 0x41
  | .scEncode _ _ => 0x42
  | .scAdd _ _ _ => 0x43
  | .scSub _ _ _ => 0x44
  | .scNeg _ _ => 0x45
  | .scMul _ _ _ => 0x46
  | .scIszero _ _ => 0x47
  | .scEq _ _ _ => 0x48
  | .scCondcopy _ _ _ => 0x49
  | .scNormalize _ _ => 0x4A
  | .scReduceBasisVartime _ _ => 0x4B
  | .pAdd _ _ _ => 0x50
  | .pNeg _ _ => 0x51
  | .pMul2k _ _ _ => 0x52
  | .pMul _ _ _ => 0x53
  | .pMulgen _ _ => 0x54
  | .pMulMulgenAdd _ _ _ _ => 0x55
  | .pVerifyVartime _ _ _ _ _ => 0x56
  | .pEncode _ _ => 0x57
  | .pDecode _ _ _ => 0x58
  | .pEncodeX _ _ => 0x59
  | .pIsneutral _ _ => 0x5A

/-- A row of spec/opcode_table.json: a word w is this command's when w &&& mask = match, and, for a
row with an index constraint, imm16 is at most 18. -/
structure OpcodeRow where
  mnemonic : String
  matchBits : BitVec 32
  mask : BitVec 32
  indexed : Bool
deriving DecidableEq, Repr

/-- Does the row take the word? -/
def OpcodeRow.takes (r : OpcodeRow) (w : BitVec 32) : Bool :=
  decide (w &&& r.mask = r.matchBits) && (!r.indexed || decide (w.toNat % 2 ^ 16 ≤ 18))

/-- spec/opcode_table.json, rows 1 to 15. -/
def opcodeRows1 : List OpcodeRow := [
  ⟨"W_LI", 0x01000000, 0xFF0F0000, false⟩,
  ⟨"W_LD", 0x02000000, 0xFF0FF000, false⟩,
  ⟨"W_ST", 0x03000000, 0xFF0FF000, false⟩,
  ⟨"W_MOV", 0x04000000, 0xFF00FFFF, false⟩,
  ⟨"GF_GETC", 0x05000000, 0xFF000000, true⟩,
  ⟨"GF_SETC", 0x06000000, 0xFF000000, true⟩,
  ⟨"GF_MOV", 0x07000000, 0xFF00FFFF, false⟩,
  ⟨"SC_MOV", 0x08000000, 0xFF00FFFF, false⟩,
  ⟨"P_MOV", 0x09000000, 0xFF00FFFF, false⟩,
  ⟨"GF_SETZERO", 0x0A000000, 0xFF0FFFFF, false⟩,
  ⟨"GF_SETONE", 0x0B000000, 0xFF0FFFFF, false⟩,
  ⟨"SC_SETZERO", 0x0C000000, 0xFF0FFFFF, false⟩,
  ⟨"SC_SETONE", 0x0D000000, 0xFF0FFFFF, false⟩,
  ⟨"P_SETNEUTRAL", 0x0E000000, 0xFF0FFFFF, false⟩,
  ⟨"P_SETGEN", 0x0F000000, 0xFF0FFFFF, false⟩]

/-- spec/opcode_table.json, rows 16 to 30. -/
def opcodeRows2 : List OpcodeRow := [
  ⟨"MP_ADD", 0x10000000, 0xFF000FFF, false⟩,
  ⟨"MP_SUB", 0x11000000, 0xFF000FFF, false⟩,
  ⟨"MP_FROMMONTY", 0x12000000, 0xFF00FFFF, false⟩,
  ⟨"MP_MONTYMUL", 0x13000000, 0xFF000FFF, false⟩,
  ⟨"MP_TOMONTY", 0x14000000, 0xFF00FFFF, false⟩,
  ⟨"MP_INV", 0x15000000, 0xFF00FFFF, false⟩,
  ⟨"MP_IS_QR", 0x16000000, 0xFF00FFFF, false⟩,
  ⟨"GF_ADD", 0x20000000, 0xFF000FFF, false⟩,
  ⟨"GF_SUB", 0x21000000, 0xFF000FFF, false⟩,
  ⟨"GF_NEG", 0x22000000, 0xFF00FFFF, false⟩,
  ⟨"GF_CONDNEG", 0x23000000, 0xFF000FFF, false⟩,
  ⟨"GF_MUL", 0x24000000, 0xFF000FFF, false⟩,
  ⟨"GF_SQR", 0x25000000, 0xFF00FFFF, false⟩,
  ⟨"GF_INV", 0x26000000, 0xFF00FFFF, false⟩,
  ⟨"GF_SQRT", 0x27000000, 0xFF000FFF, false⟩]

/-- spec/opcode_table.json, rows 31 to 45. -/
def opcodeRows3 : List OpcodeRow := [
  ⟨"GF_ISQR", 0x28000000, 0xFF00FFFF, false⟩,
  ⟨"GF_CUBERT", 0x29000000, 0xFF00FFFF, false⟩,
  ⟨"GF_ISNEG", 0x2A000000, 0xFF00FFFF, false⟩,
  ⟨"GF_EQ", 0x2B000000, 0xFF000FFF, false⟩,
  ⟨"GF_ENCODE", 0x30000000, 0xFF0FF000, false⟩,
  ⟨"GF_DECODE", 0x31000000, 0xFF00F000, false⟩,
  ⟨"GF_MAPTOBASE", 0x32000000, 0xFF0FF000, false⟩,
  ⟨"SC_DECODE_STRICT", 0x40000000, 0xFF000000, false⟩,
  ⟨"SC_DECODE_REDUCE", 0x41000000, 0xFF00F000, false⟩,
  ⟨"SC_ENCODE", 0x42000000, 0xFF0FF000, false⟩,
  ⟨"SC_ADD", 0x43000000, 0xFF000FFF, false⟩,
  ⟨"SC_SUB", 0x44000000, 0xFF000FFF, false⟩,
  ⟨"SC_NEG", 0x45000000, 0xFF00FFFF, false⟩,
  ⟨"SC_MUL", 0x46000000, 0xFF000FFF, false⟩,
  ⟨"SC_ISZERO", 0x47000000, 0xFF00FFFF, false⟩]

/-- spec/opcode_table.json, rows 46 to 60. -/
def opcodeRows4 : List OpcodeRow := [
  ⟨"SC_EQ", 0x48000000, 0xFF000FFF, false⟩,
  ⟨"SC_CONDCOPY", 0x49000000, 0xFF000FFF, false⟩,
  ⟨"SC_NORMALIZE", 0x4A000000, 0xFF00FFFF, false⟩,
  ⟨"SC_REDUCE_BASIS_VARTIME", 0x4B000000, 0xFF0FF000, false⟩,
  ⟨"P_ADD", 0x50000000, 0xFF000FFF, false⟩,
  ⟨"P_NEG", 0x51000000, 0xFF00FFFF, false⟩,
  ⟨"P_MUL2K", 0x52000000, 0xFF000000, false⟩,
  ⟨"P_MUL", 0x53000000, 0xFF000FFF, false⟩,
  ⟨"P_MULGEN", 0x54000000, 0xFF00FFFF, false⟩,
  ⟨"P_MUL_MULGEN_ADD", 0x55000000, 0xFF0000FF, false⟩,
  ⟨"P_VERIFY_VARTIME", 0x56000000, 0xFF00000F, false⟩,
  ⟨"P_ENCODE", 0x57000000, 0xFF0FF000, false⟩,
  ⟨"P_DECODE", 0x58000000, 0xFF00F000, false⟩,
  ⟨"P_ENCODE_X", 0x59000000, 0xFF0FF000, false⟩,
  ⟨"P_ISNEUTRAL", 0x5A000000, 0xFF00FFFF, false⟩]

/-- spec/opcode_table.json, all 60 rows in its order. -/
def opcodeTable : List OpcodeRow :=
  opcodeRows1 ++ opcodeRows2 ++ opcodeRows3 ++ opcodeRows4

/-- The instruction the decoder reads from a command whose bits are w, numbered as the opcode table
numbers them; a command is one 32-bit word (R70) and has no byte order (R80). -/
def decodeTableWord (nbits w : Nat) : Option Instr :=
  match decode (BitVec.ofNat 32 (w % 2 ^ nbits)) with
  | .ok i => some i
  | .error _ => none

end Sys2Proof
end

