-- ==== Sys2Proof/Machine/Montgomery.lean ====
section
/-! DEFINITION. Arithmetic in GF(9767) in Montgomery form, radix 2^32 (spec/00_scope.md R8, R13,
spec/40_basefield.md R100 to R107). -/

namespace Sys2Proof.Machine

/-- norm(v): the representative of v modulo 9767 in [1, 9767] (R13). -/
def norm (v : Int) : Nat :=
  if v % 9767 = 0 then 9767 else (v % 9767).toNat

/-- RINV, the inverse of 2^32 modulo 9767 (R8). -/
def rinv : Nat := 8267

/-- mrep(v) = norm(v * 2^32), the Montgomery representation of a residue (R13). -/
def mrep (v : Nat) : Nat := norm (v * 2 ^ 32 : Nat)

/-- mval(m) = (m * RINV) mod 9767, the residue a stored value stands for (R13). -/
def mval (m : Nat) : Nat := m * rinv % 9767

/-- b^e mod 9767 by repeated squaring; `fuel` bounds the number of bits of e. -/
def powModP (b : Nat) : Nat → Nat → Nat
  | 0, _ => 1
  | fuel + 1, e =>
    if e = 0 then 1
    else
      let h := powModP b fuel (e / 2)
      if e % 2 = 1 then h * h % 9767 * b % 9767 else h * h % 9767

/-- The range [1, 9767] of stored values (R24, R100). -/
def isStored (a : Word) : Bool := decide (1 ≤ a.toNat) && decide (a.toNat ≤ 9767)

/-- The input range [1, 3654952486] of the Montgomery reduction (R103). -/
def inReductionRange (x : Nat) : Bool := decide (1 ≤ x) && decide (x ≤ 3654952486)

/-- A word that holds a result of the unit. -/
def toWord (v : Nat) : Word := BitVec.ofNat 32 v

/-- mp_add (R101); `none` outside the contract. -/
def mpAdd (a b : Word) : Option Word :=
  if isStored a && isStored b then some (toWord (norm (a.toNat + b.toNat))) else none

/-- mp_sub (R102). -/
def mpSub (a b : Word) : Option Word :=
  if isStored a && isStored b then some (toWord (norm (a.toNat - b.toNat))) else none

/-- mp_frommonty (R103), on an exact integer. -/
def mpReduce (x : Nat) : Option Word :=
  if inReductionRange x then some (toWord (norm (x * rinv : Nat))) else none

/-- mp_montymul (R104): the exact product, then the reduction. -/
def mpMontymul (a b : Word) : Option Word := mpReduce (a.toNat * b.toNat)

/-- mp_tomonty (R105). -/
def mpTomonty (a : Word) : Option Word :=
  if a.toNat ≤ 2278869 then some (toWord (norm (a.toNat * 7182 : Nat))) else none

/-- mp_inv (R106): the power 9765 = p - 2 of the residue. -/
def mpInv (a : Word) : Option Word :=
  if isStored a then some (toWord (mrep (powModP (mval a.toNat) 14 9765))) else none

/-- mp_is_qr (R107): the power 4883 = (p - 1) / 2 of the residue. -/
def mpIsQr (a : Word) : Option Word :=
  if isStored a then some (toWord (mrep (powModP (mval a.toNat) 14 4883))) else none

end Sys2Proof.Machine
end

