-- ==== Sys2Proof/Config.lean ====
section
/-! DEFINITION. What an implementation fixes and what the spec leaves open: the named parameters of
R11 with the values the spec gives them, and the free values, constants without a body. -/

namespace Sys2Proof.Config

/-- BUF_BYTES, the size of the byte buffer (R11, R50). -/
abbrev bufBytes : Nat := 4096

/-- NW = NF = NS = NP, the number of registers of each file (R11). -/
abbrev fileSize : Nat := 16

/-- NEUTRAL_B31_FULL, byte 31 of the full encoding of the neutral point (R11, R218; log 13). -/
def neutralB31Full : Byte := 0x3F

/-- NEUTRAL_B31_X, byte 31 of the X-only encoding of the neutral point (R11, R221; log 13). -/
def neutralB31X : Byte := 0x3F

/-- BASIS_CHOICE (R182, spec/93_implementation_defined.md U3): which pair the basis reduction of the
representative b returns. FREE. The unit takes it only where it is admissible (log 14). -/
opaque basisChoice (b : Nat) : Int × Int

/-- The k-th indeterminate word (R33). FREE (log 3). -/
opaque freeWord (k : Nat) : Word

/-- The k-th indeterminate field register, any nineteen cells (R33). FREE (log 3). -/
opaque freeCells (k : Nat) : Cells

/-- The k-th indeterminate scalar (R33). FREE (log 3). -/
opaque freeScalar (k : Nat) : Scalar

/-- The k-th indeterminate point (R33; R330: neither Neutral nor any affine point may be assumed).
FREE (log 3). -/
opaque freePoint (k : Nat) : Point

end Sys2Proof.Config
end

