-- ==== Sys2Proof/Machine/State.lean ====
section
/-! DEFINITION. The state of Curve9767 CORE (spec/10_state.md R20 to R35), the host transactions still to
come (spec/60_exceptions.md R320) and the reasons a step can stop. Plain data throughout. -/

namespace Sys2Proof.Machine

/-- A register with the determinacy mark of R33. Where `det` is false the register is indeterminate:
`val` is what it happens to hold, and no command uses it. -/
structure Reg (α : Type) where
  val : α
  det : Bool
deriving DecidableEq, Repr

/-- The determinate bytes of BUF, addresses strictly rising (R50). An address that is not listed is
an indeterminate byte (R33; log 4). -/
abbrev Memory := List Host.Cell

/-- One transaction of the host (R320). Commands are issued, and BUF is accessed, between commands only
(R321); STATUS may be read during a command too. -/
inductive HostTxn where
  /-- R320 item 1: a command word is handed to the command port. While the command is executing the
  host reads STATUS (item 2: at any time), `early` times before the command has its effect and
  `late` times after it (log 11). -/
  | issue (word : BitVec 32) (early late : Nat)
  /-- R320 item 3: a byte of BUF is written. -/
  | writeBuf (addr : BitVec 12) (byte : Byte)
  /-- R320 item 3: a byte of BUF is read. -/
  | readBuf (addr : BitVec 12)
  /-- R320 item 2: STATUS is read between commands. -/
  | readStatus
  /-- R320 item 4: reset is asserted. -/
  | reset
deriving DecidableEq, Repr

/-- What a read transaction delivered (R320 items 2 and 3; `none` is an indeterminate byte, log 9). -/
inductive HostRead where
  | status (v : BitVec 32)
  | byte (addr : BitVec 12) (v : Option Byte)
deriving DecidableEq, Repr

/-- The state of the engine and its host interface (R20). -/
structure State where
  /-- W[0..15] (R21). -/
  regsW : Vector (Reg Word) 16
  /-- F[0..15] (R23). -/
  regsF : Vector (Reg Cells) 16
  /-- S[0..15], each a residue (R26, R27). -/
  regsS : Vector (Reg Scalar) 16
  /-- P[0..15] (R28). -/
  regsP : Vector (Reg Point) 16
  /-- STATUS (R31). -/
  status : BitVec 32
  /-- BUF (R50). -/
  buf : Memory
  /-- The number of commands already issued (R30). -/
  idx : Nat
  /-- The host transactions still to come, the next one first (R30, R60, R320; log 6). -/
  pending : List HostTxn
  /-- What the host has read, newest first. The model's own record (log 9). -/
  hostReads : List HostRead
  /-- How many free values have been drawn. The model's own counter (log 3). -/
  fresh : Nat
deriving DecidableEq, Repr

/-- Why a step stops. -/
inductive Fault where
  /-- Raised by `step` alone, when the host has no transaction left: the run is over (R340; log 7).
  Safe: the hardware waits. -/
  | runOver
deriving DecidableEq, Repr

/-- Why a command is given no meaning. -/
inductive Refusal where
  /-- Raised by an arm of `exec` whose instruction is not modelled; no arm raises it. Safe. -/
  | notModelled (mnemonic : String)
deriving DecidableEq, Repr

/-- The stored zero of the field, nineteen cells 9767 (R24, R25). -/
def State.resetCells : Cells := Vector.replicate 19 9767

/-- The machine right after reset (R35, R330): STATUS and idx are 0, every register and every byte is
indeterminate. What an indeterminate register holds is DESIGN CHOICE (log 1). -/
def State.reset : State where
  regsW := Vector.replicate 16 ⟨0, false⟩
  regsF := Vector.replicate 16 ⟨State.resetCells, false⟩
  regsS := Vector.replicate 16 ⟨0, false⟩
  regsP := Vector.replicate 16 ⟨.neutral, false⟩
  status := 0
  buf := []
  idx := 0
  pending := []
  hostReads := []
  fresh := 0

end Sys2Proof.Machine
end

