-- ==== Sys2Proof/Machine/Flags.lean ====
section
/-! DEFINITION. The engine has no flags (spec/10_state.md R29). What stands in their place: the fields of
STATUS (R31, R302) and the booleans 0 and 1 that commands deliver into W registers (R29). -/

namespace Sys2Proof.Machine

/-- STATUS.BUSY, bit 0 (R31). -/
def statusBusy (st : BitVec 32) : Bool := st.getLsbD 0

/-- STATUS.ERR, bit 1 (R31). -/
def statusErr (st : BitVec 32) : Bool := st.getLsbD 1

/-- STATUS.CAUSE, bits 7:4 (R31). -/
def statusCause (st : BitVec 32) : BitVec 4 := st.extractLsb' 4 4

/-- The reserved bits 3:2 and 31:8 of STATUS (R31). -/
def statusReserved (st : BitVec 32) : BitVec 32 := st &&& 0xFFFFFF0C#32

/-- STATUS with BUSY set (R31, R320 item 1). -/
def statusSetBusy (st : BitVec 32) : BitVec 32 := st ||| 1#32

/-- STATUS with BUSY cleared (R31, R320 item 1). -/
def statusClearBusy (st : BitVec 32) : BitVec 32 := st &&& 0xFFFFFFFE#32

/-- The engine errors (R302). -/
inductive EngineError where
  | illegalCommand
  | bufRange
deriving DecidableEq, Repr

/-- The cause code of an engine error (R302). -/
def causeCode : EngineError → BitVec 4
  | .illegalCommand => 1
  | .bufRange => 2

/-- STATUS with ERR set and CAUSE replaced, every other bit kept (R304). -/
def statusRaise (st : BitVec 32) (code : BitVec 4) : BitVec 32 :=
  (st &&& 0xFFFFFF0D#32) ||| 2#32 ||| (code.zeroExtend 32 <<< 4)

/-- The word a predicate delivers: 1 for true, 0 for false (R29). -/
def boolWord (b : Bool) : Word := if b then 1 else 0

end Sys2Proof.Machine
end

