-- ==== Sys2Proof/Machine/Ops.lean ====
section
/-! DEFINITION. The named operations: BUF and its access primitives (spec/20_memory.md R52 to R57), the
engine error and its only exit (spec/60_exceptions.md R304, R331), and the host's transactions
(R320). Register access is in Machine/Operands.lean. -/

namespace Sys2Proof.Machine

/-! ### BUF -/

/-- The canonical form: addresses strictly rising and inside BUF (R50). -/
def memoryWf (m : Memory) : Bool :=
  match m with
  | [] => true
  | (a, _) :: rest =>
    decide (a < Config.bufBytes) && rest.all (fun c => decide (a < c.1)) && memoryWf rest

/-- The byte at an address; `none` where it is indeterminate (R33, R52). -/
def readByte (m : Memory) (a : Nat) : Option Byte :=
  match m with
  | [] => none
  | (b, v) :: rest => if a = b then some v else if a < b then none else readByte rest a

/-- BUF[a] <- v (R53). -/
def writeByte (m : Memory) (a : Nat) (v : Byte) : Memory :=
  match m with
  | [] => [(a, v)]
  | (b, u) :: rest =>
    if a = b then (a, v) :: rest
    else if a < b then (a, v) :: (b, u) :: rest
    else (b, u) :: writeByte rest a v

/-- BUF[a] <- indeterminate (R33). -/
def eraseByte (m : Memory) (a : Nat) : Memory :=
  match m with
  | [] => []
  | (b, u) :: rest =>
    if a = b then rest else if a < b then (b, u) :: rest else (b, u) :: eraseByte rest a

/-- MemRead(addr, k) inside BUF (R52): the k bytes, lowest address first; `none` when any of them is
indeterminate. -/
def readBytes (m : Memory) (addr : Nat) : Nat → Option (List Byte)
  | 0 => some []
  | k + 1 => do
    let b ← readByte m addr
    let rest ← readBytes m (addr + 1) k
    pure (b :: rest)

/-- MemWrite(addr, k, bytes) inside BUF (R53). -/
def writeBytes (m : Memory) (addr : Nat) : List Byte → Memory
  | [] => m
  | b :: rest => writeBytes (writeByte m addr b) (addr + 1) rest

/-- k bytes become indeterminate (R33). -/
def eraseBytes (m : Memory) (addr : Nat) : Nat → Memory
  | 0 => m
  | k + 1 => eraseBytes (eraseByte m addr) (addr + 1) k

/-- LE(b_0 ... b_(k-1)), the unsigned little-endian integer (R12, R55). -/
def leNat : List Byte → Nat
  | [] => 0
  | b :: rest => b.toNat + 256 * leNat rest

/-- LEbytes_k(v) (R12). -/
def leBytes : Nat → Nat → List Byte
  | 0, _ => []
  | k + 1, v => BitVec.ofNat 8 v :: leBytes k (v / 256)

/-- SLE_k(v), two's complement (R12). -/
def sleBytes (k : Nat) (v : Int) : List Byte := leBytes k (v % (256 ^ k : Nat)).toNat

/-! ### Engine errors -/

/-- `raise` (R304): nothing changes but STATUS.ERR and STATUS.CAUSE. The counter idx has advanced when
the command was issued. -/
def raise (e : EngineError) (s : State) : State :=
  { s with status := statusRaise s.status (causeCode e) }

/-- Is the engine in the error state (R305)? -/
def inError (s : State) : Bool := statusErr s.status

/-- Reset asserted by the host (R320 item 4, R330, R331), the only exit from the error state. The
host's own record and the transactions it still has to make are not the engine's and stay, and the
free values of the time before are not drawn again (log 10). -/
def hostReset (rest : List HostTxn) (s : State) : State :=
  { State.reset with pending := rest, hostReads := s.hostReads, fresh := s.fresh + 1 }

/-! ### Commands and buffer accesses -/

/-- The range check of R52 and R53 on an access of `len` bytes, made before the command changes any
state: BufRange, or the command's own effect. -/
def inRange (off : Off12) (len : Nat) (s : State) (effect : State) : State :=
  if off.toNat + len > Config.bufBytes then raise .bufRange s else effect

/-- The bytes a command loads (R52, R54), `none` when any of them is indeterminate (R33). -/
def loadBytes (s : State) (off : Off12) (len : Nat) : Option (List Byte) :=
  readBytes s.buf off.toNat len

/-- A store of `len` bytes (R53, R54). An indeterminate value leaves indeterminate bytes (R33). -/
def storeBytes (s : State) (off : Off12) (len : Nat) (bytes : Option (List Byte)) : State :=
  match bytes with
  | some bs => { s with buf := writeBytes s.buf off.toNat bs }
  | none => { s with buf := eraseBytes s.buf off.toNat len }

/-! ### The host's transactions -/

/-- A command word is taken from the port: idx advances by one (R30). -/
def takeCommand (rest : List HostTxn) (s : State) : State :=
  { s with pending := rest, idx := s.idx + 1 }

/-- The host reads STATUS k times (R320 item 2). -/
def pollStatus (k : Nat) (s : State) : State :=
  { s with hostReads := List.replicate k (.status s.status) ++ s.hostReads }

/-- A command starts: BUSY is set (R320 item 1) and the host reads STATUS `early` times. -/
def startCommand (rest : List HostTxn) (early : Nat) (s : State) : State :=
  pollStatus early { takeCommand rest s with status := statusSetBusy s.status }

/-- A command ends: the host reads STATUS `late` times, then BUSY is cleared (R320 item 1). -/
def endCommand (late : Nat) (s : State) : State :=
  { pollStatus late s with status := statusClearBusy s.status }

/-- A command is discarded in the error state: no field of STATUS changes, BUSY included (R305). -/
def discardCommand (rest : List HostTxn) (polls : Nat) (s : State) : State :=
  pollStatus polls (takeCommand rest s)

/-- The host writes a byte of BUF (R320 item 3), in the error state too (log 8). -/
def hostWrite (rest : List HostTxn) (addr : BitVec 12) (v : Byte) (s : State) : State :=
  { s with pending := rest, buf := writeByte s.buf addr.toNat v }

/-- The host reads a byte of BUF (R320 item 3, R305); the read has no effect on BUF (R51). -/
def hostReadByte (rest : List HostTxn) (addr : BitVec 12) (s : State) : State :=
  { s with pending := rest, hostReads := .byte addr (readByte s.buf addr.toNat) :: s.hostReads }

/-- The host reads STATUS between commands (R320 item 2). -/
def hostReadStatus (rest : List HostTxn) (s : State) : State :=
  { s with pending := rest, hostReads := .status s.status :: s.hostReads }

end Sys2Proof.Machine
end

