-- ==== Sys2Proof/Machine/Operands.lean ====
section
/-! DEFINITION. Operands: reading and writing the four register files (spec/10_state.md R21 to R28), with
the determinacy of R33. A read gives `none` where the register is indeterminate; a write of `none`
makes the register indeterminate: it then holds a free value and its mark is false. -/

namespace Sys2Proof.Machine

/-- W[i], `none` when indeterminate (R21, R33). -/
def getW (s : State) (i : WReg) : Option Word :=
  if s.regsW[i].det then some s.regsW[i].val else none

/-- F[i] (R23, R33). -/
def getF (s : State) (i : FReg) : Option Cells :=
  if s.regsF[i].det then some s.regsF[i].val else none

/-- S[i] (R27, R33). -/
def getS (s : State) (i : SReg) : Option Scalar :=
  if s.regsS[i].det then some s.regsS[i].val else none

/-- P[i] (R28, R33). -/
def getP (s : State) (i : PReg) : Option Point :=
  if s.regsP[i].det then some s.regsP[i].val else none

/-- W[i] <- v, or W[i] <- indeterminate (R14, R33). -/
def setW (s : State) (i : WReg) (v : Option Word) : State :=
  match v with
  | some x => { s with regsW := s.regsW.set i ⟨x, true⟩ }
  | none =>
    { s with regsW := s.regsW.set i ⟨Config.freeWord s.fresh, false⟩, fresh := s.fresh + 1 }

/-- F[i] <- v, or F[i] <- indeterminate (R14, R33). -/
def setF (s : State) (i : FReg) (v : Option Cells) : State :=
  match v with
  | some x => { s with regsF := s.regsF.set i ⟨x, true⟩ }
  | none =>
    { s with regsF := s.regsF.set i ⟨Config.freeCells s.fresh, false⟩, fresh := s.fresh + 1 }

/-- S[i] <- v, or S[i] <- indeterminate (R14, R33). -/
def setS (s : State) (i : SReg) (v : Option Scalar) : State :=
  match v with
  | some x => { s with regsS := s.regsS.set i ⟨x, true⟩ }
  | none =>
    { s with regsS := s.regsS.set i ⟨Config.freeScalar s.fresh, false⟩, fresh := s.fresh + 1 }

/-- P[i] <- v, or P[i] <- indeterminate (R14, R33). -/
def setP (s : State) (i : PReg) (v : Option Point) : State :=
  match v with
  | some x => { s with regsP := s.regsP.set i ⟨x, true⟩ }
  | none =>
    { s with regsP := s.regsP.set i ⟨Config.freePoint s.fresh, false⟩, fresh := s.fresh + 1 }

/-- The byte length of a variable-length decode, the unsigned content of W[wlen] (R171, R172); `none`
when that is indeterminate. -/
def byteLength (s : State) (wlen : WReg) : Option Nat := (getW s wlen).map BitVec.toNat

/-- The range check on an access of that length. An indeterminate length raises no error (R33, R343;
log 5). -/
def inLengthRange (off : Off12) (len : Option Nat) (s : State) (effect : State) : State :=
  match len with
  | some k => inRange off k s effect
  | none => effect

/-- The bytes a variable-length decode loads; `none` when the length or any byte is indeterminate
(R33). -/
def loadLength (s : State) (off : Off12) (len : Option Nat) : Option (List Byte) :=
  len.bind (loadBytes s off)

end Sys2Proof.Machine
end

