-- ==== Sys2Proof/Machine/BaseField.lean ====
section
/-! DEFINITION. The base-field unit's commands (spec/40_basefield.md R100 to R107). A source outside the stated
range leaves the destination indeterminate and raises no error (R100, R343). -/

namespace Sys2Proof.Machine

/-- MP_ADD (R101). -/
def execMpAdd (wd wa wb : WReg) (s : State) : Host.Outcome State Fault Refusal :=
  .next (setW s wd (do mpAdd (← getW s wa) (← getW s wb)))

/-- MP_SUB (R102). -/
def execMpSub (wd wa wb : WReg) (s : State) : Host.Outcome State Fault Refusal :=
  .next (setW s wd (do mpSub (← getW s wa) (← getW s wb)))

/-- MP_FROMMONTY (R103). -/
def execMpFrommonty (wd wa : WReg) (s : State) : Host.Outcome State Fault Refusal :=
  .next (setW s wd (do mpReduce (← getW s wa).toNat))

/-- MP_MONTYMUL (R104). -/
def execMpMontymul (wd wa wb : WReg) (s : State) : Host.Outcome State Fault Refusal :=
  .next (setW s wd (do mpMontymul (← getW s wa) (← getW s wb)))

/-- MP_TOMONTY (R105). -/
def execMpTomonty (wd wa : WReg) (s : State) : Host.Outcome State Fault Refusal :=
  .next (setW s wd (do mpTomonty (← getW s wa)))

/-- MP_INV (R106). -/
def execMpInv (wd wa : WReg) (s : State) : Host.Outcome State Fault Refusal :=
  .next (setW s wd (do mpInv (← getW s wa)))

/-- MP_IS_QR (R107). -/
def execMpIsQr (wd wa : WReg) (s : State) : Host.Outcome State Fault Refusal :=
  .next (setW s wd (do mpIsQr (← getW s wa)))

end Sys2Proof.Machine
end

