-- ==== Sys2Proof/Machine/Field.lean ====
section
/-! DEFINITION. Arithmetic in GF(9767^19) = GF(9767)[z]/(z^19 - 2) (spec/00_scope.md R13,
spec/41_field_arith.md R120 to R139), and the stored form of its elements (R14, R23). -/

namespace Sys2Proof.Machine

/-! ### Elements -/

/-- The element with the given coefficients, lowest degree first, reduced modulo 9767; missing ones
are 0. -/
def gfOf (l : List Nat) : Gf := Vector.ofFn fun k => Fin.ofNat 9767 (l.getD k 0)

/-- The integer coefficients in [0, 9766], lowest degree first. -/
def gfCoeffs (a : Gf) : List Nat := a.toList.map Fin.val

/-- 0_F (R13). -/
def gfZero : Gf := Vector.replicate 19 0

/-- 1_F = (1, 0, ..., 0) (R13). -/
def gfOne : Gf := gfOf [1]

/-- c * z^k with 0 <= k <= 18. -/
def gfMonomial (c k : Nat) : Gf := gfOf (List.replicate k 0 ++ [c])

/-! ### Ring operations -/

/-- Sum, coefficient by coefficient (R121). -/
def gfAdd (a b : Gf) : Gf := Vector.ofFn fun k => a[k] + b[k]

/-- Difference (R122). -/
def gfSub (a b : Gf) : Gf := Vector.ofFn fun k => a[k] - b[k]

/-- Negation (R123). -/
def gfNeg (a : Gf) : Gf := Vector.ofFn fun k => -a[k]

/-- The sum of a_i * b_i over two lists. -/
def dot : List Nat → List Nat → Nat
  | a :: as, b :: bs => a * b + dot as bs
  | _, _ => 0

/-- The row b_k, b_(k-1), ..., b_0, 2*b_18, 2*b_17, ..., 2*b_(k+1) against which coefficient k of a
product sums the coefficients of the other factor: entry i is b_(k-i) for i <= k, and above it
2*b_(k+19-i), the fold z^19 = 2 (R125). -/
def foldedRow (b : Gf) (k : Nat) : List Nat :=
  let r := (gfCoeffs b).reverse
  ((r ++ r.map (2 * ·)).drop (18 - k)).take 19

/-- Product: c_k = sum_(i+j=k) a_i*b_j + 2 * sum_(i+j=k+19) a_i*b_j (R125). -/
def gfMul (a b : Gf) : Gf :=
  let as := gfCoeffs a
  Vector.ofFn fun k => Fin.ofNat 9767 (dot as (foldedRow b k))

/-- Square (R126). -/
def gfSqr (a : Gf) : Gf := gfMul a a

/-- a^e by repeated squaring; `fuel` bounds the number of bits of e. -/
def gfPow (a : Gf) : Nat → Nat → Gf
  | 0, _ => gfOne
  | fuel + 1, e =>
    if e = 0 then gfOne
    else
      let h := gfPow a fuel (e / 2)
      if e % 2 = 1 then gfMul (gfSqr h) a else gfSqr h

/-- A number of bits no exponent of the unit exceeds: every one is below q < 2^252 (R8). -/
def expBits : Nat := 252

/-! ### Frobenius and inversion -/

/-- c = 2^514 mod 9767, z^p = c*z (R138). -/
def frobeniusC : Nat := 2534

/-- a^(p^j): coefficient k times c^(j*k) (R138). -/
def gfFrobenius (j : Nat) (a : Gf) : Gf :=
  Vector.ofFn fun k => a[k] * Fin.ofNat 9767 (frobeniusC ^ (j * k % 19))

/-- a^(r-1) with r - 1 = p + p^2 + ... + p^18, by Frobenius maps and products (R134): the exponent
sums 1, 2, 4, 8, 9 and 18 powers of p in turn. -/
def gfConjugates (a : Gf) : Gf :=
  let t1 := gfFrobenius 1 a
  let t2 := gfMul t1 (gfFrobenius 1 t1)
  let t4 := gfMul t2 (gfFrobenius 2 t2)
  let t8 := gfMul t4 (gfFrobenius 4 t4)
  let t9 := gfMul t1 (gfFrobenius 1 t8)
  gfMul t9 (gfFrobenius 9 t9)

/-- c * a for a base-field residue c. -/
def gfScale (c : Nat) (a : Gf) : Gf := Vector.ofFn fun k => Fin.ofNat 9767 (c * a[k].val)

/-- inv(a) (R127) by Itoh-Tsujii (R134): a^(r-1) times the base-field inverse of the norm a^r, which
is coefficient 0 of a * a^(r-1). For a = 0_F every step yields zero. -/
def gfInv (a : Gf) : Gf :=
  let t := gfConjugates a
  gfScale (powModP (gfMul a t)[0].val 14 9765) t

/-! ### Square roots, cube roots, predicates -/

/-- The value a^((q+1)/4) that GF_SQRT writes (R128; SQRT_CHOICE, log 12). -/
def gfSqrtRoot (a : Gf) : Gf := gfPow a expBits ((q + 1) / 4)

/-- r*r = a for that value: a is 0 or a non-zero square (R128). -/
def gfSqrtOk (a : Gf) : Bool := decide (gfSqr (gfSqrtRoot a) = a)

/-- Is a a square, 0 included (R129)? -/
def gfIsSquare (a : Gf) : Bool :=
  decide (a = gfZero) || decide (gfPow a expBits ((q - 1) / 2) = gfOne)

/-- The cube root a^((2q-1)/3) (R130). -/
def gfCubert (a : Gf) : Gf := gfPow a expBits ((2 * q - 1) / 3)

/-- Is the first non-zero of these coefficients above 4883? `false` when all are zero. -/
def firstNonzeroNegative : List Nat → Bool
  | [] => false
  | c :: rest => if c = 0 then firstNonzeroNegative rest else decide (4883 < c)

/-- is_neg (R131): the non-zero coefficient of the highest degree is in [4884, 9766]. -/
def gfIsNeg (a : Gf) : Bool := firstNonzeroNegative (gfCoeffs a).reverse

/-! ### The stored form -/

/-- fval(F[i]) (R14): coefficient k is mval of cell k. -/
def fval (a : Cells) : Gf := Vector.ofFn fun k => Fin.ofNat 9767 (mval a[k].toNat)

/-- fld(a) (R14): cell k is mrep of coefficient k. -/
def fld (a : Gf) : Cells := Vector.ofFn fun k => BitVec.ofNat 16 (mrep a[k].val)

/-- Every cell is in [1, 9767], the invariant of R24. -/
def cellsStored (a : Cells) : Bool :=
  a.toList.all fun x => decide (1 ≤ x.toNat) && decide (x.toNat ≤ 9767)

/-- GF_ADD on cells: mp_add of each pair (R121). -/
def cellsAdd (a b : Cells) : Cells :=
  Vector.ofFn fun k => BitVec.ofNat 16 (norm (a[k].toNat + b[k].toNat))

/-- GF_SUB on cells: mp_sub of each pair (R122). -/
def cellsSub (a b : Cells) : Cells :=
  Vector.ofFn fun k => BitVec.ofNat 16 (norm (a[k].toNat - b[k].toNat))

/-- GF_NEG on cells: norm(9767 - c), so a zero cell stays 9767 (R123). -/
def cellsNeg (a : Cells) : Cells :=
  Vector.ofFn fun k => BitVec.ofNat 16 (norm (9767 - a[k].toNat))

end Sys2Proof.Machine
end

