-- ==== Sys2Proof/Machine/FieldArith.lean ====
section
/-! DEFINITION. The field unit's arithmetic commands (spec/41_field_arith.md R120 to R132). Sources are read
before any destination is written (R120); an indeterminate source makes every destination
indeterminate (R33, R120). -/

namespace Sys2Proof.Machine

/-- GF_ADD (R121). -/
def execGfAdd (fd fa fb : FReg) (s : State) : Host.Outcome State Fault Refusal :=
  .next (setF s fd (do
    let a ← getF s fa
    let b ← getF s fb
    pure (cellsAdd a b)))

/-- GF_SUB (R122). -/
def execGfSub (fd fa fb : FReg) (s : State) : Host.Outcome State Fault Refusal :=
  .next (setF s fd (do
    let a ← getF s fa
    let b ← getF s fb
    pure (cellsSub a b)))

/-- GF_NEG (R123). -/
def execGfNeg (fd fa : FReg) (s : State) : Host.Outcome State Fault Refusal :=
  .next (setF s fd ((getF s fa).map fun a => cellsNeg a))

/-- GF_CONDNEG (R124): a control word that is neither 0 nor 1 leaves the destination indeterminate. -/
def execGfCondneg (fd fa : FReg) (wb : WReg) (s : State) : Host.Outcome State Fault Refusal :=
  .next (setF s fd (do
    let a ← getF s fa
    let ctl ← getW s wb
    if ctl = 1 then some (cellsNeg a) else if ctl = 0 then some a else none))

/-- GF_MUL (R125). -/
def execGfMul (fd fa fb : FReg) (s : State) : Host.Outcome State Fault Refusal :=
  .next (setF s fd (do
    let a ← getF s fa
    let b ← getF s fb
    pure (fld (gfMul (fval a) (fval b)))))

/-- GF_SQR (R126). -/
def execGfSqr (fd fa : FReg) (s : State) : Host.Outcome State Fault Refusal :=
  .next (setF s fd ((getF s fa).map fun a => fld (gfSqr (fval a))))

/-- GF_INV (R127): the inverse, and 0 for 0. -/
def execGfInv (fd fa : FReg) (s : State) : Host.Outcome State Fault Refusal :=
  .next (setF s fd ((getF s fa).map fun a => fld (gfInv (fval a))))

/-- GF_SQRT (R128): W[wd] tells whether a is a square, F[fc] is a root of a or of -a. -/
def execGfSqrt (wd : WReg) (fc fa : FReg) (s : State) : Host.Outcome State Fault Refusal :=
  let a := (getF s fa).map fval
  .next (setF (setW s wd (a.map fun x => boolWord (gfSqrtOk x))) fc
    (a.map fun x => fld (gfSqrtRoot x)))

/-- GF_ISQR (R129). -/
def execGfIsqr (wd : WReg) (fa : FReg) (s : State) : Host.Outcome State Fault Refusal :=
  .next (setW s wd ((getF s fa).map fun a => boolWord (gfIsSquare (fval a))))

/-- GF_CUBERT (R130). -/
def execGfCubert (fd fa : FReg) (s : State) : Host.Outcome State Fault Refusal :=
  .next (setF s fd ((getF s fa).map fun a => fld (gfCubert (fval a))))

/-- GF_ISNEG (R131). -/
def execGfIsneg (wd : WReg) (fa : FReg) (s : State) : Host.Outcome State Fault Refusal :=
  .next (setW s wd ((getF s fa).map fun a => boolWord (gfIsNeg (fval a))))

/-- GF_EQ (R132): all 19 cells equal. -/
def execGfEq (wd : WReg) (fa fb : FReg) (s : State) : Host.Outcome State Fault Refusal :=
  .next (setW s wd (do
    let a ← getF s fa
    let b ← getF s fb
    pure (boolWord (decide (a = b)))))

end Sys2Proof.Machine
end

