-- ==== Sys2Proof/Machine/Codec.lean ====
section
/-! DEFINITION. The byte format of field elements and map_to_base (spec/42_field_codec.md R150 to R155). -/

namespace Sys2Proof.Machine

/-- Coefficient k of an element as an integer, 0 beyond the last. -/
def coeffAt (l : List Nat) (k : Nat) : Nat := l.getD k 0

/-- The 40-bit integer V of a group of three coefficients: their low 11 bits at bits 0, 11 and 22 and
the selector h0 + 5*h1 + 25*h2 at bit 33 (R150). -/
def packTriple (c0 c1 c2 : Nat) : Nat :=
  c0 % 2048 + c1 % 2048 * 2 ^ 11 + c2 % 2048 * 2 ^ 22
    + (c0 / 2048 + 5 * (c1 / 2048) + 25 * (c2 / 2048)) * 2 ^ 33

/-- Group g of the encoding, five bytes (R150, R152). -/
def encodeGroup (l : List Nat) (g : Nat) : List Byte :=
  leBytes 5 (packTriple (coeffAt l (3 * g)) (coeffAt l (3 * g + 1)) (coeffAt l (3 * g + 2)))

/-- encode(a), 32 bytes (R150, R152): six groups, then a_18 as a 16-bit integer. -/
def encodeField (a : Gf) : List Byte :=
  let l := gfCoeffs a
  encodeGroup l 0 ++ encodeGroup l 1 ++ encodeGroup l 2 ++ encodeGroup l 3 ++ encodeGroup l 4
    ++ encodeGroup l 5 ++ leBytes 2 (coeffAt l 18)

/-- The three coefficients a 40-bit group reconstructs to; the third digit of the selector is 0 to 5
(R153). -/
def unpackTriple (v : Nat) : List Nat :=
  let h := v / 2 ^ 33
  [v % 2048 + h % 5 * 2048, v / 2 ^ 11 % 2048 + h / 5 % 5 * 2048,
    v / 2 ^ 22 % 2048 + h / 25 * 2048]

/-- The nineteen integers a 32-byte string reconstructs to; bits 7:6 of byte 31 are ignored (R153,
R154). -/
def reconstruct (bs : List Byte) : List Nat :=
  let group (g : Nat) := unpackTriple (leNat ((bs.drop (5 * g)).take 5))
  group 0 ++ group 1 ++ group 2 ++ group 3 ++ group 4 ++ group 5
    ++ [leNat ((bs.drop 30).take 2) % 2 ^ 14]

/-- decode (R153): `none` when any reconstructed coefficient is 9767 or more. -/
def decodeField (bs : List Byte) : Option Gf :=
  let c := reconstruct bs
  if c.all (fun x => decide (x < 9767)) then some (gfOf c) else none

/-- The k lowest base-9767 digits of x, lowest first. -/
def digitsP : Nat → Nat → List Nat
  | 0, _ => []
  | k + 1, x => x % 9767 :: digitsP k (x / 9767)

/-- map_to_base (R155): digit i of the little-endian integer is coefficient i. -/
def mapToBase (bs : List Byte) : Gf := gfOf (digitsP 19 (leNat bs))

end Sys2Proof.Machine
end

