-- ==== Sys2Proof/Machine/FieldCodec.lean ====
section
/-! DEFINITION. The loads and stores of the F register file (spec/42_field_codec.md R152, R153, R155). The range
check comes before anything else; indeterminate bytes make every destination indeterminate (R33). -/

namespace Sys2Proof.Machine

/-- GF_ENCODE (R152). -/
def execGfEncode (fa : FReg) (off : Off12) (s : State) : Host.Outcome State Fault Refusal :=
  .next (inRange off 32 s
    (storeBytes s off 32 ((getF s fa).map fun a => encodeField (fval a))))

/-- GF_DECODE (R153): W[wd] is ok; F[fd] is indeterminate when the string is no encoding. -/
def execGfDecode (wd : WReg) (fd : FReg) (off : Off12) (s : State) : Host.Outcome State Fault Refusal :=
  let bs := loadBytes s off 32
  .next (inRange off 32 s
    (setF (setW s wd (bs.map fun b => boolWord (decodeField b).isSome)) fd
      (bs.bind fun b => (decodeField b).map fld)))

/-- GF_MAPTOBASE (R155). -/
def execGfMaptobase (fd : FReg) (off : Off12) (s : State) : Host.Outcome State Fault Refusal :=
  .next (inRange off 48 s (setF s fd ((loadBytes s off 48).map fun b => fld (mapToBase b))))

end Sys2Proof.Machine
end

