-- ==== Sys2Proof/Machine/Curve.lean ====
section
/-! DEFINITION. The curve y^2 = x^3 - 3x + 2048*z^9, its group and its encodings (spec/00_scope.md R7,
R10, R13, spec/44_point.md R201 to R221). -/

namespace Sys2Proof.Machine

/-- A = -3, the constant polynomial 9764 (R7). -/
def curveA : Gf := gfOf [9764]

/-- B = 2048*z^9 (R7). -/
def curveB : Gf := gfMonomial 2048 9

/-- The generator G = (0, 32*z^14) (R10). -/
def generator : Point := .affine gfZero (gfMonomial 32 14)

/-- x^3 - 3x + B. -/
def curveRhs (x : Gf) : Gf := gfAdd (gfAdd (gfMul (gfSqr x) x) (gfMul curveA x)) curveB

/-- Membership in E (R13). -/
def onCurve : Point → Bool
  | .neutral => true
  | .affine x y => decide (gfSqr y = curveRhs x)

/-- u / v = u * v^(-1) (R203). -/
def gfDiv (u v : Gf) : Gf := gfMul u (gfInv v)

/-- The third point of a chord or tangent with slope lam through (x1, y1) and (x2, _) (R203). -/
def chordPoint (lam x1 y1 x2 : Gf) : Point :=
  let x3 := gfSub (gfSub (gfSqr lam) x1) x2
  .affine x3 (gfSub (gfMul lam (gfSub x1 x3)) y1)

/-- The tangent's slope (3*x1^2 + A) / (2*y1) (R203). -/
def tangentSlope (x1 y1 : Gf) : Gf :=
  gfDiv (gfAdd (gfMul (gfOf [3]) (gfSqr x1)) curveA) (gfMul (gfOf [2]) y1)

/-- The addition law (R203). -/
def pointAdd : Point → Point → Point
  | .neutral, b => b
  | a, .neutral => a
  | .affine x1 y1, .affine x2 y2 =>
    if x1 ≠ x2 then chordPoint (gfDiv (gfSub y2 y1) (gfSub x2 x1)) x1 y1 x2
    else if y1 = y2 then chordPoint (tangentSlope x1 y1) x1 y1 x2
    else .neutral

/-- Negation (R206). -/
def pointNeg : Point → Point
  | .neutral => .neutral
  | .affine x y => .affine x (gfNeg y)

/-- k doublings (R207). -/
def pointDouble (a : Point) : Nat → Point
  | 0 => a
  | k + 1 => let b := pointDouble a k; pointAdd b b

/-- m * a (R212) by double-and-add on the bits of m, the most significant first; `fuel` bounds their
number. -/
def pointMulBits (a : Point) : Nat → Nat → Point
  | 0, _ => .neutral
  | fuel + 1, m =>
    if m = 0 then .neutral
    else
      let h := pointMulBits a fuel (m / 2)
      let d := pointAdd h h
      if m % 2 = 1 then pointAdd d a else d

/-- s * a for a scalar s (R212), whose representative is below 2^252. -/
def pointMul (s : Scalar) (a : Point) : Point := pointMulBits a 252 s.val

/-- s * G (R214). -/
def pointMulGen (s : Scalar) : Point := pointMul s generator

/-- s1 * a + s2 * G (R215, R216). -/
def pointMulMulGenAdd (a : Point) (s1 s2 : Scalar) : Point :=
  pointAdd (pointMul s1 a) (pointMulGen s2)

/-! ### Encodings -/

/-- The encoding of the neutral point: thirty-one bytes 0xFF, then byte 31 (R218, R221). -/
def neutralBytes (b31 : Byte) : List Byte := List.replicate 31 0xFF ++ [b31]

/-- Byte 31 of a 32-byte string, with a bit set in it. -/
def orByte31 (bs : List Byte) (bit : Byte) : List Byte := bs.take 31 ++ [bs.getD 31 0 ||| bit]

/-- encode(P) (R218): the encoding of x with the sign of y in bit 6 of byte 31. -/
def encodePoint : Point → List Byte
  | .neutral => neutralBytes Config.neutralB31Full
  | .affine x y => orByte31 (encodeField x) (if gfIsNeg y then 0x40 else 0)

/-- encode_X(P) (R221). -/
def encodePointX : Point → List Byte
  | .neutral => neutralBytes Config.neutralB31X
  | .affine x _ => encodeField x

/-- make_y(x, sign) (R219): `none` when x is the coordinate of no point. -/
def makeY (x : Gf) (sign : Bool) : Option Gf :=
  let w := curveRhs x
  let r := gfSqrtRoot w
  if gfSqrtOk w then some (if gfIsNeg r = sign then r else gfNeg r) else none

/-- decode (R220): bit 7 of byte 31 clear, x decodes, x is on the curve; `none` is ok = 0. -/
def decodePoint (bs : List Byte) : Option Point :=
  let b31 := bs.getD 31 0
  if b31.getLsbD 7 then none
  else do
    let x ← decodeField bs
    let y ← makeY x (b31.getLsbD 6)
    pure (.affine x y)

end Sys2Proof.Machine
end

