-- ==== Sys2Proof/Machine/Move.lean ====
section
/-! DEFINITION. Data movement and constants (spec/45_system.md R240 to R255). Sources are read before the
destination is written (R15, R244); an indeterminate source makes the destination indeterminate
(R33, R244). -/

namespace Sys2Proof.Machine

/-- W_LI (R240): W[wd] <- zext_32(imm16). -/
def execWLi (wd : WReg) (imm : Imm16) (s : State) : Host.Outcome State Fault Refusal :=
  .next (setW s wd (some (imm.zeroExtend 32)))

/-- W_LD (R241): four bytes, the first the least significant. -/
def execWLd (wd : WReg) (off : Off12) (s : State) : Host.Outcome State Fault Refusal :=
  .next (inRange off 4 s
    (setW s wd ((loadBytes s off 4).map fun bs => BitVec.ofNat 32 (leNat bs))))

/-- W_ST (R242). -/
def execWSt (wa : WReg) (off : Off12) (s : State) : Host.Outcome State Fault Refusal :=
  .next (inRange off 4 s
    (storeBytes s off 4 ((getW s wa).map fun v => leBytes 4 v.toNat)))

/-- W_MOV (R243). -/
def execWMov (wd wa : WReg) (s : State) : Host.Outcome State Fault Refusal :=
  .next (setW s wd (getW s wa))

/-- GF_GETC (R245): the stored Montgomery cell; an index of 19 or more is an illegal encoding. -/
def execGfGetc (wd : WReg) (fa : FReg) (idx : Imm16) (s : State) : Host.Outcome State Fault Refusal :=
  if h : idx.toNat < 19 then
    .next (setW s wd ((getF s fa).map fun a => (a[idx.toNat]).zeroExtend 32))
  else .next (raise .illegalCommand s)

/-- GF_SETC (R246): one cell replaced, the other 18 kept; a word outside [1, 9767] leaves the whole
register indeterminate. F[fd] is a source too. -/
def execGfSetc (fd : FReg) (wa : WReg) (idx : Imm16) (s : State) : Host.Outcome State Fault Refusal :=
  if h : idx.toNat < 19 then
    .next (setF s fd (do
      let a ← getF s fd
      let v ← getW s wa
      if isStored v then some (a.set idx.toNat (v.truncate 16)) else none))
  else .next (raise .illegalCommand s)

/-- GF_MOV (R247): all 19 cells. -/
def execGfMov (fd fa : FReg) (s : State) : Host.Outcome State Fault Refusal :=
  .next (setF s fd (getF s fa))

/-- SC_MOV (R248): the residue. -/
def execScMov (sd sa : SReg) (s : State) : Host.Outcome State Fault Refusal :=
  .next (setS s sd (getS s sa))

/-- P_MOV (R249): Neutral or Affine(x, y). -/
def execPMov (pd pa : PReg) (s : State) : Host.Outcome State Fault Refusal :=
  .next (setP s pd (getP s pa))

/-- GF_SETZERO (R250): nineteen cells 9767. -/
def execGfSetzero (fd : FReg) (s : State) : Host.Outcome State Fault Refusal :=
  .next (setF s fd (some (fld gfZero)))

/-- GF_SETONE (R251): cell 0 = 7182, cells 1 to 18 = 9767. -/
def execGfSetone (fd : FReg) (s : State) : Host.Outcome State Fault Refusal :=
  .next (setF s fd (some (fld gfOne)))

/-- SC_SETZERO (R252). -/
def execScSetzero (sd : SReg) (s : State) : Host.Outcome State Fault Refusal :=
  .next (setS s sd (some 0))

/-- SC_SETONE (R253). -/
def execScSetone (sd : SReg) (s : State) : Host.Outcome State Fault Refusal :=
  .next (setS s sd (some 1))

/-- P_SETNEUTRAL (R254). -/
def execPSetneutral (pd : PReg) (s : State) : Host.Outcome State Fault Refusal :=
  .next (setP s pd (some .neutral))

/-- P_SETGEN (R255). -/
def execPSetgen (pd : PReg) (s : State) : Host.Outcome State Fault Refusal :=
  .next (setP s pd (some generator))

end Sys2Proof.Machine
end

