-- ==== Sys2Proof/Machine/PointUnit.lean ====
section
/-! DEFINITION. The point unit's commands (spec/44_point.md R200 to R222). -/

namespace Sys2Proof.Machine

/-- P_ADD (R205). -/
def execPAdd (pd pa pb : PReg) (s : State) : Host.Outcome State Fault Refusal :=
  .next (setP s pd (do
    let a ← getP s pa
    let b ← getP s pb
    pure (pointAdd a b)))

/-- P_NEG (R206). -/
def execPNeg (pd pa : PReg) (s : State) : Host.Outcome State Fault Refusal :=
  .next (setP s pd ((getP s pa).map pointNeg))

/-- P_MUL2K (R207): k doublings, k the immediate. -/
def execPMul2k (pd pa : PReg) (k : Imm16) (s : State) : Host.Outcome State Fault Refusal :=
  .next (setP s pd ((getP s pa).map fun a => pointDouble a k.toNat))

/-- P_MUL (R213). -/
def execPMul (pd pa : PReg) (sb : SReg) (s : State) : Host.Outcome State Fault Refusal :=
  .next (setP s pd (do
    let a ← getP s pa
    let b ← getS s sb
    pure (pointMul b a)))

/-- P_MULGEN (R214). -/
def execPMulgen (pd : PReg) (sa : SReg) (s : State) : Host.Outcome State Fault Refusal :=
  .next (setP s pd ((getS s sa).map pointMulGen))

/-- P_MUL_MULGEN_ADD (R215). -/
def execPMulMulgenAdd (pd pa : PReg) (sb sc : SReg) (s : State) : Host.Outcome State Fault Refusal :=
  .next (setP s pd (do
    let a ← getP s pa
    let b ← getS s sb
    let c ← getS s sc
    pure (pointMulMulGenAdd a b c)))

/-- P_VERIFY_VARTIME (R216): is s1*P + s2*G = Q? -/
def execPVerifyVartime (wd : WReg) (pa : PReg) (sb sc : SReg) (pe : PReg) (s : State) : Host.Outcome State Fault Refusal :=
  .next (setW s wd (do
    let a ← getP s pa
    let b ← getS s sb
    let c ← getS s sc
    let e ← getP s pe
    pure (boolWord (decide (pointMulMulGenAdd a b c = e)))))

/-- P_ENCODE (R218). -/
def execPEncode (pa : PReg) (off : Off12) (s : State) : Host.Outcome State Fault Refusal :=
  .next (inRange off 32 s (storeBytes s off 32 ((getP s pa).map encodePoint)))

/-- P_DECODE (R220): W[wd] is ok; on failure the point is Neutral. -/
def execPDecode (wd : WReg) (pd : PReg) (off : Off12) (s : State) : Host.Outcome State Fault Refusal :=
  let bs := loadBytes s off 32
  .next (inRange off 32 s
    (setP (setW s wd (bs.map fun b => boolWord (decodePoint b).isSome)) pd
      (bs.map fun b => (decodePoint b).getD .neutral)))

/-- P_ENCODE_X (R221). -/
def execPEncodeX (pa : PReg) (off : Off12) (s : State) : Host.Outcome State Fault Refusal :=
  .next (inRange off 32 s (storeBytes s off 32 ((getP s pa).map encodePointX)))

/-- P_ISNEUTRAL (R222). -/
def execPIsneutral (wd : WReg) (pa : PReg) (s : State) : Host.Outcome State Fault Refusal :=
  .next (setW s wd ((getP s pa).map fun a => boolWord (decide (a = .neutral))))

end Sys2Proof.Machine
end

