-- ==== Sys2Proof/Machine/Lattice.lean ====
section
/-! DEFINITION. The pair that the lattice basis reduction returns (spec/43_scalar.md R182, R183). The
spec fixes the three conditions and leaves the choice among admissible pairs open
(spec/93_implementation_defined.md U3). -/

namespace Sys2Proof.Machine

/-- Conditions (i) to (iii) of R182 on a pair for the representative b. -/
def admissiblePair (b : Nat) (c : Int × Int) : Bool :=
  decide ((c.2 * b - c.1) % (n : Int) = 0) && decide (c ≠ (0, 0))
    && decide (c.1 * c.1 + c.2 * c.2 < 2 ^ 253)

/-- Euclid on (n, b) with the cofactor of b carried along, stopped at the first remainder below 2^126.
It keeps r1 = t1 * b modulo n. -/
def euclidPair : Nat → Nat → Nat → Int → Int → Int × Int
  | 0, _, r1, _, t1 => (r1, t1)
  | fuel + 1, r0, r1, t0, t1 =>
    if r1 < 2 ^ 126 then (r1, t1)
    else euclidPair fuel r1 (r0 % r1) t1 (t0 - (r0 / r1 : Nat) * t1)

/-- One admissible pair: it shows that there is one, and stands in where the free choice is none. -/
def somePair (b : Nat) : Int × Int := euclidPair 256 n b 0 1

/-- reduce_basis_vartime(b) (R182): BASIS_CHOICE where it is admissible, so an admissible pair of which
nothing else is known (log 14). -/
def reduceBasis (b : Nat) : Int × Int :=
  if admissiblePair b (Config.basisChoice b) then Config.basisChoice b else somePair b

/-- The 32 bytes the command writes: c0, then c1 (R182). -/
def pairBytes (c : Int × Int) : List Byte := sleBytes 16 c.1 ++ sleBytes 16 c.2

end Sys2Proof.Machine
end

