-- ==== Sys2Proof/Machine/ScalarUnit.lean ====
section
/-! DEFINITION. The scalar unit's commands (spec/43_scalar.md R170 to R182), on residues modulo n (R170). -/

namespace Sys2Proof.Machine

/-- SC_DECODE_STRICT (R171): ok when the little-endian integer is below n; otherwise S[sd] is
indeterminate. The length is read first (R342). -/
def execScDecodeStrict (wd : WReg) (sd : SReg) (wlen : WReg) (off : Off12) (s : State) : Host.Outcome State Fault Refusal :=
  let len := byteLength s wlen
  let v := loadLength s off len
  .next (inLengthRange off len s
    (setS (setW s wd (v.map fun b => boolWord (decide (leNat b < n)))) sd
      (v.bind fun b => if leNat b < n then some (Fin.ofNat n (leNat b)) else none)))

/-- SC_DECODE_REDUCE (R172): the little-endian integer modulo n. -/
def execScDecodeReduce (sd : SReg) (wlen : WReg) (off : Off12) (s : State) : Host.Outcome State Fault Refusal :=
  let len := byteLength s wlen
  .next (inLengthRange off len s
    (setS s sd ((loadLength s off len).map fun b => Fin.ofNat n (leNat b))))

/-- SC_ENCODE (R173): the representative in [0, n). -/
def execScEncode (sa : SReg) (off : Off12) (s : State) : Host.Outcome State Fault Refusal :=
  .next (inRange off 32 s
    (storeBytes s off 32 ((getS s sa).map fun a => leBytes 32 a.val)))

/-- SC_ADD (R174). -/
def execScAdd (sd sa sb : SReg) (s : State) : Host.Outcome State Fault Refusal :=
  .next (setS s sd (do
    let a ← getS s sa
    let b ← getS s sb
    pure (a + b)))

/-- SC_SUB (R175). -/
def execScSub (sd sa sb : SReg) (s : State) : Host.Outcome State Fault Refusal :=
  .next (setS s sd (do
    let a ← getS s sa
    let b ← getS s sb
    pure (a - b)))

/-- SC_NEG (R176). -/
def execScNeg (sd sa : SReg) (s : State) : Host.Outcome State Fault Refusal :=
  .next (setS s sd ((getS s sa).map fun a => -a))

/-- SC_MUL (R177). -/
def execScMul (sd sa sb : SReg) (s : State) : Host.Outcome State Fault Refusal :=
  .next (setS s sd (do
    let a ← getS s sa
    let b ← getS s sb
    pure (a * b)))

/-- SC_ISZERO (R178). -/
def execScIszero (wd : WReg) (sa : SReg) (s : State) : Host.Outcome State Fault Refusal :=
  .next (setW s wd ((getS s sa).map fun a => boolWord (decide (a = 0))))

/-- SC_EQ (R179). -/
def execScEq (wd : WReg) (sa sb : SReg) (s : State) : Host.Outcome State Fault Refusal :=
  .next (setW s wd (do
    let a ← getS s sa
    let b ← getS s sb
    pure (boolWord (decide (a = b)))))

/-- SC_CONDCOPY (R180): with ctl = 0 the destination keeps whatever it held, indeterminate or not; the
source must be determinate in both cases. -/
def execScCondcopy (sd sa : SReg) (wb : WReg) (s : State) : Host.Outcome State Fault Refusal :=
  match getS s sa, getW s wb with
  | some a, some ctl =>
    if ctl = 1 then .next (setS s sd (some a))
    else if ctl = 0 then .next s
    else .next (setS s sd none)
  | _, _ => .next (setS s sd none)

/-- SC_NORMALIZE (R181): on residues, a copy. -/
def execScNormalize (sd sa : SReg) (s : State) : Host.Outcome State Fault Refusal :=
  .next (setS s sd (getS s sa))

/-- SC_REDUCE_BASIS_VARTIME (R182): c0 and c1 as two 16-byte integers. -/
def execScReduceBasisVartime (sa : SReg) (off : Off12) (s : State) : Host.Outcome State Fault Refusal :=
  .next (inRange off 32 s
    (storeBytes s off 32 ((getS s sa).map fun a => pairBytes (reduceBasis a.val))))

end Sys2Proof.Machine
end

