-- ==== Sys2Proof/Machine/Dispatch.lean ====
section
/-! DEFINITION. What each command does: one arm per command (spec/30_encoding.md R76). -/

namespace Sys2Proof.Machine

def exec (i : Instr) (s : State) : Host.Outcome State Fault Refusal :=
  match i with
  | .wLi wd imm => Sys2Proof.Machine.execWLi wd imm s
  | .wLd wd off => Sys2Proof.Machine.execWLd wd off s
  | .wSt wa off => Sys2Proof.Machine.execWSt wa off s
  | .wMov wd wa => Sys2Proof.Machine.execWMov wd wa s
  | .gfGetc wd fa idx => Sys2Proof.Machine.execGfGetc wd fa idx s
  | .gfSetc fd wa idx => Sys2Proof.Machine.execGfSetc fd wa idx s
  | .gfMov fd fa => Sys2Proof.Machine.execGfMov fd fa s
  | .scMov sd sa => Sys2Proof.Machine.execScMov sd sa s
  | .pMov pd pa => Sys2Proof.Machine.execPMov pd pa s
  | .gfSetzero fd => Sys2Proof.Machine.execGfSetzero fd s
  | .gfSetone fd => Sys2Proof.Machine.execGfSetone fd s
  | .scSetzero sd => Sys2Proof.Machine.execScSetzero sd s
  | .scSetone sd => Sys2Proof.Machine.execScSetone sd s
  | .pSetneutral pd => Sys2Proof.Machine.execPSetneutral pd s
  | .pSetgen pd => Sys2Proof.Machine.execPSetgen pd s
  | .mpAdd wd wa wb => Sys2Proof.Machine.execMpAdd wd wa wb s
  | .mpSub wd wa wb => Sys2Proof.Machine.execMpSub wd wa wb s
  | .mpFrommonty wd wa => Sys2Proof.Machine.execMpFrommonty wd wa s
  | .mpMontymul wd wa wb => Sys2Proof.Machine.execMpMontymul wd wa wb s
  | .mpTomonty wd wa => Sys2Proof.Machine.execMpTomonty wd wa s
  | .mpInv wd wa => Sys2Proof.Machine.execMpInv wd wa s
  | .mpIsQr wd wa => Sys2Proof.Machine.execMpIsQr wd wa s
  | .gfAdd fd fa fb => Sys2Proof.Machine.execGfAdd fd fa fb s
  | .gfSub fd fa fb => Sys2Proof.Machine.execGfSub fd fa fb s
  | .gfNeg fd fa => Sys2Proof.Machine.execGfNeg fd fa s
  | .gfCondneg fd fa wb => Sys2Proof.Machine.execGfCondneg fd fa wb s
  | .gfMul fd fa fb => Sys2Proof.Machine.execGfMul fd fa fb s
  | .gfSqr fd fa => Sys2Proof.Machine.execGfSqr fd fa s
  | .gfInv fd fa => Sys2Proof.Machine.execGfInv fd fa s
  | .gfSqrt wd fc fa => Sys2Proof.Machine.execGfSqrt wd fc fa s
  | .gfIsqr wd fa => Sys2Proof.Machine.execGfIsqr wd fa s
  | .gfCubert fd fa => Sys2Proof.Machine.execGfCubert fd fa s
  | .gfIsneg wd fa => Sys2Proof.Machine.execGfIsneg wd fa s
  | .gfEq wd fa fb => Sys2Proof.Machine.execGfEq wd fa fb s
  | .gfEncode fa off => Sys2Proof.Machine.execGfEncode fa off s
  | .gfDecode wd fd off => Sys2Proof.Machine.execGfDecode wd fd off s
  | .gfMaptobase fd off => Sys2Proof.Machine.execGfMaptobase fd off s
  | .scDecodeStrict wd sd wlen off => Sys2Proof.Machine.execScDecodeStrict wd sd wlen off s
  | .scDecodeReduce sd wlen off => Sys2Proof.Machine.execScDecodeReduce sd wlen off s
  | .scEncode sa off => Sys2Proof.Machine.execScEncode sa off s
  | .scAdd sd sa sb => Sys2Proof.Machine.execScAdd sd sa sb s
  | .scSub sd sa sb => Sys2Proof.Machine.execScSub sd sa sb s
  | .scNeg sd sa => Sys2Proof.Machine.execScNeg sd sa s
  | .scMul sd sa sb => Sys2Proof.Machine.execScMul sd sa sb s
  | .scIszero wd sa => Sys2Proof.Machine.execScIszero wd sa s
  | .scEq wd sa sb => Sys2Proof.Machine.execScEq wd sa sb s
  | .scCondcopy sd sa wb => Sys2Proof.Machine.execScCondcopy sd sa wb s
  | .scNormalize sd sa => Sys2Proof.Machine.execScNormalize sd sa s
  | .scReduceBasisVartime sa off => Sys2Proof.Machine.execScReduceBasisVartime sa off s
  | .pAdd pd pa pb => Sys2Proof.Machine.execPAdd pd pa pb s
  | .pNeg pd pa => Sys2Proof.Machine.execPNeg pd pa s
  | .pMul2k pd pa k => Sys2Proof.Machine.execPMul2k pd pa k s
  | .pMul pd pa sb => Sys2Proof.Machine.execPMul pd pa sb s
  | .pMulgen pd sa => Sys2Proof.Machine.execPMulgen pd sa s
  | .pMulMulgenAdd pd pa sb sc => Sys2Proof.Machine.execPMulMulgenAdd pd pa sb sc s
  | .pVerifyVartime wd pa sb sc pe => Sys2Proof.Machine.execPVerifyVartime wd pa sb sc pe s
  | .pEncode pa off => Sys2Proof.Machine.execPEncode pa off s
  | .pDecode wd pd off => Sys2Proof.Machine.execPDecode wd pd off s
  | .pEncodeX pa off => Sys2Proof.Machine.execPEncodeX pa off s
  | .pIsneutral wd pa => Sys2Proof.Machine.execPIsneutral wd pa s

end Sys2Proof.Machine
end

