-- ==== Sys2Proof/Machine/Step.lean ====
section
/-! DEFINITION. One step: the host's next transaction, and for an issued word the whole command
(spec/10_state.md R30, spec/60_exceptions.md R303 to R305, R320, R321). -/

namespace Sys2Proof.Machine

/-- What a command answers, and the end of the command where that is a next state. -/
def finishCommand (late : Nat) :
    Host.Outcome State Fault Refusal → Host.Outcome State Fault Refusal
  | .next s => .next (endCommand late s)
  | .fault f => .fault f
  | .refused r => .refused r

/-- One transaction of the host. An issued word is discarded in the error state (R305); otherwise BUSY
is set, the word is decoded, an illegal word raises IllegalCommand (R77, R303), a command runs to
completion, and BUSY is cleared (R320 item 1). -/
def step (s : State) : Host.Outcome State Fault Refusal :=
  match s.pending with
  | [] => .fault .runOver
  | .issue w early late :: rest =>
    if inError s then .next (discardCommand rest (early + late) s)
    else
      finishCommand late
        (match decode w with
        | .error _ => .next (raise .illegalCommand (startCommand rest early s))
        | .ok i => exec i (startCommand rest early s))
  | .writeBuf a v :: rest => .next (hostWrite rest a v s)
  | .readBuf a :: rest => .next (hostReadByte rest a s)
  | .readStatus :: rest => .next (hostReadStatus rest s)
  | .reset :: rest => .next (hostReset rest s)

/-- s with the command word w as the host's very next transaction (log 6): commands are not fetched
from memory, the host hands them over (R30, R50). The host makes no STATUS read meanwhile. -/
def State.withFetchWord (s : State) (nbits w : Nat) : State :=
  { s with pending := .issue (BitVec.ofNat 32 (w % 2 ^ nbits)) 0 0 :: s.pending }

end Sys2Proof.Machine
end

