-- ==== Sys2Proof/Safety.lean ====
section
/-! DEFINITION. What claims about runs are stated in: which registers and bytes a command reads and
writes (the operand lists of spec/30_encoding.md R72 and R76), when it raises BufRange, the step that
refuses what the spec would have a model refuse (spec/10_state.md R33), and the invariants of the
state. -/

namespace Sys2Proof.Machine

/-! ### What a command writes and reads -/

/-- The W register a command writes (R22), if it writes one. -/
def destW : Instr → Option WReg
  | .wLi wd _ => some wd
  | .wLd wd _ => some wd
  | .wMov wd _ => some wd
  | .gfGetc wd _ _ => some wd
  | .mpAdd wd _ _ => some wd
  | .mpSub wd _ _ => some wd
  | .mpFrommonty wd _ => some wd
  | .mpMontymul wd _ _ => some wd
  | .mpTomonty wd _ => some wd
  | .mpInv wd _ => some wd
  | .mpIsQr wd _ => some wd
  | .gfSqrt wd _ _ => some wd
  | .gfIsqr wd _ => some wd
  | .gfIsneg wd _ => some wd
  | .gfEq wd _ _ => some wd
  | .gfDecode wd _ _ => some wd
  | .scDecodeStrict wd _ _ _ => some wd
  | .scIszero wd _ => some wd
  | .scEq wd _ _ => some wd
  | .pVerifyVartime wd _ _ _ _ => some wd
  | .pDecode wd _ _ => some wd
  | .pIsneutral wd _ => some wd
  | _ => none

/-- The F register a command writes (R72), if it writes one. -/
def destF : Instr → Option FReg
  | .gfSetc fd _ _ => some fd
  | .gfMov fd _ => some fd
  | .gfSetzero fd => some fd
  | .gfSetone fd => some fd
  | .gfAdd fd _ _ => some fd
  | .gfSub fd _ _ => some fd
  | .gfNeg fd _ => some fd
  | .gfCondneg fd _ _ => some fd
  | .gfMul fd _ _ => some fd
  | .gfSqr fd _ => some fd
  | .gfInv fd _ => some fd
  | .gfSqrt _ fc _ => some fc
  | .gfCubert fd _ => some fd
  | .gfDecode _ fd _ => some fd
  | .gfMaptobase fd _ => some fd
  | _ => none

/-- The S register a command writes (R72), if it writes one. -/
def destS : Instr → Option SReg
  | .scMov sd _ => some sd
  | .scSetzero sd => some sd
  | .scSetone sd => some sd
  | .scDecodeStrict _ sd _ _ => some sd
  | .scDecodeReduce sd _ _ => some sd
  | .scAdd sd _ _ => some sd
  | .scSub sd _ _ => some sd
  | .scNeg sd _ => some sd
  | .scMul sd _ _ => some sd
  | .scCondcopy sd _ _ => some sd
  | .scNormalize sd _ => some sd
  | _ => none

/-- The P register a command writes (R72), if it writes one. -/
def destP : Instr → Option PReg
  | .pMov pd _ => some pd
  | .pSetneutral pd => some pd
  | .pSetgen pd => some pd
  | .pAdd pd _ _ => some pd
  | .pNeg pd _ => some pd
  | .pMul2k pd _ _ => some pd
  | .pMul pd _ _ => some pd
  | .pMulgen pd _ => some pd
  | .pMulMulgenAdd pd _ _ _ => some pd
  | .pDecode _ pd _ => some pd
  | _ => none

/-- The W registers a command reads (R72). The length and control operands are among them. -/
def sourcesW : Instr → List WReg
  | .wSt wa _ => [wa]
  | .wMov _ wa => [wa]
  | .gfSetc _ wa _ => [wa]
  | .mpAdd _ wa wb => [wa, wb]
  | .mpSub _ wa wb => [wa, wb]
  | .mpFrommonty _ wa => [wa]
  | .mpMontymul _ wa wb => [wa, wb]
  | .mpTomonty _ wa => [wa]
  | .mpInv _ wa => [wa]
  | .mpIsQr _ wa => [wa]
  | .gfCondneg _ _ wb => [wb]
  | .scDecodeStrict _ _ wlen _ => [wlen]
  | .scDecodeReduce _ wlen _ => [wlen]
  | .scCondcopy _ _ wb => [wb]
  | _ => []

/-- The F registers a command reads (R72). GF_SETC reads its destination too (R246). -/
def sourcesF : Instr → List FReg
  | .gfGetc _ fa _ => [fa]
  | .gfSetc fd _ _ => [fd]
  | .gfMov _ fa => [fa]
  | .gfAdd _ fa fb => [fa, fb]
  | .gfSub _ fa fb => [fa, fb]
  | .gfNeg _ fa => [fa]
  | .gfCondneg _ fa _ => [fa]
  | .gfMul _ fa fb => [fa, fb]
  | .gfSqr _ fa => [fa]
  | .gfInv _ fa => [fa]
  | .gfSqrt _ _ fa => [fa]
  | .gfIsqr _ fa => [fa]
  | .gfCubert _ fa => [fa]
  | .gfIsneg _ fa => [fa]
  | .gfEq _ fa fb => [fa, fb]
  | .gfEncode fa _ => [fa]
  | _ => []

/-- The S registers a command reads (R72). SC_CONDCOPY does not need its destination (R180). -/
def sourcesS : Instr → List SReg
  | .scMov _ sa => [sa]
  | .scEncode sa _ => [sa]
  | .scAdd _ sa sb => [sa, sb]
  | .scSub _ sa sb => [sa, sb]
  | .scNeg _ sa => [sa]
  | .scMul _ sa sb => [sa, sb]
  | .scIszero _ sa => [sa]
  | .scEq _ sa sb => [sa, sb]
  | .scCondcopy _ sa _ => [sa]
  | .scNormalize _ sa => [sa]
  | .scReduceBasisVartime sa _ => [sa]
  | .pMul _ _ sb => [sb]
  | .pMulgen _ sa => [sa]
  | .pMulMulgenAdd _ _ sb sc => [sb, sc]
  | .pVerifyVartime _ _ sb sc _ => [sb, sc]
  | _ => []

/-- The P registers a command reads (R72). -/
def sourcesP : Instr → List PReg
  | .pMov _ pa => [pa]
  | .pAdd _ pa pb => [pa, pb]
  | .pNeg _ pa => [pa]
  | .pMul2k _ pa _ => [pa]
  | .pMul _ pa _ => [pa]
  | .pMulMulgenAdd _ pa _ _ => [pa]
  | .pVerifyVartime _ pa _ _ pe => [pa, pe]
  | .pEncode pa _ => [pa]
  | .pEncodeX pa _ => [pa]
  | .pIsneutral _ pa => [pa]
  | _ => []

/-- The bytes a command stores: address and number (R58). -/
def storeRange : Instr → Option (Nat × Nat)
  | .wSt _ off => some (off.toNat, 4)
  | .gfEncode _ off => some (off.toNat, 32)
  | .scEncode _ off => some (off.toNat, 32)
  | .scReduceBasisVartime _ off => some (off.toNat, 32)
  | .pEncode _ off => some (off.toNat, 32)
  | .pEncodeX _ off => some (off.toNat, 32)
  | _ => none

/-- The bytes a command loads: address and number (R58). The two variable-length decodes take the
number from a W register; where that is indeterminate no access is known (log 5). -/
def loadRange (s : State) : Instr → Option (Nat × Nat)
  | .wLd _ off => some (off.toNat, 4)
  | .gfDecode _ _ off => some (off.toNat, 32)
  | .gfMaptobase _ off => some (off.toNat, 48)
  | .scDecodeStrict _ _ wlen off => (byteLength s wlen).map fun len => (off.toNat, len)
  | .scDecodeReduce _ wlen off => (byteLength s wlen).map fun len => (off.toNat, len)
  | .pDecode _ _ off => some (off.toNat, 32)
  | _ => none

/-- Does an access leave BUF (R52, R53)? -/
def outOfRange : Option (Nat × Nat) → Bool
  | some (addr, len) => decide (Config.bufBytes < addr + len)
  | none => false

/-- Does a command raise BufRange (R302)? -/
def raisesBufRange (s : State) (i : Instr) : Bool :=
  outOfRange (storeRange i) || outOfRange (loadRange s i)

/-- Is every register and every byte the command reads determinate? Where it is not, the spec has a
model refuse the run (R33, R343); `step` runs the command and leaves its destinations indeterminate,
`strictStep` refuses (log 2). -/
def sourcesDeterminate (s : State) (i : Instr) : Bool :=
  (sourcesW i).all (fun r => (getW s r).isSome) && (sourcesF i).all (fun r => (getF s r).isSome)
    && (sourcesS i).all (fun r => (getS s r).isSome) && (sourcesP i).all (fun r => (getP s r).isSome)
    && match loadRange s i with
      | some (addr, len) => (readBytes s.buf addr len).isSome
      | none => true

/-- The command the next step executes: a legal word issued outside the error state. -/
def commandToRun (s : State) : Option Instr :=
  match s.pending with
  | .issue w _ _ :: _ => if inError s then none else (decode w).toOption
  | _ => none

/-- Does the spec give the command a meaning in a model (R33, R303)? It does when every source is
determinate, and when BufRange abandons the command before it reads any (R303, R304). -/
def hasMeaning (s : State) (i : Instr) : Bool := raisesBufRange s i || sourcesDeterminate s i

/-- A step under the treatment that R33, R303 and decision D9 ask of a model, and
spec/93_implementation_defined.md calls refuse: no state is returned for a run that reads an
indeterminate source. Otherwise it is `step`. -/
def strictStep (s : State) : Option State :=
  if (commandToRun s).all (hasMeaning s) then
    match step s with
    | .next s' => some s'
    | _ => none
  else none

/-- A byte of BUF is outside the bytes a command stores. -/
def outsideStore (i : Instr) (a : Nat) : Prop :=
  ∀ addr len, storeRange i = some (addr, len) → a < addr ∨ addr + len ≤ a

/-! ### Invariants -/

/-- STATUS between commands (R31, R302): BUSY and the reserved bits are 0, and CAUSE is 0 while ERR is
0, 1 or 2 while ERR is 1. -/
def statusWf (st : BitVec 32) : Bool :=
  st == 0 || st == statusRaise 0 (causeCode .illegalCommand)
    || st == statusRaise 0 (causeCode .bufRange)

/-- Every determinate F register holds cells in [1, 9767] (R24). -/
def storedWf (s : State) : Prop := ∀ (i : FReg) (a : Cells), getF s i = some a → cellsStored a = true

/-- Every determinate P register holds a point of the curve (R28). -/
def pointsOnCurve (s : State) : Prop := ∀ (i : PReg) (a : Point), getP s i = some a → onCurve a = true

/-- What every step keeps: the canonical form of BUF, a legal STATUS, and the range of stored cells. -/
structure Inv (s : State) : Prop where
  buf : memoryWf s.buf = true
  status : statusWf s.status = true
  stored : storedWf s

/-! ### What an indeterminate register cannot influence -/

/-- Equal marks, and equal values where they are set. -/
def regAgree {α : Type} (a b : Reg α) : Prop := a.det = b.det ∧ (a.det = true → a.val = b.val)

/-- Two states that differ at most in what their indeterminate registers happen to hold (R33). -/
structure Agree (s t : State) : Prop where
  regsW : ∀ i : WReg, regAgree s.regsW[i] t.regsW[i]
  regsF : ∀ i : FReg, regAgree s.regsF[i] t.regsF[i]
  regsS : ∀ i : SReg, regAgree s.regsS[i] t.regsS[i]
  regsP : ∀ i : PReg, regAgree s.regsP[i] t.regsP[i]
  status : s.status = t.status
  buf : s.buf = t.buf
  idx : s.idx = t.idx
  pending : s.pending = t.pending
  hostReads : s.hostReads = t.hostReads
  fresh : s.fresh = t.fresh

/-! ### What a command leaves behind -/

/-- s' is s after a store of k bytes at off (R53): byte off + i reads as `byte i`, every other byte as
before, and nothing but BUF differs. -/
structure StoreResult (s s' : State) (off k : Nat) (byte : Nat → Option Byte) : Prop where
  rest : s' = { s with buf := s'.buf }
  inside : ∀ i, i < k → readByte s'.buf (off + i) = byte i
  outside : ∀ a, a < off ∨ off + k ≤ a → readByte s'.buf a = readByte s.buf a

/-- s' is s after an engine error with this cause code (R304): ERR is set, CAUSE is the code, BUSY and
the reserved bits of STATUS are as before, and nothing but STATUS differs. -/
structure RaiseResult (s s' : State) (code : BitVec 4) : Prop where
  rest : s' = { s with status := s'.status }
  err : statusErr s'.status = true
  cause : statusCause s'.status = code
  busy : statusBusy s'.status = statusBusy s.status
  reserved : statusReserved s'.status = statusReserved s.status

/-- s' is s but for W[i], which is indeterminate (R33), and the model's counter of free values. -/
structure LosesW (s s' : State) (i : WReg) : Prop where
  rest : s' = { s with regsW := s.regsW.set i s'.regsW[i], fresh := s'.fresh }
  lost : getW s' i = none

/-- s' is s but for F[i], which is indeterminate (R33), and the model's counter of free values. -/
structure LosesF (s s' : State) (i : FReg) : Prop where
  rest : s' = { s with regsF := s.regsF.set i s'.regsF[i], fresh := s'.fresh }
  lost : getF s' i = none

/-- s' is s but for S[i], which is indeterminate (R33), and the model's counter of free values. -/
structure LosesS (s s' : State) (i : SReg) : Prop where
  rest : s' = { s with regsS := s.regsS.set i s'.regsS[i], fresh := s'.fresh }
  lost : getS s' i = none

/-- The bytes at off to off + len - 1 are determinate, byte off + i being b i. -/
def holdsBytes (s : State) (off len : Nat) (b : Nat → Byte) : Prop :=
  ∀ i, i < len → readByte s.buf (off + i) = some (b i)

/-- LE(b 0 ... b (len - 1)) (R12). -/
def leValue (len : Nat) (b : Nat → Byte) : Nat :=
  ∑ i ∈ Finset.range len, (b i).toNat * 256 ^ i

/-- The sum of a_i * b_j over i + j = k and of 2 * a_i * b_j over i + j = k + 19 (R125). -/
def foldedCoefficient (a b : Gf) (k : Fin 19) : Nat :=
  ∑ i : Fin 19, ∑ j : Fin 19,
    if i.val + j.val = k.val then a[i].val * b[j].val
    else if i.val + j.val = k.val + 19 then 2 * (a[i].val * b[j].val)
    else 0

/-- The 32 bytes b are the field encoding of x, bits 7:6 of byte 31 not looked at (R150, R154). -/
def isFieldEncoding (x : Gf) (b : Nat → Byte) : Prop :=
  ∀ i, i < 32 → (if i = 31 then b i &&& 0x3F else b i) = (encodeField x).getD i 0

/-- a + a + ... + a with m terms, Neutral for m = 0 (R212). -/
def pointSum (a : Point) : Nat → Point
  | 0 => .neutral
  | m + 1 => pointAdd (pointSum a m) a

/-! ### Illegal words -/

/-- The three formats (R71). -/
inductive Format where
  | r
  | i
  | m
deriving DecidableEq, Repr

/-- The number of register fields of a format (R71). -/
def Format.fields : Format → Nat
  | .r => 5
  | .i => 2
  | .m => 3

/-- op, format and number of register operands of each command: three columns of R76, by rows of equal
format and count. -/
def commandForms : List (Nat × Format × Nat) :=
  [0x01].map (fun o => (o, .i, 1)) ++ [0x02, 0x03].map (fun o => (o, .m, 1))
    ++ [0x04, 0x07, 0x08, 0x09].map (fun o => (o, .r, 2)) ++ [0x05, 0x06].map (fun o => (o, .i, 2))
    ++ [0x0A, 0x0B, 0x0C, 0x0D, 0x0E, 0x0F].map (fun o => (o, .r, 1))
    ++ [0x10, 0x11, 0x13, 0x20, 0x21, 0x23, 0x24, 0x27, 0x2B].map (fun o => (o, .r, 3))
    ++ [0x12, 0x14, 0x15, 0x16, 0x22, 0x25, 0x26, 0x28, 0x29, 0x2A].map (fun o => (o, .r, 2))
    ++ [0x30, 0x32, 0x42, 0x4B, 0x57, 0x59].map (fun o => (o, .m, 1))
    ++ [0x31, 0x41, 0x58].map (fun o => (o, .m, 2)) ++ [0x40].map (fun o => (o, .m, 3))
    ++ [0x43, 0x44, 0x46, 0x48, 0x49, 0x50, 0x53].map (fun o => (o, .r, 3))
    ++ [0x45, 0x47, 0x4A, 0x51, 0x54, 0x5A].map (fun o => (o, .r, 2))
    ++ [0x52].map (fun o => (o, .i, 2)) ++ [0x55].map (fun o => (o, .r, 4))
    ++ [0x56].map (fun o => (o, .r, 5))

/-- Field r_k of a word, 1 <= k <= 5 (R71). -/
def registerField (w : BitVec 32) (k : Nat) : Nat := w.toNat / 2 ^ (24 - 4 * k) % 16

/-- The four conditions of R77 on a word. -/
def illegalWord (w : BitVec 32) : Prop :=
  (∀ c ∈ commandForms, c.1 ≠ w.toNat / 2 ^ 24) ∨
  (∃ c ∈ commandForms, c.1 = w.toNat / 2 ^ 24 ∧
    ((∃ k, c.2.2 < k ∧ k ≤ c.2.1.fields ∧ registerField w k ≠ 0) ∨
      (c.2.1 = .r ∧ w.toNat % 16 ≠ 0))) ∨
  ((w.toNat / 2 ^ 24 = 0x05 ∨ w.toNat / 2 ^ 24 = 0x06) ∧ 19 ≤ w.toNat % 2 ^ 16)

end Sys2Proof.Machine
end

