-- ==== Sys2Proof/Certificates/Slice0/Obligations.lean ====
section
/-! DEFINITION. The statements for the provers. Each docstring names the rules of spec/ it formalises;
where a clause rests on a choice of the model it names the log entry. -/

open Sys2Proof Sys2Proof.Machine

/-! ### Encoding -/

/-- Sample words of spec/95_test_vectors.md (X1 to X12 and words of PR1, PR4 and PR5) decode to the
commands they stand for, and the illegal ones are rejected for the condition of R77 they break. -/
def Obligations.SampleWordsDecode : Prop :=
  decode 0x40001000 = .ok (.scDecodeStrict 0 0 1 0) ∧
  decode 0x56304310 = .ok (.pVerifyVartime 3 0 4 3 1) ∧
  decode 0x05000012 = .ok (.gfGetc 0 0 18) ∧
  decode 0x20123000 = .ok (.gfAdd 1 2 3) ∧
  decode 0x13433000 = .ok (.mpMontymul 4 3 3) ∧
  decode 0x57000020 = .ok (.pEncode 0 32) ∧
  decode 0x03000FFD = .ok (.wSt 0 4093) ∧
  decode 0x05000013 = .error .indexTooLarge ∧
  decode 0x20123400 = .error .registerFieldNotZero ∧
  decode 0x22101000 = .error .registerFieldNotZero ∧
  decode 0x01010000 = .error .registerFieldNotZero ∧
  decode 0x30001000 = .error .registerFieldNotZero ∧
  decode 0x02010000 = .error .registerFieldNotZero ∧
  decode 0x22100001 = .error .lowBitsNotZero ∧
  decode 0x00000000 = .error .unassignedOp ∧
  decode 0x17000000 = .error .unassignedOp ∧
  decode 0x5B000000 = .error .unassignedOp ∧
  decode 0xFF000000 = .error .unassignedOp

/-- Every well-formed command survives being encoded and decoded, with every operand at every value
(R71 to R76). -/
def Obligations.DecodeInvertsEncode : Prop :=
  ∀ i : Instr, i.wellFormed = true → decode (encode i) = .ok i

/-- A word that decodes is the word R75 assembles from the command's fields, and the command is
well-formed: no two words mean the same command (R75, R79). -/
def Obligations.EncodeInvertsDecode : Prop :=
  ∀ (w : BitVec 32) (i : Instr), decode w = .ok i → encode i = w ∧ i.wellFormed = true

/-- The decoder accepts exactly the words that a row of spec/opcode_table.json takes, the row is the
one of the command's op, and no word is taken by two rows (R76, R77). -/
def Obligations.LegalWordsAreTheTableRows : Prop :=
  ∀ w : BitVec 32,
    ((∃ i, decode w = .ok i) ↔ ∃ r ∈ opcodeTable, r.takes w = true) ∧
    (∀ i, decode w = .ok i → ∃ r ∈ opcodeTable, r.takes w = true ∧
      r.matchBits.toNat = opcode i * 2 ^ 24) ∧
    (∀ r₁ ∈ opcodeTable, ∀ r₂ ∈ opcodeTable, r₁.takes w = true → r₂.takes w = true → r₁ = r₂)

/-- R77: a word that meets one of the four conditions raises IllegalCommand (cause 1) and changes no
register and no byte; every other word is a command. The word is handed over while BUSY is 0 (R320),
and what STATUS reads during its execution deliver is StatusReadsDuringACommandSeeBusy. -/
def Obligations.IllegalWordRaisesIllegalCommand : Prop :=
  ∀ (s : State) (w : BitVec 32) (early late : Nat) (rest : List HostTxn),
    s.pending = .issue w early late :: rest → inError s = false → statusBusy s.status = false →
    (illegalWord w → ∃ s', step s = .next s' ∧
      RaiseResult { s with pending := rest, idx := s.idx + 1, hostReads := s'.hostReads } s' 1) ∧
    (¬ illegalWord w → ∃ i, decode w = .ok i)

/-! ### Steps and the host -/

/-- A legal word handed over outside the error state is executed as the command it decodes to, on the
state in which it has been taken from the port, idx counts it, BUSY (bit 0 of STATUS) is 1 and the
host has read STATUS early times; then the host reads STATUS late times and BUSY becomes 0
(R30, R303, R320). -/
def Obligations.StepRunsTheDecodedCommand : Prop :=
  ∀ (s : State) (w : BitVec 32) (early late : Nat) (rest : List HostTxn) (i : Instr),
    s.pending = .issue w early late :: rest → inError s = false → decode w = .ok i →
    ∃ t u : State, t = { s with
        pending := rest, idx := s.idx + 1, status := s.status ||| 1#32,
        hostReads := List.replicate early (.status (s.status ||| 1#32)) ++ s.hostReads } ∧
      exec i t = .next u ∧ step s = .next { u with
        status := u.status &&& 0xFFFFFFFE#32,
        hostReads := List.replicate late (.status u.status) ++ u.hostReads }

/-- R30: whatever word is issued, legal or not, in the error state or not, the step completes and idx
has advanced by one. -/
def Obligations.IssueAdvancesIdxByOne : Prop :=
  ∀ (s : State) (w : BitVec 32) (early late : Nat) (rest : List HostTxn),
    s.pending = .issue w early late :: rest →
    ∃ s', step s = .next s' ∧ s'.idx = s.idx + 1 ∧ s'.pending = rest

/-- R305: in the error state any number of issued words, legal or not, is discarded: nothing but idx
(and what the host still has to do and has read) changes. STATUS reads made meanwhile deliver STATUS
as the first error left it. -/
def Obligations.ErrorStateDiscardsCommands : Prop :=
  ∀ (ws : List (BitVec 32 × Nat × Nat)) (rest : List HostTxn) (s : State), inError s = true →
    s.pending = ws.map (fun x => .issue x.1 x.2.1 x.2.2) ++ rest →
    core.run ws.length s = .next { s with
      pending := rest, idx := s.idx + ws.length,
      hostReads := List.replicate (ws.map fun x => x.2.1 + x.2.2).sum (.status s.status) ++
        s.hostReads }

/-- R331: reset is the only exit from the error state, and any other step keeps STATUS as the first
error left it (R305). -/
def Obligations.OnlyResetLeavesTheErrorState : Prop :=
  ∀ s s' : State, inError s = true → step s = .next s' →
    (inError s' = true ∧ s'.status = s.status) ∨
      (s'.status = 0 ∧ ∃ rest, s.pending = .reset :: rest)

/-- R35, R330: after reset STATUS is 0, idx is 0 and every register and every byte of BUF is
indeterminate: so State.reset, and so the state after a reset the host asserts, from any state. -/
def Obligations.ResetLeavesEverythingIndeterminate : Prop :=
  ∀ (s : State) (rest : List HostTxn), s.pending = .reset :: rest →
    ∃ s', step s = .next s' ∧ ∀ t, (t = s' ∨ t = State.reset) →
      t.status = 0 ∧ t.idx = 0 ∧ (∀ r, getW t r = none) ∧ (∀ r, getF t r = none) ∧
        (∀ r, getS t r = none) ∧ (∀ r, getP t r = none) ∧ ∀ a, readByte t.buf a = none

/-- The host's byte write, byte read and STATUS read (R320 items 2 and 3, R51): a write changes that
byte alone, a read changes nothing of the engine and delivers the byte or STATUS. Where the delivered
values stand (hostReads), and that an indeterminate byte is delivered as none, is the model's own
(log 9); that the host may write in the error state too is DEDUCED (log 8). -/
def Obligations.HostBufferAndStatusAccess : Prop :=
  ∀ (s : State) (rest : List HostTxn) (a : BitVec 12) (v : Byte),
    (s.pending = .writeBuf a v :: rest → ∃ s', step s = .next s' ∧
      s' = { s with pending := rest, buf := s'.buf } ∧
      ∀ b, readByte s'.buf b = if b = a.toNat then some v else readByte s.buf b) ∧
    (s.pending = .readBuf a :: rest → step s = .next { s with
      pending := rest, hostReads := .byte a (readByte s.buf a.toNat) :: s.hostReads }) ∧
    (s.pending = .readStatus :: rest → step s = .next { s with
      pending := rest, hostReads := .status s.status :: s.hostReads })

/-- The engine never stops by itself (R340): a step stops, with a fault, exactly when the host has nothing
left to do (the name of that stop is the model's own, log 7), and refuses nothing. That step refuses
nothing, not even a run that reads an indeterminate source, is the model's choice (log 2; R33, R303,
R343 and D9 have a model refuse such a run): strictStep returns no state exactly where nothing is
pending or the command to run reads an indeterminate source, and otherwise step's. -/
def Obligations.StepStopsOnlyWhenNothingIsPending : Prop :=
  ∀ s : State, ((∃ f, step s = .fault f) ↔ s.pending = []) ∧ (∀ r, step s ≠ .refused r) ∧
    (strictStep s = none ↔ s.pending = [] ∨ ∃ w early late rest i,
      s.pending = .issue w early late :: rest ∧ inError s = false ∧ decode w = .ok i ∧
      raisesBufRange s i = false ∧ sourcesDeterminate s i = false) ∧
    ∀ s', strictStep s = some s' → step s = .next s'

/-! ### Engine errors -/

/-- A command raises BufRange (cause 2) exactly when its access leaves BUF, and then it changes nothing
but STATUS; otherwise it completes and STATUS is unchanged: no other engine error exists (R302, R304).
A variable-length decode whose length register is indeterminate raises no error (R33, R343; log 5). -/
def Obligations.BufRangeExactlyWhenTheAccessLeavesBuf : Prop :=
  ∀ (s : State) (i : Instr), i.wellFormed = true → ∃ s', exec i s = .next s' ∧
    (raisesBufRange s i = true → RaiseResult s s' 2) ∧
    (raisesBufRange s i = false → s'.status = s.status)

/-! ### Indeterminate values -/

/-- R33 (third sentence): a command that reads an indeterminate register or byte leaves every register
and every byte it writes indeterminate and raises no error. That the model runs it instead of
refusing the run is log 2, and that a variable-length decode whose length is indeterminate is such a
command is log 5. -/
def Obligations.IndeterminateSourcesGiveIndeterminateResults : Prop :=
  ∀ (s : State) (i : Instr), i.wellFormed = true → memoryWf s.buf = true →
    raisesBufRange s i = false → sourcesDeterminate s i = false →
    ∃ s', exec i s = .next s' ∧ s'.status = s.status ∧
      (∀ r, destW i = some r → getW s' r = none) ∧ (∀ r, destF i = some r → getF s' r = none) ∧
      (∀ r, destS i = some r → getS s' r = none) ∧ (∀ r, destP i = some r → getP s' r = none) ∧
      ∀ addr len, storeRange i = some (addr, len) → ∀ k, k < len → readByte s'.buf (addr + k) = none

/-- What an indeterminate register happens to hold influences nothing: two states that differ only
there take steps to states that differ only there (R33, R34, R35). -/
def Obligations.IndeterminateContentsHaveNoInfluence : Prop :=
  ∀ s t : State, Agree s t →
    (s.pending = [] ∧ t.pending = []) ∨
      ∃ s' t', step s = .next s' ∧ step t = .next t' ∧ Agree s' t'

/-! ### Invariants -/

/-- The state after reset has the canonical memory form, a legal STATUS, stored cells in range and only
curve points (R24, R28, R31, R35; the memory form is the model's own). -/
def Obligations.ResetMeetsTheInvariants : Prop :=
  Inv State.reset ∧ pointsOnCurve State.reset

/-- Every step keeps the canonical form of BUF, a STATUS with its reserved bits and BUSY at 0 and a
cause of R302, and the range [1, 9767] of every determinate stored coefficient (R24, R31, R302). -/
def Obligations.StepKeepsTheInvariant : Prop :=
  ∀ s s' : State, Inv s → step s = .next s' → Inv s'

/-- No command sequence breaks the on-curve invariant: every determinate point register keeps holding
Neutral or a solution of the curve equation (R28, R200). -/
def Obligations.StepKeepsPointsOnTheCurve : Prop :=
  ∀ s s' : State, pointsOnCurve s → step s = .next s' → pointsOnCurve s'

/-! ### Frames -/

/-- A command changes no register but its destinations (R22, R72, R200); destW, destF, destS and destP
name them. -/
def Obligations.CommandsChangeOnlyTheirDestinationRegisters : Prop :=
  ∀ (s : State) (i : Instr), ∃ s', exec i s = .next s' ∧
    (∀ r : WReg, destW i ≠ some r → s'.regsW[r] = s.regsW[r]) ∧
    (∀ r : FReg, destF i ≠ some r → s'.regsF[r] = s.regsF[r]) ∧
    (∀ r : SReg, destS i ≠ some r → s'.regsS[r] = s.regsS[r]) ∧
    (∀ r : PReg, destP i ≠ some r → s'.regsP[r] = s.regsP[r])

/-- A command's own effect leaves idx, the host's remaining transactions and what the host has read
alone, and changes STATUS only by raising an engine error (R30, R301, R304, R320). -/
def Obligations.CommandsLeaveControlStateAlone : Prop :=
  ∀ (s : State) (i : Instr), ∃ s', exec i s = .next s' ∧ s'.idx = s.idx ∧
    s'.pending = s.pending ∧ s'.hostReads = s.hostReads ∧
    (s'.status ≠ s.status → inError s' = true ∧ s' = { s with status := s'.status })

/-- A command changes no byte of BUF outside the bytes it stores, which storeRange computes from the
command's own offset field (R53, R54, R58); a command that stores nothing changes none. -/
def Obligations.CommandsChangeOnlyTheBytesTheyStore : Prop :=
  ∀ (s : State) (i : Instr), memoryWf s.buf = true → ∃ s', exec i s = .next s' ∧
    (∀ addr len, storeRange i = some (addr, len) →
      ∀ a, a < addr ∨ addr + len ≤ a → readByte s'.buf a = readByte s.buf a) ∧
    (storeRange i = none → s'.buf = s.buf)

/-! ### Data movement and constants -/

/-- R240, R243, R247, R248, R249: W_LI writes the zero-extended immediate, and the four moves copy a
determinate source whole; nothing else changes. -/
def Obligations.LoadImmediateAndMovesCopyTheValue : Prop :=
  ∀ (s : State) (d a : Fin 16),
    (∀ imm : Imm16, exec (.wLi d imm) s = .next { s with
      regsW := s.regsW.set d ⟨BitVec.ofNat 32 imm.toNat, true⟩ }) ∧
    (∀ v, getW s a = some v → exec (.wMov d a) s = .next { s with
      regsW := s.regsW.set d ⟨v, true⟩ }) ∧
    (∀ v, getF s a = some v → exec (.gfMov d a) s = .next { s with
      regsF := s.regsF.set d ⟨v, true⟩ }) ∧
    (∀ v, getS s a = some v → exec (.scMov d a) s = .next { s with
      regsS := s.regsS.set d ⟨v, true⟩ }) ∧
    (∀ v, getP s a = some v → exec (.pMov d a) s = .next { s with
      regsP := s.regsP.set d ⟨v, true⟩ })

/-- R250 to R255: the six constant commands. The zero element is nineteen cells 9767, the one has
cell 0 = 7182, and the generator is (0, 32*z^14). -/
def Obligations.ConstantCommandsWriteTheirConstant : Prop :=
  ∀ (s : State) (d : Fin 16),
    exec (.gfSetzero d) s = .next { s with
      regsF := s.regsF.set d ⟨Vector.replicate 19 9767, true⟩ } ∧
    exec (.gfSetone d) s = .next { s with
      regsF := s.regsF.set d ⟨(Vector.replicate 19 9767).set 0 7182, true⟩ } ∧
    exec (.scSetzero d) s = .next { s with regsS := s.regsS.set d ⟨0, true⟩ } ∧
    exec (.scSetone d) s = .next { s with regsS := s.regsS.set d ⟨1, true⟩ } ∧
    exec (.pSetneutral d) s = .next { s with regsP := s.regsP.set d ⟨.neutral, true⟩ } ∧
    exec (.pSetgen d) s = .next { s with
      regsP := s.regsP.set d
        ⟨.affine (Vector.replicate 19 0) ((Vector.replicate 19 0).set 14 32), true⟩ }

/-- R241: W_LD reads four determinate bytes, the first the least significant, at any offset up to 4092;
beyond, BufRange. -/
def Obligations.WordLoadReadsFourBytesLittleEndian : Prop :=
  ∀ (s : State) (wd : WReg) (off : Off12),
    (∀ b0 b1 b2 b3 : Byte, off.toNat ≤ 4092 → readByte s.buf off.toNat = some b0 →
      readByte s.buf (off.toNat + 1) = some b1 → readByte s.buf (off.toNat + 2) = some b2 →
      readByte s.buf (off.toNat + 3) = some b3 →
      exec (.wLd wd off) s = .next { s with regsW := s.regsW.set wd ⟨b3 ++ b2 ++ b1 ++ b0, true⟩ }) ∧
    (4092 < off.toNat → ∃ s', exec (.wLd wd off) s = .next s' ∧ RaiseResult s s' 2)

/-- R242: W_ST writes the four bytes of a determinate word, the least significant first, at any offset up
to 4092 and nothing else; beyond, BufRange. -/
def Obligations.WordStoreWritesFourBytesLittleEndian : Prop :=
  ∀ (s : State) (wa : WReg) (off : Off12) (v : Word), memoryWf s.buf = true →
    getW s wa = some v →
    (off.toNat ≤ 4092 → ∃ s', exec (.wSt wa off) s = .next s' ∧
      StoreResult s s' off.toNat 4 fun i => some (v.extractLsb' (8 * i) 8)) ∧
    (4092 < off.toNat → ∃ s', exec (.wSt wa off) s = .next s' ∧ RaiseResult s s' 2)

/-- R245: GF_GETC delivers the stored cell, zero-extended, for an index up to 18; no word means a GF_GETC
with a larger index. -/
def Obligations.CoefficientReadDeliversTheStoredCell : Prop :=
  ∀ (s : State) (wd : WReg) (fa : FReg) (idx : Imm16),
    (∀ (a : Cells) (h : idx.toNat ≤ 18), getF s fa = some a →
      exec (.gfGetc wd fa idx) s = .next { s with
        regsW := s.regsW.set wd
          ⟨BitVec.ofNat 32 (a[(⟨idx.toNat, by omega⟩ : Fin 19)]).toNat, true⟩ }) ∧
    (18 < idx.toNat → ∀ w, decode w ≠ .ok (.gfGetc wd fa idx))

/-- R246: GF_SETC, for an index up to 18, replaces one cell by a word in [1, 9767] and keeps the other
eighteen; a word outside that range leaves the whole register indeterminate and raises no error; no
word means a GF_SETC with a larger index. -/
def Obligations.CoefficientWriteReplacesOneCell : Prop :=
  ∀ (s : State) (fd : FReg) (wa : WReg) (idx : Imm16),
    (∀ (a : Cells) (v : Word), idx.toNat ≤ 18 → getF s fd = some a → getW s wa = some v →
      (1 ≤ v.toNat → v.toNat ≤ 9767 → ∃ x : Cells,
        exec (.gfSetc fd wa idx) s = .next { s with regsF := s.regsF.set fd ⟨x, true⟩ } ∧
        ∀ k : Fin 19, x[k].toNat = if k.val = idx.toNat then v.toNat else a[k].toNat) ∧
      (v.toNat = 0 ∨ 9767 < v.toNat →
        ∃ s', exec (.gfSetc fd wa idx) s = .next s' ∧ LosesF s s' fd)) ∧
    (18 < idx.toNat → ∀ w, decode w ≠ .ok (.gfSetc fd wa idx))

/-! ### Base field -/

/-- R101, R102: MP_ADD and MP_SUB on words in [1, 9767], with zero stored as 9767; any other source
word leaves W[wd] indeterminate and raises no error. -/
def Obligations.MpAddAndSubAreModular : Prop :=
  ∀ (s : State) (wd wa wb : WReg) (a b : Word), getW s wa = some a → getW s wb = some b →
    ((1 ≤ a.toNat ∧ a.toNat ≤ 9767) ∧ (1 ≤ b.toNat ∧ b.toNat ≤ 9767) → ∃ r t : Word,
      exec (.mpAdd wd wa wb) s = .next { s with regsW := s.regsW.set wd ⟨r, true⟩ } ∧
      exec (.mpSub wd wa wb) s = .next { s with regsW := s.regsW.set wd ⟨t, true⟩ } ∧
      r.toNat = (if a.toNat + b.toNat ≤ 9767 then a.toNat + b.toNat
        else a.toNat + b.toNat - 9767) ∧
      t.toNat = (if b.toNat < a.toNat then a.toNat - b.toNat else a.toNat + 9767 - b.toNat) ∧
      mval r.toNat = (mval a.toNat + mval b.toNat) % 9767 ∧
      mval a.toNat = (mval t.toNat + mval b.toNat) % 9767) ∧
    (¬ ((1 ≤ a.toNat ∧ a.toNat ≤ 9767) ∧ (1 ≤ b.toNat ∧ b.toNat ≤ 9767)) →
      (∃ s', exec (.mpAdd wd wa wb) s = .next s' ∧ LosesW s s' wd) ∧
      (∃ s', exec (.mpSub wd wa wb) s = .next s' ∧ LosesW s s' wd))

/-- R103, R104: MP_FROMMONTY and MP_MONTYMUL deliver the number in [1, 9767] that times 2^32 is the
source, or the exact product of the sources, modulo 9767, when that is in [1, 3654952486]; otherwise
W[wd] is indeterminate and no error is raised. -/
def Obligations.MontgomeryReductionDividesByTheRadix : Prop :=
  ∀ (s : State) (wd wa wb : WReg) (a b : Word), getW s wa = some a → getW s wb = some b →
    (1 ≤ a.toNat ∧ a.toNat ≤ 3654952486 → ∃ r : Word,
      exec (.mpFrommonty wd wa) s = .next { s with regsW := s.regsW.set wd ⟨r, true⟩ } ∧
      1 ≤ r.toNat ∧ r.toNat ≤ 9767 ∧ r.toNat * 2 ^ 32 % 9767 = a.toNat % 9767) ∧
    (¬ (1 ≤ a.toNat ∧ a.toNat ≤ 3654952486) →
      ∃ s', exec (.mpFrommonty wd wa) s = .next s' ∧ LosesW s s' wd) ∧
    (1 ≤ a.toNat * b.toNat ∧ a.toNat * b.toNat ≤ 3654952486 → ∃ r : Word,
      exec (.mpMontymul wd wa wb) s = .next { s with regsW := s.regsW.set wd ⟨r, true⟩ } ∧
      1 ≤ r.toNat ∧ r.toNat ≤ 9767 ∧ r.toNat * 2 ^ 32 % 9767 = a.toNat * b.toNat % 9767) ∧
    (¬ (1 ≤ a.toNat * b.toNat ∧ a.toNat * b.toNat ≤ 3654952486) →
      ∃ s', exec (.mpMontymul wd wa wb) s = .next s' ∧ LosesW s s' wd)

/-- R105: MP_TOMONTY delivers the number in [1, 9767] congruent to the source times 2^32, for sources up
to 2278869; above, W[wd] is indeterminate and no error is raised. -/
def Obligations.MpTomontyMultipliesByTheRadix : Prop :=
  ∀ (s : State) (wd wa : WReg) (a : Word), getW s wa = some a →
    (a.toNat ≤ 2278869 → ∃ r : Word,
      exec (.mpTomonty wd wa) s = .next { s with regsW := s.regsW.set wd ⟨r, true⟩ } ∧
      1 ≤ r.toNat ∧ r.toNat ≤ 9767 ∧ r.toNat % 9767 = a.toNat * 2 ^ 32 % 9767) ∧
    (2278869 < a.toNat → ∃ s', exec (.mpTomonty wd wa) s = .next s' ∧ LosesW s s' wd)

/-- R106: MP_INV delivers the Montgomery form of the inverse, and zero (9767) for zero; outside
[1, 9767] W[wd] is indeterminate and no error is raised. -/
def Obligations.MpInvDeliversTheInverse : Prop :=
  ∀ (s : State) (wd wa : WReg) (a : Word), getW s wa = some a →
    (1 ≤ a.toNat ∧ a.toNat ≤ 9767 → ∃ r : Word,
      exec (.mpInv wd wa) s = .next { s with regsW := s.regsW.set wd ⟨r, true⟩ } ∧
      1 ≤ r.toNat ∧ r.toNat ≤ 9767 ∧ mval r.toNat = mval a.toNat ^ 9765 % 9767 ∧
      (a.toNat ≠ 9767 → mval r.toNat * mval a.toNat % 9767 = 1) ∧
      (a.toNat = 9767 → r.toNat = 9767)) ∧
    (¬ (1 ≤ a.toNat ∧ a.toNat ≤ 9767) →
      ∃ s', exec (.mpInv wd wa) s = .next s' ∧ LosesW s s' wd)

/-- R107: MP_IS_QR delivers 9767 for zero, 7182 for a non-zero square, 2585 for a non-square; outside
[1, 9767] W[wd] is indeterminate and no error is raised. -/
def Obligations.MpIsQrTellsSquaresApart : Prop :=
  ∀ (s : State) (wd wa : WReg) (a : Word), getW s wa = some a →
    (1 ≤ a.toNat ∧ a.toNat ≤ 9767 → ∃ r : Word,
      exec (.mpIsQr wd wa) s = .next { s with regsW := s.regsW.set wd ⟨r, true⟩ } ∧
      mval r.toNat = mval a.toNat ^ 4883 % 9767 ∧
      (a.toNat = 9767 → r.toNat = 9767) ∧
      (a.toNat ≠ 9767 → (∃ x, x * x % 9767 = mval a.toNat) → r.toNat = 7182) ∧
      (a.toNat ≠ 9767 → (¬ ∃ x, x * x % 9767 = mval a.toNat) → r.toNat = 2585)) ∧
    (¬ (1 ≤ a.toNat ∧ a.toNat ≤ 9767) →
      ∃ s', exec (.mpIsQr wd wa) s = .next s' ∧ LosesW s s' wd)

/-! ### Field arithmetic -/

/-- R121, R122, R123: GF_ADD, GF_SUB and GF_NEG work coefficient by coefficient on the cells, and so on
the elements; results are in [1, 9767]. -/
def Obligations.GfAddSubNegAreCoefficientwise : Prop :=
  ∀ (s : State) (fd fa fb : FReg) (a b : Cells), getF s fa = some a → getF s fb = some b →
    ∃ x y z : Cells,
      exec (.gfAdd fd fa fb) s = .next { s with regsF := s.regsF.set fd ⟨x, true⟩ } ∧
      exec (.gfSub fd fa fb) s = .next { s with regsF := s.regsF.set fd ⟨y, true⟩ } ∧
      exec (.gfNeg fd fa) s = .next { s with regsF := s.regsF.set fd ⟨z, true⟩ } ∧
      ∀ k : Fin 19,
        x[k].toNat = norm (a[k].toNat + b[k].toNat) ∧ y[k].toNat = norm (a[k].toNat - b[k].toNat) ∧
        z[k].toNat = norm (9767 - a[k].toNat) ∧ (fval x)[k] = (fval a)[k] + (fval b)[k] ∧
        (fval y)[k] = (fval a)[k] - (fval b)[k] ∧ (fval z)[k] = -(fval a)[k]

/-- R124: GF_CONDNEG negates for the control word 1, copies for 0, and leaves F[fd] indeterminate, with no
error, for any other. -/
def Obligations.GfCondnegFollowsTheControlWord : Prop :=
  ∀ (s : State) (fd fa : FReg) (wb : WReg) (a : Cells) (ctl : Word), getF s fa = some a →
    getW s wb = some ctl →
    (ctl = 1 → ∃ c : Cells,
      exec (.gfCondneg fd fa wb) s = .next { s with regsF := s.regsF.set fd ⟨c, true⟩ } ∧
      cellsStored c = true ∧ ∀ k : Fin 19, (fval c)[k] = -(fval a)[k]) ∧
    (ctl = 0 →
      exec (.gfCondneg fd fa wb) s = .next { s with regsF := s.regsF.set fd ⟨a, true⟩ }) ∧
    (ctl ≠ 0 → ctl ≠ 1 → ∃ s', exec (.gfCondneg fd fa wb) s = .next s' ∧ LosesF s s' fd)

/-- R125, R126: GF_MUL delivers the product modulo z^19 - 2, coefficient k being the sum of a_i*b_j over
i + j = k and of 2*a_i*b_j over i + j = k + 19, and GF_SQR the same with b = a. -/
def Obligations.GfMulIsTheFoldedProduct : Prop :=
  ∀ (s : State) (fd fa fb : FReg) (a b : Cells), getF s fa = some a → getF s fb = some b →
    ∃ x y : Cells,
      exec (.gfMul fd fa fb) s = .next { s with regsF := s.regsF.set fd ⟨x, true⟩ } ∧
      exec (.gfSqr fd fa) s = .next { s with regsF := s.regsF.set fd ⟨y, true⟩ } ∧
      cellsStored x = true ∧ cellsStored y = true ∧
      ∀ k : Fin 19, (fval x)[k].val = foldedCoefficient (fval a) (fval b) k % 9767 ∧
        (fval y)[k].val = foldedCoefficient (fval a) (fval a) k % 9767

/-- R127: GF_INV delivers the one element whose product with a is 1, and 0 for 0; in both cases that is
a^(q-2). The product is the one R125 defines (GfMulIsTheFoldedProduct). -/
def Obligations.GfInvDeliversTheInverse : Prop :=
  ∀ (s : State) (fd fa : FReg) (a : Cells), getF s fa = some a → ∃ c : Cells,
    exec (.gfInv fd fa) s = .next { s with regsF := s.regsF.set fd ⟨c, true⟩ } ∧
    cellsStored c = true ∧
    (fval a = gfZero → fval c = gfZero) ∧
    (fval a ≠ gfZero → gfMul (fval a) (fval c) = gfOne ∧
      ∀ x, gfMul (fval a) x = gfOne → x = fval c) ∧
    fval c = gfPow (fval a) expBits (q - 2)

/-- GF_SQRT and GF_ISQR deliver 1 exactly for squares, 0 included, and GF_SQRT's F result is a square
root of a, or of -a when a is no square (R128, R129). Which of the two roots it is (log 12) is left
out. -/
def Obligations.GfSqrtRootsTheElementOrItsNegation : Prop :=
  ∀ (s : State) (wd : WReg) (fc fa : FReg) (a : Cells), getF s fa = some a →
    ∃ (w : Word) (c : Cells),
      exec (.gfSqrt wd fc fa) s = .next { s with
        regsW := s.regsW.set wd ⟨w, true⟩, regsF := s.regsF.set fc ⟨c, true⟩ } ∧
      exec (.gfIsqr wd fa) s = .next { s with regsW := s.regsW.set wd ⟨w, true⟩ } ∧
      cellsStored c = true ∧
      ((∃ x, gfSqr x = fval a) → w = 1 ∧ gfSqr (fval c) = fval a) ∧
      ((¬ ∃ x, gfSqr x = fval a) → w = 0 ∧ gfSqr (fval c) = gfNeg (fval a))

/-- R130: GF_CUBERT delivers the one element whose cube is a, which is a^((2q-1)/3). -/
def Obligations.GfCubertDeliversTheCubeRoot : Prop :=
  ∀ (s : State) (fd fa : FReg) (a : Cells), getF s fa = some a → ∃ c : Cells,
    exec (.gfCubert fd fa) s = .next { s with regsF := s.regsF.set fd ⟨c, true⟩ } ∧
    cellsStored c = true ∧ fval c = gfPow (fval a) expBits ((2 * q - 1) / 3) ∧
    gfMul (gfSqr (fval c)) (fval c) = fval a ∧
    ∀ x, gfMul (gfSqr x) x = fval a → x = fval c

/-- R131: GF_ISNEG delivers 1 exactly when the highest non-zero coefficient is above 4883, else 0; of a
non-zero element and its negation exactly one is negative. -/
def Obligations.GfIsnegLooksAtTheTopCoefficient : Prop :=
  ∀ (s : State) (wd : WReg) (fa : FReg) (a : Cells), getF s fa = some a →
    exec (.gfIsneg wd fa) s = .next { s with
      regsW := s.regsW.set wd ⟨if gfIsNeg (fval a) then 1 else 0, true⟩ } ∧
    (gfIsNeg (fval a) = true ↔
      ∃ k : Fin 19, 4883 < (fval a)[k].val ∧ ∀ j : Fin 19, k < j → (fval a)[j].val = 0) ∧
    (fval a ≠ gfZero → gfIsNeg (gfNeg (fval a)) = !gfIsNeg (fval a))

/-- R132: GF_EQ delivers 1 when all nineteen cells are equal, else 0; for registers in the range of R24
that is equality of the elements. -/
def Obligations.GfEqComparesElements : Prop :=
  ∀ (s : State) (wd : WReg) (fa fb : FReg) (a b : Cells), storedWf s → getF s fa = some a →
    getF s fb = some b → ∃ w : Word,
      exec (.gfEq wd fa fb) s = .next { s with regsW := s.regsW.set wd ⟨w, true⟩ } ∧
      ((∀ k : Fin 19, a[k] = b[k]) → w = 1) ∧ ((∃ k : Fin 19, a[k] ≠ b[k]) → w = 0) ∧
      (w = 1 ↔ fval a = fval b)

/-! ### Field codec -/

/-- R150, R152: GF_ENCODE stores 32 bytes: six 40-bit little-endian groups of three coefficients (their
low eleven bits and the base-5 selector of their high parts) and the last coefficient in two bytes;
nothing else changes; an offset above 4064 raises BufRange. -/
def Obligations.GfEncodeStoresThePackedCoefficients : Prop :=
  ∀ (s : State) (fa : FReg) (off : Off12) (a : Cells), memoryWf s.buf = true → getF s fa = some a →
    (off.toNat ≤ 4064 → ∃ (s' : State) (out : Nat → Byte), exec (.gfEncode fa off) s = .next s' ∧
      StoreResult s s' off.toNat 32 (fun i => some (out i)) ∧
      (∀ g, g < 6 → ∀ c0 c1 c2, (gfCoeffs (fval a))[3 * g]? = some c0 →
        (gfCoeffs (fval a))[3 * g + 1]? = some c1 → (gfCoeffs (fval a))[3 * g + 2]? = some c2 →
        leValue 5 (fun i => out (5 * g + i)) = c0 % 2048 + c1 % 2048 * 2 ^ 11 + c2 % 2048 * 2 ^ 22
          + (c0 / 2048 + 5 * (c1 / 2048) + 25 * (c2 / 2048)) * 2 ^ 33) ∧
      leValue 2 (fun i => out (30 + i)) = (fval a)[(18 : Fin 19)].val) ∧
    (4064 < off.toNat → ∃ s', exec (.gfEncode fa off) s = .next s' ∧ RaiseResult s s' 2)

/-- GF_DECODE accepts exactly the 32-byte strings that GF_ENCODE writes, bits 7:6 of byte 31 aside, and
delivers 1 and the element; otherwise W[wd] is 0 and F[fd] indeterminate, with no engine error; an
offset above 4064 raises BufRange (R151, R153, R154). -/
def Obligations.GfDecodeAcceptsExactlyTheEncodings : Prop :=
  ∀ (s : State) (wd : WReg) (fd : FReg) (off : Off12) (b : Nat → Byte),
    (off.toNat ≤ 4064 → holdsBytes s off.toNat 32 b → (∀ x : Gf, isFieldEncoding x b → ∃ c : Cells,
      exec (.gfDecode wd fd off) s = .next { s with
        regsW := s.regsW.set wd ⟨1, true⟩, regsF := s.regsF.set fd ⟨c, true⟩ } ∧
      cellsStored c = true ∧ fval c = x) ∧
      ((¬ ∃ x : Gf, isFieldEncoding x b) → ∃ s', exec (.gfDecode wd fd off) s = .next s' ∧
        LosesF { s with regsW := s.regsW.set wd ⟨0, true⟩ } s' fd)) ∧
    (4064 < off.toNat → ∃ s', exec (.gfDecode wd fd off) s = .next s' ∧ RaiseResult s s' 2)

/-- GF_MAPTOBASE: coefficient k is the k-th base-9767 digit of the 384-bit little-endian integer (R155,
with the byte order of the spec's decision D12); an offset above 4048 raises BufRange. -/
def Obligations.GfMaptobaseDeliversTheBasePDigits : Prop :=
  ∀ (s : State) (fd : FReg) (off : Off12) (b : Nat → Byte),
    (off.toNat ≤ 4048 → holdsBytes s off.toNat 48 b → ∃ c : Cells,
      exec (.gfMaptobase fd off) s = .next { s with regsF := s.regsF.set fd ⟨c, true⟩ } ∧
      cellsStored c = true ∧
      ∀ k : Fin 19, (fval c)[k].val = leValue 48 b / 9767 ^ k.val % 9767) ∧
    (4048 < off.toNat → ∃ s', exec (.gfMaptobase fd off) s = .next s' ∧ RaiseResult s s' 2)

/-! ### Scalars -/

/-- R171: SC_DECODE_STRICT, any length: 1 and the scalar when the little-endian integer is below n,
otherwise 0 and an indeterminate scalar with no engine error; off + length above 4096 raises
BufRange. -/
def Obligations.ScDecodeStrictAcceptsIntegersBelowTheOrder : Prop :=
  ∀ (s : State) (wd : WReg) (sd : SReg) (wlen : WReg) (off : Off12) (len : Word) (b : Nat → Byte),
    getW s wlen = some len →
    (off.toNat + len.toNat ≤ 4096 → holdsBytes s off.toNat len.toNat b →
      (∀ h : leValue len.toNat b < n, exec (.scDecodeStrict wd sd wlen off) s = .next { s with
        regsW := s.regsW.set wd ⟨1, true⟩, regsS := s.regsS.set sd ⟨⟨leValue len.toNat b, h⟩, true⟩ }) ∧
      (n ≤ leValue len.toNat b → ∃ s', exec (.scDecodeStrict wd sd wlen off) s = .next s' ∧
        LosesS { s with regsW := s.regsW.set wd ⟨0, true⟩ } s' sd)) ∧
    (4096 < off.toNat + len.toNat →
      ∃ s', exec (.scDecodeStrict wd sd wlen off) s = .next s' ∧ RaiseResult s s' 2)

/-- R172: SC_DECODE_REDUCE, any length: the little-endian integer modulo n; off + length above 4096
raises BufRange. -/
def Obligations.ScDecodeReduceReducesModuloTheOrder : Prop :=
  ∀ (s : State) (sd : SReg) (wlen : WReg) (off : Off12) (len : Word) (b : Nat → Byte),
    getW s wlen = some len →
    (off.toNat + len.toNat ≤ 4096 → holdsBytes s off.toNat len.toNat b → ∃ r : Scalar,
      exec (.scDecodeReduce sd wlen off) s = .next { s with regsS := s.regsS.set sd ⟨r, true⟩ } ∧
      r.val = leValue len.toNat b % n) ∧
    (4096 < off.toNat + len.toNat →
      ∃ s', exec (.scDecodeReduce sd wlen off) s = .next s' ∧ RaiseResult s s' 2)

/-- R173: SC_ENCODE stores the representative in [0, n) as 32 little-endian bytes, the top four bits of
the last being 0; an offset above 4064 raises BufRange. -/
def Obligations.ScEncodeStoresTheRepresentative : Prop :=
  ∀ (s : State) (sa : SReg) (off : Off12) (a : Scalar), memoryWf s.buf = true → getS s sa = some a →
    (off.toNat ≤ 4064 → ∃ (s' : State) (out : Nat → Byte), exec (.scEncode sa off) s = .next s' ∧
      StoreResult s s' off.toNat 32 (fun i => some (out i)) ∧ leValue 32 out = a.val ∧
      (out 31).toNat < 16) ∧
    (4064 < off.toNat → ∃ s', exec (.scEncode sa off) s = .next s' ∧ RaiseResult s s' 2)

/-- R174 to R177: SC_ADD, SC_SUB, SC_NEG and SC_MUL are the operations of Z/n. -/
def Obligations.ScArithmeticIsModuloTheOrder : Prop :=
  ∀ (s : State) (sd sa sb : SReg) (a b : Scalar), getS s sa = some a → getS s sb = some b →
    ∃ x y z u : Scalar,
      exec (.scAdd sd sa sb) s = .next { s with regsS := s.regsS.set sd ⟨x, true⟩ } ∧
      exec (.scSub sd sa sb) s = .next { s with regsS := s.regsS.set sd ⟨y, true⟩ } ∧
      exec (.scNeg sd sa) s = .next { s with regsS := s.regsS.set sd ⟨z, true⟩ } ∧
      exec (.scMul sd sa sb) s = .next { s with regsS := s.regsS.set sd ⟨u, true⟩ } ∧
      x.val = (a.val + b.val) % n ∧ (y.val + b.val) % n = a.val ∧ (z.val + a.val) % n = 0 ∧
      u.val = a.val * b.val % n

/-- R178, R179: SC_ISZERO and SC_EQ deliver 1 for true and 0 for false. -/
def Obligations.ScPredicatesCompareResidues : Prop :=
  ∀ (s : State) (wd : WReg) (sa sb : SReg) (a b : Scalar), getS s sa = some a → getS s sb = some b →
    exec (.scIszero wd sa) s = .next { s with
      regsW := s.regsW.set wd ⟨if a.val = 0 then 1 else 0, true⟩ } ∧
    exec (.scEq wd sa sb) s = .next { s with
      regsW := s.regsW.set wd ⟨if a.val = b.val then 1 else 0, true⟩ }

/-- R180, R181: SC_CONDCOPY copies for the control word 1, changes nothing for 0 (an indeterminate
S[sd] stays so), and leaves S[sd] indeterminate, with no error, for any other; SC_NORMALIZE keeps the
residue. -/
def Obligations.ScCondcopyFollowsTheControlWord : Prop :=
  ∀ (s : State) (sd sa : SReg) (wb : WReg) (a : Scalar) (ctl : Word), getS s sa = some a →
    getW s wb = some ctl →
    (ctl = 1 → exec (.scCondcopy sd sa wb) s = .next { s with
      regsS := s.regsS.set sd ⟨a, true⟩ }) ∧
    (ctl = 0 → exec (.scCondcopy sd sa wb) s = .next s) ∧
    (ctl ≠ 0 → ctl ≠ 1 → ∃ s', exec (.scCondcopy sd sa wb) s = .next s' ∧ LosesS s s' sd) ∧
    exec (.scNormalize sd sa) s = .next { s with regsS := s.regsS.set sd ⟨a, true⟩ }

/-- SC_ENCODE followed by SC_DECODE_STRICT of the same 32 bytes gives 1 and the same scalar (R184, and
the source's round trip of R181). -/
def Obligations.ScalarEncodingRoundTrips : Prop :=
  ∀ (s : State) (wd wlen : WReg) (sa sd : SReg) (off : Off12) (a : Scalar), getS s sa = some a →
    getW s wlen = some 32 → off.toNat ≤ 4064 →
    ∃ s', exec (.scEncode sa off) s = .next s' ∧
      exec (.scDecodeStrict wd sd wlen off) s' = .next { s' with
        regsW := s'.regsW.set wd ⟨1, true⟩, regsS := s'.regsS.set sd ⟨a, true⟩ }

/-- SC_REDUCE_BASIS_VARTIME stores some pair with c1*b = c0 modulo n, not (0, 0), of squared norm below
2^253, each as sixteen little-endian bytes in two's complement, c0 first; an offset above 4064 raises
BufRange (R182). Which admissible pair it is stays free (log 14). -/
def Obligations.ScReduceBasisStoresAnAdmissiblePair : Prop :=
  ∀ (s : State) (sa : SReg) (off : Off12) (b : Scalar), memoryWf s.buf = true → getS s sa = some b →
    (off.toNat ≤ 4064 → ∃ (s' : State) (out : Nat → Byte) (c0 c1 : Int),
      exec (.scReduceBasisVartime sa off) s = .next s' ∧
      StoreResult s s' off.toNat 32 (fun i => some (out i)) ∧
      (n : Int) ∣ c1 * b.val - c0 ∧ (c0 ≠ 0 ∨ c1 ≠ 0) ∧ c0 * c0 + c1 * c1 < 2 ^ 253 ∧
      (leValue 16 out : Int) = c0 % 2 ^ 128 ∧
      (leValue 16 (fun i => out (16 + i)) : Int) = c1 % 2 ^ 128) ∧
    (4064 < off.toNat →
      ∃ s', exec (.scReduceBasisVartime sa off) s = .next s' ∧ RaiseResult s s' 2)

/-! ### Points -/

/-- P_ADD follows the addition law on points of the curve: the other operand for a Neutral one, the chord
through distinct abscissas, the tangent for equal points, Neutral for opposite ones; the sum is on the
curve (R203, R205). Slopes are given by the equation they solve. -/
def Obligations.PAddFollowsTheAdditionLaw : Prop :=
  ∀ (s : State) (pd pa pb : PReg) (a b : Point), getP s pa = some a → getP s pb = some b →
    onCurve a = true → onCurve b = true → ∃ r : Point,
      exec (.pAdd pd pa pb) s = .next { s with regsP := s.regsP.set pd ⟨r, true⟩ } ∧
      onCurve r = true ∧ (a = .neutral → r = b) ∧ (b = .neutral → r = a) ∧
      ∀ x1 y1 x2 y2, a = .affine x1 y1 → b = .affine x2 y2 →
        (x1 ≠ x2 → ∃ l x3, gfMul l (gfSub x2 x1) = gfSub y2 y1 ∧
          x3 = gfSub (gfSub (gfSqr l) x1) x2 ∧
          r = .affine x3 (gfSub (gfMul l (gfSub x1 x3)) y1)) ∧
        (x1 = x2 → y1 = y2 → ∃ l x3, gfMul l (gfMul (gfOf [2]) y1) =
            gfSub (gfMul (gfOf [3]) (gfSqr x1)) (gfOf [3]) ∧
          x3 = gfSub (gfSub (gfSqr l) x1) x2 ∧
          r = .affine x3 (gfSub (gfMul l (gfSub x1 x3)) y1)) ∧
        (x1 = x2 → y1 ≠ y2 → y2 = gfNeg y1 ∧ r = .neutral)

/-- The points of the curve are an abelian group under the addition law, with identity Neutral and
inverse (x, -y), and the curve is closed under both (R201, R203). -/
def Obligations.CurvePointsFormAnAbelianGroup : Prop :=
  ∀ a b c : Point, onCurve a = true → onCurve b = true → onCurve c = true →
    onCurve (pointAdd a b) = true ∧ onCurve (pointNeg a) = true ∧
    pointAdd a b = pointAdd b a ∧
    pointAdd (pointAdd a b) c = pointAdd a (pointAdd b c) ∧
    pointAdd a .neutral = a ∧ pointAdd a (pointNeg a) = .neutral

/-- R206, R222: P_NEG negates y and keeps Neutral; P_ISNEUTRAL delivers 1 for Neutral and 0 for an
affine point. -/
def Obligations.PNegAndIsneutral : Prop :=
  ∀ (s : State) (pd pa : PReg) (wd : WReg),
    (getP s pa = some .neutral →
      exec (.pNeg pd pa) s = .next { s with regsP := s.regsP.set pd ⟨.neutral, true⟩ } ∧
      exec (.pIsneutral wd pa) s = .next { s with regsW := s.regsW.set wd ⟨1, true⟩ }) ∧
    (∀ x y, getP s pa = some (.affine x y) →
      (∃ y', (∀ k : Fin 19, y'[k] = -y[k]) ∧
        exec (.pNeg pd pa) s = .next { s with regsP := s.regsP.set pd ⟨.affine x y', true⟩ }) ∧
      exec (.pIsneutral wd pa) s = .next { s with regsW := s.regsW.set wd ⟨0, true⟩ })

/-- P_MUL2K delivers 2^k times a point of the curve, as a sum of 2^k terms, for every k from 0 (a copy)
to 65535 (R207, R212). -/
def Obligations.PMul2kMultipliesByAPowerOfTwo : Prop :=
  ∀ (s : State) (pd pa : PReg) (k : Imm16) (a : Point), getP s pa = some a → onCurve a = true →
    exec (.pMul2k pd pa k) s = .next { s with
      regsP := s.regsP.set pd ⟨pointSum a (2 ^ k.toNat), true⟩ }

/-- P_MUL, P_MULGEN and P_MUL_MULGEN_ADD deliver s*P, s*G and s1*P + s2*G for points of the curve, a
multiple being the sum of as many terms as the scalar's representative in [0, n) (R212 to R215). -/
def Obligations.ScalarMultiplicationIsRepeatedAddition : Prop :=
  ∀ (s : State) (pd pa : PReg) (sb sc : SReg) (a : Point) (b c : Scalar), getP s pa = some a →
    getS s sb = some b → getS s sc = some c → onCurve a = true →
    exec (.pMul pd pa sb) s = .next { s with
      regsP := s.regsP.set pd ⟨pointSum a b.val, true⟩ } ∧
    exec (.pMulgen pd sb) s = .next { s with
      regsP := s.regsP.set pd ⟨pointSum generator b.val, true⟩ } ∧
    exec (.pMulMulgenAdd pd pa sb sc) s = .next { s with
      regsP := s.regsP.set pd
        ⟨pointAdd (pointSum a b.val) (pointSum generator c.val), true⟩ }

/-- P_VERIFY_VARTIME delivers 1 when s1*P + s2*G is Q, else 0 (R216). -/
def Obligations.PVerifyTestsTheLinearCombination : Prop :=
  ∀ (s : State) (wd : WReg) (pa pe : PReg) (sb sc : SReg) (a e : Point) (b c : Scalar),
    getP s pa = some a → getS s sb = some b → getS s sc = some c → getP s pe = some e →
    onCurve a = true →
    exec (.pVerifyVartime wd pa sb sc pe) s = .next { s with
      regsW := s.regsW.set wd
        ⟨if pointAdd (pointSum a b.val) (pointSum generator c.val) = e then 1 else 0, true⟩ }

/-- P_ENCODE stores the field encoding of x with the sign of y in bit 6 of byte 31, P_ENCODE_X the field
encoding of x alone; of Neutral both store thirty-one bytes 0xFF and then 0x3F, a byte that is a
parameter of the model (log 13); an offset above 4064 raises BufRange (R218, R221). -/
def Obligations.PEncodeStoresXAndTheSignOfY : Prop :=
  ∀ (s : State) (pa : PReg) (off : Off12) (a : Point), memoryWf s.buf = true → getP s pa = some a →
    (off.toNat ≤ 4064 → ∃ (s' s'' : State) (out outX : Nat → Byte),
      exec (.pEncode pa off) s = .next s' ∧
      StoreResult s s' off.toNat 32 (fun i => some (out i)) ∧
      exec (.pEncodeX pa off) s = .next s'' ∧
      StoreResult s s'' off.toNat 32 (fun i => some (outX i)) ∧
      (a = .neutral → ∀ i, i < 32 →
        out i = (if i = 31 then 0x3F else 0xFF) ∧ outX i = (if i = 31 then 0x3F else 0xFF)) ∧
      ∀ x y, a = .affine x y → isFieldEncoding x out ∧ isFieldEncoding x outX ∧
        (outX 31).toNat < 64 ∧ (out 31).toNat < 128 ∧ (out 31).getLsbD 6 = gfIsNeg y) ∧
    (4064 < off.toNat → (∃ s', exec (.pEncode pa off) s = .next s' ∧ RaiseResult s s' 2) ∧
      ∃ s', exec (.pEncodeX pa off) s = .next s' ∧ RaiseResult s s' 2)

/-- P_DECODE accepts exactly the strings P_ENCODE writes for affine points of the curve: bit 7 of byte 31
clear, the rest a field encoding of x, and a y on the curve with the sign of bit 6; it then delivers 1
and that point, and otherwise 0 and Neutral, with no engine error; an offset above 4064 raises
BufRange (R219, R220). -/
def Obligations.PDecodeInvertsPEncode : Prop :=
  ∀ (s : State) (wd : WReg) (pd : PReg) (off : Off12) (b : Nat → Byte),
    (off.toNat ≤ 4064 → holdsBytes s off.toNat 32 b →
      (∀ x y, onCurve (.affine x y) = true → isFieldEncoding x b → (b 31).getLsbD 7 = false →
        gfIsNeg y = (b 31).getLsbD 6 → exec (.pDecode wd pd off) s = .next { s with
          regsW := s.regsW.set wd ⟨1, true⟩, regsP := s.regsP.set pd ⟨.affine x y, true⟩ }) ∧
      ((¬ ∃ x y, onCurve (.affine x y) = true ∧ isFieldEncoding x b ∧ (b 31).getLsbD 7 = false ∧
          gfIsNeg y = (b 31).getLsbD 6) → exec (.pDecode wd pd off) s = .next { s with
          regsW := s.regsW.set wd ⟨0, true⟩, regsP := s.regsP.set pd ⟨.neutral, true⟩ })) ∧
    (4064 < off.toNat → ∃ s', exec (.pDecode wd pd off) s = .next s' ∧ RaiseResult s s' 2)

/-! ### STATUS during a command -/

/-- The host reads STATUS at any time: a read made while a command is executing delivers BUSY = 1, one
made before the command's effect ERR and CAUSE as they were, one made after it ERR and CAUSE as they
are once the command has ended, and after the command BUSY is 0. In the error state nothing executes:
STATUS, as the first error left it, is what a read delivers (R31, R305, R320). How many reads are
made is the host's choice, and where they stand (hostReads) is the model's own (logs 9 and 11). -/
def Obligations.StatusReadsDuringACommandSeeBusy : Prop :=
  ∀ (s s' : State) (w : BitVec 32) (early late : Nat) (rest : List HostTxn),
    s.pending = .issue w early late :: rest → step s = .next s' →
    (inError s = true →
      s'.hostReads = List.replicate (early + late) (.status s.status) ++ s.hostReads) ∧
    (inError s = false → statusBusy s'.status = false ∧ ∃ v v' : BitVec 32,
      s'.hostReads = List.replicate late (.status v') ++
        (List.replicate early (.status v) ++ s.hostReads) ∧
      statusBusy v = true ∧ statusErr v = false ∧ statusCause v = statusCause s.status ∧
      statusBusy v' = true ∧ statusErr v' = statusErr s'.status ∧
      statusCause v' = statusCause s'.status)
end

