-- ==== Sys2Proof/Laws/GaloisField.lean ====
section
/-! SUPPORT. The element type Gf is the field GF(9767^19) = GF(9767)[z]/(z^19 - 2) (spec/00_scope.md R7,
R13): the map toK into Mathlib's quotient ring is a bijection that carries each operation of
Machine/Field.lean to the field's own, and the quotient ring is a field of q elements. -/

namespace Sys2Proof.Machine

open Polynomial

theorem prime_p : Nat.Prime 9767 := by norm_num

/-- z^19 - 2 over GF(9767) (R7). -/
noncomputable abbrev modulus : (ZMod 9767)[X] := X ^ 19 - C 2

/-- GF(9767)[z]/(z^19 - 2). -/
abbrev K := AdjoinRoot modulus

/-- The class of z. -/
noncomputable def zK : K := AdjoinRoot.root modulus

/-- A residue as an element of K. -/
noncomputable def ofFp (c : Fp) : K := ((c.val : ℕ) : K)

/-- The element of K with the given coefficients. -/
noncomputable def toK (a : Gf) : K := ∑ k : Fin 19, ofFp a[k] * zK ^ k.val

theorem modulus_irreducible : Irreducible modulus := by
  have : Fact (Nat.Prime 9767) := ⟨prime_p⟩
  refine X_pow_sub_C_irreducible_of_prime (by norm_num) fun b hb => ?_
  have hb0 : b ≠ 0 := by
    rintro rfl
    rw [zero_pow (by norm_num)] at hb
    have h2 : ((2 : ℕ) : ZMod 9767) ≠ 0 := by rw [Ne, ZMod.natCast_eq_zero_iff]; decide
    exact h2 (by exact_mod_cast hb.symm)
  have h := ZMod.pow_card_sub_one_eq_one hb0
  have h2 : (2 : ZMod 9767) ^ 514 = 1 := by rw [← hb, ← pow_mul]; exact h
  have h3 : ((2 ^ 514 : ℕ) : ZMod 9767) = ((1 : ℕ) : ZMod 9767) := by
    rw [Nat.cast_pow, Nat.cast_one]
    exact h2
  rw [ZMod.natCast_eq_natCast_iff] at h3
  exact absurd h3 (by decide +kernel)

theorem zK_pow_19 : zK ^ 19 = 2 := by
  have h : AdjoinRoot.mk modulus modulus = 0 := AdjoinRoot.mk_self
  simp only [map_sub, map_pow, AdjoinRoot.mk_X, AdjoinRoot.mk_C] at h
  exact (sub_eq_zero.1 h).trans (map_ofNat _ 2)

theorem p_eq_zero : (9767 : K) = 0 := by
  have h : ((9767 : ℕ) : ZMod 9767) = 0 := ZMod.natCast_self 9767
  have h' := congrArg (AdjoinRoot.of modulus) h
  rw [map_natCast, map_zero] at h'
  exact_mod_cast h'

/-- A natural number and its residue are the same in K. -/
theorem cast_mod (m : ℕ) : ((m % 9767 : ℕ) : K) = (m : K) := by
  conv_rhs => rw [← Nat.mod_add_div m 9767]
  push_cast
  rw [p_eq_zero]
  ring

theorem ofFp_ofNat (m : ℕ) : ofFp (Fin.ofNat 9767 m) = (m : K) := cast_mod m

theorem ofFp_add (a b : Fp) : ofFp (a + b) = ofFp a + ofFp b := by
  simp only [ofFp, Fin.val_add, cast_mod]
  push_cast
  rfl

theorem ofFp_neg (a : Fp) : ofFp (-a) = -ofFp a := by
  simp only [ofFp, Fin.val_neg']
  rw [cast_mod, Nat.cast_sub a.isLt.le]
  push_cast
  rw [p_eq_zero]
  ring

theorem ofFp_sub (a b : Fp) : ofFp (a - b) = ofFp a - ofFp b := by
  rw [sub_eq_add_neg, ofFp_add, ofFp_neg, sub_eq_add_neg]

theorem ofFp_mul (a b : Fp) : ofFp (a * b) = ofFp a * ofFp b := by
  simp only [ofFp, Fin.val_mul, cast_mod]
  push_cast
  rfl

@[simp] theorem ofFp_zero : ofFp 0 = 0 := by simp [ofFp]

@[simp] theorem ofFp_one : ofFp 1 = 1 := by simp [ofFp]

/-! ### The ring operations -/

theorem toK_ofFn (f : Fin 19 → Fp) :
    toK (Vector.ofFn f) = ∑ k : Fin 19, ofFp (f k) * zK ^ k.val := by
  simp [toK]

theorem toK_add (a b : Gf) : toK (gfAdd a b) = toK a + toK b := by
  simp [gfAdd, toK, ofFp_add, add_mul, Finset.sum_add_distrib]

theorem toK_sub (a b : Gf) : toK (gfSub a b) = toK a - toK b := by
  simp [gfSub, toK, ofFp_sub, sub_mul, Finset.sum_sub_distrib]

theorem toK_neg (a : Gf) : toK (gfNeg a) = -toK a := by
  simp [gfNeg, toK, ofFp_neg]

theorem toK_zero : toK gfZero = 0 := by simp [gfZero, toK]

theorem gfCoeffs_length (a : Gf) : (gfCoeffs a).length = 19 := by simp [gfCoeffs]

theorem gfCoeffs_getElem (a : Gf) (k : Nat) (h : k < (gfCoeffs a).length) :
    (gfCoeffs a)[k] = (a[k]'(by simpa [gfCoeffs_length] using h)).val := by
  simp [gfCoeffs]

theorem toK_gfOf (l : List Nat) : toK (gfOf l) = ∑ k : Fin 19, (l.getD k 0 : K) * zK ^ k.val := by
  simp only [gfOf, toK_ofFn, ofFp_ofNat]

theorem toK_one : toK gfOne = 1 := by
  rw [gfOne, toK_gfOf]
  simp [Fin.sum_univ_succ]

/-- A dot product as a sum. -/
theorem dot_eq_sum (as bs : List Nat) (m : Nat) (ha : as.length = m) (hb : bs.length = m) :
    dot as bs = ∑ i : Fin m, as[i]'(by omega) * bs[i]'(by omega) := by
  induction as generalizing bs m with
  | nil => simp only [List.length_nil] at ha; subst ha; simp [dot]
  | cons a as ih =>
    cases bs with
    | nil => simp at ha hb; omega
    | cons b bs =>
      cases m with
      | zero => simp at ha
      | succ m =>
        simp only [List.length_cons, Nat.add_right_cancel_iff] at ha hb
        rw [dot, ih bs m ha hb, Fin.sum_univ_succ]
        simp

theorem foldedRow_length (b : Gf) (k : Nat) (hk : k < 19) : (foldedRow b k).length = 19 := by
  simp [foldedRow, gfCoeffs_length]
  omega

/-- The entries of the row (R125): b_(k-i) up to k, and twice b_(k+19-i) above it. -/
theorem foldedRow_getElem (b : Gf) (k i : Nat) (hk : k < 19) (hi : i < 19) :
    (foldedRow b k)[i]'(by rw [foldedRow_length b k hk]; exact hi) =
      if h : i ≤ k then (b[k - i]'(by omega)).val else 2 * (b[k + 19 - i]'(by omega)).val := by
  have hl := gfCoeffs_length b
  simp only [foldedRow, List.getElem_take, List.getElem_drop, List.getElem_append,
    List.length_reverse, hl, List.getElem_map, List.getElem_reverse, gfCoeffs_getElem]
  split
  · rename_i h
    have : i ≤ k := by omega
    simp only [this, dite_true]
    congr 2
    omega
  · rename_i h
    have : ¬ i ≤ k := by omega
    simp only [this, dite_false]
    congr 3
    omega

/-- Coefficient k of a product is the sum of R125, modulo 9767. -/
theorem gfMul_coeff (a b : Gf) (k : Fin 19) :
    (gfMul a b)[k].val = (∑ i : Fin 19, a[i].val *
      if i ≤ k then b[k - i].val else 2 * b[k - i].val) % 9767 := by
  have h0 : (gfMul a b)[k].val = dot (gfCoeffs a) (foldedRow b k) % 9767 := by simp [gfMul]
  rw [h0, dot_eq_sum _ _ 19 (gfCoeffs_length a) (foldedRow_length b k k.isLt)]
  refine congrArg (· % 9767) (Finset.sum_congr rfl fun i _ => ?_)
  have h1 := gfCoeffs_getElem a i (by rw [gfCoeffs_length]; exact i.isLt)
  have h2 := foldedRow_getElem b k i k.isLt i.isLt
  simp only [Fin.getElem_fin] at h1 h2 ⊢
  rw [h1, h2]
  by_cases h : i.val ≤ k.val
  · have hsub : (k - i).val = k.val - i.val := Fin.sub_val_of_le h
    rw [dif_pos h, if_pos (Fin.le_def.2 h)]
    simp only [hsub]
  · have hsub : (k - i).val = k.val + 19 - i.val := by
      rw [Fin.val_sub]; omega
    rw [dif_neg h, if_neg (fun h' => h (Fin.le_def.1 h'))]
    simp only [hsub]

theorem toK_mul (a b : Gf) : toK (gfMul a b) = toK a * toK b := by
  have hrow : ∀ i : Fin 19, ∑ k : Fin 19,
      ((if i ≤ k then b[k - i].val else 2 * b[k - i].val : ℕ) : K) * zK ^ k.val =
        zK ^ i.val * toK b := by
    intro i
    rw [← Equiv.sum_comp (Equiv.addRight i), toK, Finset.mul_sum]
    refine Finset.sum_congr rfl fun j _ => ?_
    have hi := i.isLt
    have hj := j.isLt
    simp only [Equiv.coe_addRight, add_sub_cancel_right]
    by_cases h : j.val + i.val < 19
    · have hv : (j + i).val = j.val + i.val := by rw [Fin.val_add]; omega
      have hle : i ≤ j + i := by rw [Fin.le_def, hv]; omega
      rw [if_pos hle, hv, pow_add, ofFp]
      ring
    · have hv : (j + i).val = j.val + i.val - 19 := by rw [Fin.val_add]; omega
      have hle : ¬ i ≤ j + i := by rw [Fin.le_def, hv]; omega
      rw [if_neg hle, hv, ofFp]
      have hz : zK ^ j.val * zK ^ i.val = 2 * zK ^ (j.val + i.val - 19) := by
        rw [← pow_add, ← zK_pow_19, ← pow_add]
        congr 1
        omega
      push_cast
      linear_combination (-(b[j].val : K)) * hz
  have hl : toK (gfMul a b) = ∑ k : Fin 19, ∑ i : Fin 19, (a[i].val : K) *
      (((if i ≤ k then b[k - i].val else 2 * b[k - i].val : ℕ) : K) * zK ^ k.val) := by
    rw [toK]
    refine Finset.sum_congr rfl fun k _ => ?_
    rw [ofFp, gfMul_coeff, cast_mod, Nat.cast_sum, Finset.sum_mul]
    refine Finset.sum_congr rfl fun i _ => ?_
    push_cast
    ring
  rw [hl, Finset.sum_comm]
  simp only [← Finset.mul_sum, hrow]
  rw [show toK a = ∑ i : Fin 19, ofFp a[i] * zK ^ i.val from rfl, Finset.sum_mul]
  refine Finset.sum_congr rfl fun i _ => ?_
  rw [ofFp]
  ring

theorem toK_sqr (a : Gf) : toK (gfSqr a) = toK a ^ 2 := by rw [gfSqr, toK_mul, sq]

theorem toK_pow (a : Gf) (fuel e : Nat) (h : e < 2 ^ fuel) :
    toK (gfPow a fuel e) = toK a ^ e := by
  induction fuel generalizing e with
  | zero =>
    have : e = 0 := by simpa using h
    subst this
    simp [gfPow, toK_one]
  | succ fuel ih =>
    have hh : e / 2 < 2 ^ fuel := by rw [pow_succ] at h; omega
    simp only [gfPow]
    split
    · subst_vars; simp [toK_one]
    · have he : e = e / 2 + e / 2 + e % 2 := by omega
      split
      · rename_i h1
        rw [toK_mul, toK_sqr, ih _ hh]
        conv_rhs => rw [he, h1]
        ring
      · rename_i h1
        have h0 : e % 2 = 0 := by omega
        rw [toK_sqr, ih _ hh]
        conv_rhs => rw [he, h0]
        ring

end Sys2Proof.Machine
end

