-- ==== Sys2Proof/Laws/FieldLaws.lean ====
section
/-! SUPPORT. toK is a bijection onto a field of q elements, and what inversion, the Frobenius map and the
powers of Machine/Field.lean are in it (spec/00_scope.md R8, spec/41_field_arith.md R127 to R138). -/

namespace Sys2Proof.Machine

open Polynomial

theorem K_isField : IsField K := by
  have : Fact (Nat.Prime 9767) := ⟨prime_p⟩
  have : Fact (Irreducible modulus) := ⟨modulus_irreducible⟩
  exact Field.toIsField (AdjoinRoot modulus)

/-- The field structure of K, over the ring structure that is already there. -/
@[reducible] noncomputable def fieldK : Field K := K_isField.toField

theorem modulus_monic : modulus.Monic := monic_X_pow_sub_C 2 (by norm_num)

theorem modulus_natDegree : modulus.natDegree = 19 := by
  have : Fact (Nat.Prime 9767) := ⟨prime_p⟩
  exact natDegree_X_pow_sub_C

theorem modulus_degree : modulus.degree = 19 := by
  have : Fact (Nat.Prime 9767) := ⟨prime_p⟩
  exact degree_X_pow_sub_C (by norm_num) _

/-- The polynomial with the coefficients of an element. -/
noncomputable def polyOf (a : Gf) : (ZMod 9767)[X] :=
  ∑ k : Fin 19, C ((a[k].val : ℕ) : ZMod 9767) * X ^ k.val

theorem mk_polyOf (a : Gf) : AdjoinRoot.mk modulus (polyOf a) = toK a := by
  simp only [polyOf, toK, map_sum, map_mul, map_pow, AdjoinRoot.mk_X, map_natCast]
  rfl

theorem polyOf_degree (a : Gf) : (polyOf a).degree < 19 := by
  refine (degree_sum_le _ _).trans_lt ?_
  rw [Finset.sup_lt_iff (by exact_mod_cast bot_lt_iff_ne_bot.2 (by decide))]
  intro k _
  refine (degree_C_mul_X_pow_le _ _).trans_lt ?_
  exact_mod_cast k.isLt

theorem polyOf_coeff (a : Gf) (k : Fin 19) : (polyOf a).coeff k.val = (a[k].val : ZMod 9767) := by
  simp only [polyOf, finsetSum_coeff, coeff_C_mul, coeff_X_pow]
  rw [Finset.sum_eq_single k]
  · simp
  · intro j _ hj
    have : k.val ≠ j.val := fun e => hj (Fin.ext e.symm)
    simp [this]
  · simp

theorem toK_injective : Function.Injective toK := by
  have : Fact (Nat.Prime 9767) := ⟨prime_p⟩
  intro a b h
  rw [← mk_polyOf, ← mk_polyOf, ← sub_eq_zero, ← map_sub, AdjoinRoot.mk_eq_zero] at h
  have hd : (polyOf a - polyOf b).degree < modulus.degree := by
    rw [modulus_degree]
    exact (degree_sub_le _ _).trans_lt (max_lt (polyOf_degree a) (polyOf_degree b))
  have h0 := eq_zero_of_dvd_of_degree_lt h hd
  refine Vector.ext fun k hk => ?_
  have hc := congrArg (fun p => p.coeff k) (sub_eq_zero.1 h0)
  rw [polyOf_coeff a ⟨k, hk⟩, polyOf_coeff b ⟨k, hk⟩, ZMod.natCast_eq_natCast_iff] at hc
  have ha := (a[k]).isLt
  have hb := (b[k]).isLt
  apply Fin.ext
  have := hc
  unfold Nat.ModEq at this
  simp only [Fin.getElem_fin] at this
  rwa [Nat.mod_eq_of_lt ha, Nat.mod_eq_of_lt hb] at this

theorem toK_surjective : Function.Surjective toK := by
  have : Fact (Nat.Prime 9767) := ⟨prime_p⟩
  intro x
  obtain ⟨g, rfl⟩ := AdjoinRoot.mk_surjective x
  let r := g %ₘ modulus
  have hr : r.degree < 19 := by
    rw [← modulus_degree]
    exact degree_modByMonic_lt g modulus_monic
  have hv (k : Nat) : ((r.coeff k).val : ZMod 9767) = r.coeff k := ZMod.natCast_zmod_val _
  refine ⟨Vector.ofFn fun k => ⟨(r.coeff k.val).val, ZMod.val_lt _⟩, ?_⟩
  rw [← mk_polyOf, ← sub_eq_zero, ← map_sub, AdjoinRoot.mk_eq_zero]
  have hp : polyOf (Vector.ofFn fun k => ⟨(r.coeff k.val).val, ZMod.val_lt _⟩) = r := by
    ext k
    by_cases hk : k < 19
    · rw [polyOf_coeff _ ⟨k, hk⟩]
      simp [hv]
    · have hk' : (19 : WithBot ℕ) ≤ k := by exact_mod_cast not_lt.1 hk
      rw [coeff_eq_zero_of_degree_lt ((polyOf_degree _).trans_le hk'),
        coeff_eq_zero_of_degree_lt (hr.trans_le hk')]
  rw [hp]
  exact (dvd_sub_comm).1 (sub_dvd_eval_sub' g)
where
  sub_dvd_eval_sub' (g : (ZMod 9767)[X]) : modulus ∣ g - g %ₘ modulus :=
    ⟨g /ₘ modulus, by rw [sub_eq_iff_eq_add, add_comm]; exact (modByMonic_add_div g modulus).symm⟩

theorem toK_inj {a b : Gf} : toK a = toK b ↔ a = b := toK_injective.eq_iff

theorem toK_eq_zero {a : Gf} : toK a = 0 ↔ a = gfZero := by rw [← toK_zero, toK_inj]

theorem card_K : Nat.card K = q := by
  have : Fact (Nat.Prime 9767) := ⟨prime_p⟩
  have hne : modulus ≠ 0 := modulus_monic.ne_zero
  have hb := AdjoinRoot.powerBasis hne
  have hf : Module.finrank (ZMod 9767) K = 19 := by
    rw [(AdjoinRoot.powerBasis hne).finrank, AdjoinRoot.powerBasis_dim, modulus_natDegree]
  have : Module.Finite (ZMod 9767) K := (AdjoinRoot.powerBasis hne).finite
  rw [Module.natCard_eq_pow_finrank (K := ZMod 9767), hf, Nat.card_zmod]

theorem K_mul_eq_zero {x y : K} : x * y = 0 ↔ x = 0 ∨ y = 0 := by
  let _ := fieldK
  exact mul_eq_zero

theorem K_one_ne_zero : (1 : K) ≠ 0 := by
  let _ := fieldK
  exact one_ne_zero

/-- Fermat's theorem in K. -/
theorem K_pow_card_sub_one {x : K} (h : x ≠ 0) : x ^ (q - 1) = 1 := by
  let _ := fieldK
  have hfin : Finite K := Nat.finite_of_card_ne_zero (by rw [card_K]; norm_num)
  let _ := Fintype.ofFinite K
  have := FiniteField.pow_card_sub_one_eq_one x h
  rwa [← Nat.card_eq_fintype_card, card_K] at this

theorem K_pow_card (x : K) : x ^ q = x := by
  by_cases h : x = 0
  · subst h; exact zero_pow (by norm_num)
  · have : x ^ q = x ^ (q - 1) * x := by rw [← pow_succ]; congr 1
    rw [this, K_pow_card_sub_one h, one_mul]

/-! ### The Frobenius map (R138) -/

theorem charP_K : CharP K 9767 := by
  let _ := fieldK
  exact (CharP.charP_iff_prime_eq_zero prime_p).2 (by exact_mod_cast p_eq_zero)

/-- Raising to the power 9767^j, as a ring homomorphism of K. -/
theorem exists_frobenius (j : Nat) : ∃ f : K →+* K, ∀ x, f x = x ^ 9767 ^ j := by
  have := charP_K
  have : Fact (Nat.Prime 9767) := ⟨prime_p⟩
  have : ExpChar K 9767 := ExpChar.prime prime_p
  exact ⟨iterateFrobenius K 9767 j, fun x => iterateFrobenius_def 9767 j x⟩

theorem natCast_pow_frobenius (m j : Nat) : (m : K) ^ 9767 ^ j = m := by
  obtain ⟨f, hf⟩ := exists_frobenius j
  rw [← hf, map_natCast]

theorem two_pow_514 : (2 : K) ^ 514 = (frobeniusC : K) := by
  have h : (2 : K) ^ 514 = ((2 ^ 514 : ℕ) : K) := by rw [Nat.cast_pow]; rfl
  rw [h, ← cast_mod, show 2 ^ 514 % 9767 = frobeniusC by decide +kernel]

theorem zK_pow_frobenius (j : Nat) : zK ^ 9767 ^ j = (frobeniusC : K) ^ j * zK := by
  induction j with
  | zero => simp
  | succ j ih =>
    have hz : zK ^ 9767 = (frobeniusC : K) * zK := by
      have h : zK ^ (19 * 514 + 1) = (frobeniusC : K) * zK := by
        rw [pow_add, pow_mul, zK_pow_19, two_pow_514, pow_one]
      exact h
    have hc : ((frobeniusC : K) ^ j) ^ 9767 = (frobeniusC : K) ^ j := by
      have := natCast_pow_frobenius (frobeniusC ^ j) 1
      rw [pow_one] at this
      exact_mod_cast this
    rw [pow_succ, pow_mul, ih, mul_pow, hc, hz, pow_succ]
    ring

theorem frobeniusC_pow_19 : (frobeniusC : K) ^ 19 = 1 := by
  have h := cast_mod (frobeniusC ^ 19)
  rw [show frobeniusC ^ 19 % 9767 = 1 by decide +kernel] at h
  exact_mod_cast h.symm

theorem toK_frobenius (j : Nat) (a : Gf) : toK (gfFrobenius j a) = toK a ^ 9767 ^ j := by
  obtain ⟨f, hf⟩ := exists_frobenius j
  have hz : f zK = (frobeniusC : K) ^ j * zK := by rw [hf, zK_pow_frobenius]
  rw [← hf, gfFrobenius, toK_ofFn, toK, map_sum]
  refine Finset.sum_congr rfl fun k _ => ?_
  have hp : (frobeniusC : K) ^ (j * k.val) = (frobeniusC : K) ^ (j * k.val % 19) := by
    conv_lhs => rw [← Nat.mod_add_div (j * k.val) 19, pow_add, pow_mul, frobeniusC_pow_19, one_pow, mul_one]
  rw [ofFp_mul, ofFp_ofNat, map_mul, map_pow, hz, mul_pow, ← pow_mul, hp, Nat.cast_pow]
  have : f (ofFp a[k]) = ofFp a[k] := by rw [ofFp, map_natCast]
  rw [this]
  ring

/-! ### Inversion (R127, R134) -/

/-- r - 1 = p + p^2 + ... + p^18 (R134). -/
def conjugateExponent : Nat := ∑ k ∈ Finset.range 18, 9767 ^ (k + 1)

theorem toK_conjugates (a : Gf) : toK (gfConjugates a) = toK a ^ conjugateExponent := by
  simp only [gfConjugates, toK_mul, toK_frobenius, ← pow_mul, ← pow_add]
  congr 1

/-- c^k is not 1 for 1 <= k <= 18 (R138). -/
theorem frobeniusC_ne_one : ∀ k : Fin 19, k ≠ 0 →
    (frobeniusC ^ (1 * k.val % 19) - 1) % 9767 ≠ 0 ∧ 1 ≤ frobeniusC ^ (1 * k.val % 19) := by
  decide +kernel

theorem eq_zero_of_mul_fixed {m c : Nat} (hm : m < 9767) (hc : (c - 1) % 9767 ≠ 0) (hc1 : 1 ≤ c)
    (h : m * c % 9767 = m) : m = 0 := by
  have hd : 9767 ∣ m * (c - 1) := by
    have h1 : m ≤ m * c := Nat.le_mul_of_pos_right _ hc1
    rw [Nat.mul_sub, Nat.mul_one]
    omega
  rcases (Nat.Prime.dvd_mul prime_p).1 hd with h2 | h2
  · exact Nat.eq_zero_of_dvd_of_lt h2 hm
  · exact absurd (Nat.mod_eq_zero_of_dvd h2) hc

/-- An element that the Frobenius map fixes is in the base field. -/
theorem coeff_of_fixed {m : Gf} (h : gfFrobenius 1 m = m) (k : Fin 19) (hk : k ≠ 0) : m[k] = 0 := by
  have h1 : (gfFrobenius 1 m)[k].val = m[k].val := by rw [h]
  have h2 : (gfFrobenius 1 m)[k].val = m[k].val * frobeniusC ^ (1 * k.val % 19) % 9767 := by
    simp [gfFrobenius, Fin.val_mul, Nat.mul_mod]
  obtain ⟨hc, hc1⟩ := frobeniusC_ne_one k hk
  exact Fin.ext (eq_zero_of_mul_fixed m[k].isLt hc hc1 (h2 ▸ h1))

theorem toK_of_fixed {m : Gf} (h : gfFrobenius 1 m = m) : toK m = ofFp m[0] := by
  have hs : ∑ i : Fin 18, ofFp m[i.succ] * zK ^ i.succ.val = 0 := by
    refine Finset.sum_eq_zero fun i _ => ?_
    rw [coeff_of_fixed h i.succ (Fin.succ_ne_zero i), ofFp_zero, zero_mul]
  rw [toK, Fin.sum_univ_succ, hs]
  simp

/-- The norm a^r, r = 1 + p + ... + p^18, is fixed by the Frobenius map: it is its coefficient 0. -/
theorem norm_in_base (a : Gf) :
    toK (gfMul a (gfConjugates a)) = ofFp (gfMul a (gfConjugates a))[0] := by
  apply toK_of_fixed
  apply toK_injective
  have hpow : toK (gfMul a (gfConjugates a)) = toK a ^ (1 + conjugateExponent) := by
    rw [toK_mul, toK_conjugates, pow_add, pow_one]
  rw [toK_frobenius, hpow, ← pow_mul, pow_one]
  by_cases h : toK a = 0
  · rw [h, zero_pow (by decide +kernel), zero_pow (by decide +kernel)]
  · rw [show (1 + conjugateExponent) * 9767 = (q - 1) + (1 + conjugateExponent) by decide +kernel,
      pow_add, K_pow_card_sub_one h, one_mul]

theorem powModP_eq (b fuel e : Nat) (h : e < 2 ^ fuel) : powModP b fuel e % 9767 = b ^ e % 9767 := by
  induction fuel generalizing e with
  | zero =>
    have : e = 0 := by simpa using h
    subst this
    simp [powModP]
  | succ fuel ih =>
    have hh : e / 2 < 2 ^ fuel := by rw [pow_succ] at h; omega
    have he : e = e / 2 + e / 2 + e % 2 := by omega
    have hsq : powModP b fuel (e / 2) * powModP b fuel (e / 2) % 9767 =
        b ^ (e / 2) * b ^ (e / 2) % 9767 := by
      rw [Nat.mul_mod, ih _ hh, ← Nat.mul_mod]
    simp only [powModP]
    split
    · subst_vars; simp
    · split
      · rename_i h1
        conv_rhs => rw [he, h1, pow_add, pow_add, pow_one, Nat.mul_mod, ← hsq]
        rw [Nat.mod_mod, Nat.mul_mod, Nat.mod_mod]
      · have h0 : e % 2 = 0 := by omega
        conv_rhs => rw [he, h0, pow_add, pow_add, pow_zero, mul_one, ← hsq]
        rw [Nat.mod_mod]

theorem toK_scale (c : Nat) (a : Gf) : toK (gfScale c a) = (c : K) * toK a := by
  rw [gfScale, toK_ofFn, toK, Finset.mul_sum]
  refine Finset.sum_congr rfl fun k _ => ?_
  rw [ofFp_ofNat, Nat.cast_mul, ofFp, mul_assoc]

/-- A product with the inverse is 1, and the inverse of 0 is 0 (R127). -/
theorem toK_mul_inv {a : Gf} (h : toK a ≠ 0) : toK a * toK (gfInv a) = 1 := by
  set m := gfMul a (gfConjugates a) with hm
  have hbase : toK m = ((m[0].val : ℕ) : K) := norm_in_base a
  have hprod : toK a * toK (gfConjugates a) = toK m := by rw [hm, toK_mul]
  have hm0 : toK m ≠ 0 := by
    rw [← hprod, toK_conjugates, ← pow_succ']
    let _ := fieldK
    exact pow_ne_zero _ h
  have hv : m[0].val % 9767 ≠ 0 := by
    intro h0
    apply hm0
    rw [hbase, ← cast_mod, h0, Nat.cast_zero]
  have hinv : ((powModP m[0].val 14 9765 : ℕ) : K) * (m[0].val : K) = 1 := by
    have hf : m[0].val ^ 9766 % 9767 = 1 := by
      have hco : Nat.Coprime m[0].val 9767 := by
        rw [Nat.coprime_comm]
        exact (Nat.Prime.coprime_iff_not_dvd prime_p).2 fun hd => hv (Nat.mod_eq_zero_of_dvd hd)
      have := Nat.ModEq.pow_totient hco
      rwa [Nat.totient_prime prime_p] at this
    rw [← Nat.cast_mul, ← cast_mod, Nat.mul_mod, powModP_eq _ _ _ (by norm_num), ← Nat.mul_mod,
      ← pow_succ, hf, Nat.cast_one]
  rw [show gfInv a = gfScale (powModP m[0].val 14 9765) (gfConjugates a) from rfl, toK_scale,
    mul_left_comm, hprod, hbase, hinv]

theorem toK_inv_zero {a : Gf} (h : toK a = 0) : toK (gfInv a) = 0 := by
  rw [gfInv, toK_scale, toK_conjugates, h, zero_pow (by decide +kernel), mul_zero]

/-- The inverse is the power q - 2 (R127). -/
theorem toK_inv (a : Gf) : toK (gfInv a) = toK a ^ (q - 2) := by
  by_cases h : toK a = 0
  · rw [toK_inv_zero h, h, zero_pow (by norm_num)]
  · have h1 := toK_mul_inv h
    have h2 : toK a * toK a ^ (q - 2) = 1 := by
      rw [← pow_succ', show q - 2 + 1 = q - 1 by norm_num, K_pow_card_sub_one h]
    let _ := fieldK
    exact mul_left_cancel₀ h (h1.trans h2.symm)

end Sys2Proof.Machine
end

