-- ==== Sys2Proof/Laws/NoOrderTwo.lean ====
section
/-! SUPPORT. No point of the curve has order 2 (spec/44_point.md R201): x^3 - 3x + B has no root in
GF(q). A root t would satisfy t^q = t; t^q is computed modulo the cubic from t^p and the Frobenius
map, and t^q - t is shown to be a unit there. The computation is on coefficient lists, packed into
one number for each product, so that the kernel checks it quickly. -/

namespace Sys2Proof.Machine

/-! ### Coefficient lists -/

/-- The element of K with these coefficients, of any number and size. -/
noncomputable def listK : List Nat → K
  | [] => 0
  | a :: as => (a : K) + zK * listK as

/-- Sum of two lists. -/
def listAdd : List Nat → List Nat → List Nat
  | [], bs => bs
  | as, [] => as
  | a :: as, b :: bs => (a + b) :: listAdd as bs

theorem listK_add (as bs : List Nat) : listK (listAdd as bs) = listK as + listK bs := by
  induction as generalizing bs with
  | nil => simp [listAdd, listK]
  | cons a as ih =>
    cases bs with
    | nil => simp [listAdd, listK]
    | cons b bs => simp only [listAdd, listK, ih]; push_cast; ring

theorem listK_scale (c : Nat) (as : List Nat) : listK (as.map (c * ·)) = c * listK as := by
  induction as with
  | nil => simp [listK]
  | cons a as ih => simp only [List.map_cons, listK, ih]; push_cast; ring

theorem listK_mod (as : List Nat) : listK (as.map (· % 9767)) = listK as := by
  induction as with
  | nil => rfl
  | cons a as ih => simp only [List.map_cons, listK, ih, cast_mod]

theorem listK_take_drop (m : Nat) (as : List Nat) :
    listK as = listK (as.take m) + zK ^ m * listK (as.drop m) := by
  induction m generalizing as with
  | zero => simp [listK]
  | succ m ih =>
    cases as with
    | nil => simp [listK]
    | cons a as =>
      simp only [List.take_succ_cons, List.drop_succ_cons, listK]
      rw [ih as, pow_succ']
      ring

/-- The product's coefficients, not reduced. -/
def listConv : List Nat → List Nat → List Nat
  | [], _ => []
  | a :: as, bs => listAdd (bs.map (a * ·)) (0 :: listConv as bs)

theorem listK_conv (as bs : List Nat) : listK (listConv as bs) = listK as * listK bs := by
  induction as with
  | nil => simp [listConv, listK]
  | cons a as ih =>
    rw [listConv, listK_add, listK_scale, listK, listK, ih]
    push_cast
    ring

/-- A list as the digits of one number. -/
def pack : List Nat → Nat
  | [] => 0
  | a :: as => a + 4294967296 * pack as

/-- The m lowest digits of a number. -/
def unpack : Nat → Nat → List Nat
  | 0, _ => []
  | m + 1, v => v % 4294967296 :: unpack m (v / 4294967296)

theorem pack_add (as bs : List Nat) : pack (listAdd as bs) = pack as + pack bs := by
  induction as generalizing bs with
  | nil => simp [listAdd, pack]
  | cons a as ih =>
    cases bs with
    | nil => simp [listAdd, pack]
    | cons b bs => simp only [listAdd, pack, ih]; ring

theorem pack_scale (c : Nat) (as : List Nat) : pack (as.map (c * ·)) = c * pack as := by
  induction as with
  | nil => simp [pack]
  | cons a as ih => simp only [List.map_cons, pack, ih]; ring

theorem pack_conv (as bs : List Nat) : pack (listConv as bs) = pack as * pack bs := by
  induction as with
  | nil => simp [listConv, pack]
  | cons a as ih => rw [listConv, pack_add, pack_scale, pack, pack, ih]; ring

theorem listK_unpack_pack (as : List Nat) (m : Nat) (hm : as.length ≤ m)
    (h : ∀ x ∈ as, x < 4294967296) : listK (unpack m (pack as)) = listK as := by
  induction m generalizing as with
  | zero =>
    have : as = [] := by simpa using hm
    subst this
    rfl
  | succ m ih =>
    cases as with
    | nil =>
      have := ih [] (by simp) (by simp)
      simp only [pack] at this
      simp [unpack, pack, listK, this]
    | cons a as =>
      have ha := h a (by simp)
      have h1 : (a + 4294967296 * pack as) % 4294967296 = a := by omega
      have h2 : (a + 4294967296 * pack as) / 4294967296 = pack as := by omega
      rw [pack, unpack, h1, h2, listK, listK,
        ih as (by simpa using hm) fun x hx => h x (List.mem_cons_of_mem _ hx)]

theorem listAdd_le {as bs : List Nat} {x y : Nat} (ha : ∀ u ∈ as, u ≤ x) (hb : ∀ u ∈ bs, u ≤ y) :
    ∀ u ∈ listAdd as bs, u ≤ x + y := by
  induction as generalizing bs with
  | nil => intro u hu; have := hb u (by simpa [listAdd] using hu); omega
  | cons a as ih =>
    cases bs with
    | nil => intro u hu; have := ha u (by simpa [listAdd] using hu); omega
    | cons b bs =>
      intro u hu
      simp only [listAdd, List.mem_cons] at hu
      rcases hu with rfl | hu
      · have := ha a (by simp); have := hb b (by simp); omega
      · exact ih (fun v hv => ha v (by simp [hv])) (fun v hv => hb v (by simp [hv])) u hu

theorem listAdd_length (as bs : List Nat) :
    (listAdd as bs).length = max as.length bs.length := by
  induction as generalizing bs with
  | nil => simp [listAdd]
  | cons a as ih =>
    cases bs with
    | nil => simp [listAdd]
    | cons b bs => simp only [listAdd, List.length_cons, ih]; omega

theorem listConv_le {as bs : List Nat} (ha : ∀ u ∈ as, u ≤ 9766) (hb : ∀ u ∈ bs, u ≤ 9766) :
    ∀ u ∈ listConv as bs, u ≤ 95374756 * as.length := by
  induction as with
  | nil => simp [listConv]
  | cons a as ih =>
    have h1 : ∀ u ∈ bs.map (a * ·), u ≤ 95374756 := by
      intro u hu
      obtain ⟨b, hb', rfl⟩ := List.mem_map.1 hu
      exact Nat.mul_le_mul (ha a (by simp)) (hb b hb')
    have h2 : ∀ u ∈ (0 :: listConv as bs), u ≤ 95374756 * as.length := by
      intro u hu
      rcases List.mem_cons.1 hu with rfl | hu
      · omega
      · exact ih (fun v hv => ha v (by simp [hv])) u hu
    intro u hu
    have := listAdd_le h1 h2 u hu
    simp only [List.length_cons]
    omega

theorem listConv_length (as bs : List Nat) :
    (listConv as bs).length ≤ as.length + bs.length := by
  induction as with
  | nil => simp [listConv]
  | cons a as ih =>
    simp only [listConv, listAdd_length, List.length_map, List.length_cons]
    omega

/-- Product in K, folded by z^19 = 2 and reduced. A product of packed numbers where the sizes allow. -/
def listMul (a b : List Nat) : List Nat :=
  let as := a.map (· % 9767)
  let bs := b.map (· % 9767)
  let c :=
    if as.length ≤ 40 then unpack (as.length + bs.length) (pack as * pack bs) else listConv as bs
  (listAdd (c.take 19) ((c.drop 19).map (2 * ·))).map (· % 9767)

theorem listK_mul (a b : List Nat) : listK (listMul a b) = listK a * listK b := by
  have hb (l : List Nat) : ∀ u ∈ l.map (· % 9767), u ≤ 9766 := by
    intro u hu
    obtain ⟨v, _, rfl⟩ := List.mem_map.1 hu
    omega
  have hc : ∀ as bs : List Nat, as = a.map (· % 9767) → bs = b.map (· % 9767) →
      listK (if as.length ≤ 40 then unpack (as.length + bs.length) (pack as * pack bs)
        else listConv as bs) = listK a * listK b := by
    rintro as bs rfl rfl
    rw [← listK_mod a, ← listK_mod b, ← listK_conv]
    split
    · rename_i hl
      rw [← pack_conv]
      refine listK_unpack_pack _ _ (listConv_length _ _) fun x hx => ?_
      have := listConv_le (hb a) (hb b) x hx
      omega
    · rfl
  have hf (c : List Nat) : listK ((listAdd (c.take 19) ((c.drop 19).map (2 * ·))).map (· % 9767)) =
      listK c := by
    rw [listK_mod, listK_add, listK_scale, listK_take_drop 19 c, zK_pow_19]
    push_cast
    ring
  rw [listMul, hf, hc _ _ rfl rfl]

/-- a - b, as a + 9766*b. -/
def listSub (a b : List Nat) : List Nat := (listAdd a (b.map (9766 * ·))).map (· % 9767)

theorem listK_sub (a b : List Nat) : listK (listSub a b) = listK a - listK b := by
  rw [listSub, listK_mod, listK_add, listK_scale]
  have h : ((9766 : ℕ) : K) = -1 := by push_cast; linear_combination p_eq_zero
  rw [h]
  ring

/-- Coefficient k times w*c^k. -/
def listTwist (c : Nat) : Nat → List Nat → List Nat
  | _, [] => []
  | w, a :: as => a * w % 9767 :: listTwist c (w * c % 9767) as

/-- a^(p^j) (R138). -/
def listFrobenius (j : Nat) (a : List Nat) : List Nat := listTwist (frobeniusC ^ j % 9767) 1 a

theorem listK_frobenius (j : Nat) (a : List Nat) :
    listK (listFrobenius j a) = listK a ^ 9767 ^ j := by
  obtain ⟨f, hf⟩ := exists_frobenius j
  have hz : f zK = ((frobeniusC ^ j % 9767 : ℕ) : K) * zK := by
    rw [hf, zK_pow_frobenius, cast_mod, Nat.cast_pow]
  have ht (w : Nat) : listK (listTwist (frobeniusC ^ j % 9767) w a) = w * f (listK a) := by
    induction a generalizing w with
    | nil => simp [listTwist, listK]
    | cons a as ih =>
      rw [listTwist, listK, listK, ih, cast_mod, cast_mod, map_add, map_mul, map_natCast, hz]
      push_cast
      ring
  rw [listFrobenius, ht, ← hf, Nat.cast_one, one_mul]

/-! ### Polynomials modulo the cubic -/

/-- c0 + c1*X + c2*X^2 modulo the cubic X^3 - 3X + B. -/
abbrev Tri := List Nat × List Nat × List Nat

/-- Its value at t. -/
noncomputable def triEval (t : K) (a : Tri) : K := listK a.1 + listK a.2.1 * t + listK a.2.2 * t ^ 2

/-- B = 2048*z^9 (R7). -/
def listB : List Nat := gfCoeffs curveB

theorem listK_B : listK listB = toK curveB := by
  rw [listB, show gfCoeffs curveB = [0, 0, 0, 0, 0, 0, 0, 0, 0, 2048, 0, 0, 0, 0, 0, 0, 0, 0, 0]
      by
    decide +kernel, curveB, gfMonomial, toK_gfOf]
  simp [listK, Fin.sum_univ_succ]
  ring

/-- Product modulo the cubic. -/
def triMul (a b : Tri) : Tri :=
  let d3 := listAdd (listMul a.2.1 b.2.2) (listMul a.2.2 b.2.1)
  let d4 := listMul a.2.2 b.2.2
  (listSub (listMul a.1 b.1) (listMul listB d3),
    listSub (listAdd (listAdd (listMul a.1 b.2.1) (listMul a.2.1 b.1)) (d3.map (3 * ·)))
      (listMul listB d4),
    (listAdd (listAdd (listAdd (listMul a.1 b.2.2) (listMul a.2.1 b.2.1)) (listMul a.2.2 b.1))
      (d4.map (3 * ·))).map (· % 9767))

/-- a^e, the most significant bit first. -/
def triPow (a : Tri) : Nat → Nat → Tri
  | 0, _ => ([1], [], [])
  | fuel + 1, e =>
    if e = 0 then ([1], [], [])
    else
      let h := triPow a fuel (e / 2)
      if e % 2 = 1 then triMul (triMul h h) a else triMul h h

/-- From t^(p^i) and t^(p^j) to t^(p^(i+j)). -/
def triCompose (j : Nat) (h g : Tri) : Tri :=
  let g2 := triMul g g
  let c1 := listFrobenius j h.2.1
  let c2 := listFrobenius j h.2.2
  ((listAdd (listFrobenius j h.1) (listAdd (listMul c1 g.1) (listMul c2 g2.1))).map (· % 9767),
    (listAdd (listMul c1 g.2.1) (listMul c2 g2.2.1)).map (· % 9767),
    (listAdd (listMul c1 g.2.2) (listMul c2 g2.2.2)).map (· % 9767))

/-- X. -/
def triX : Tri := ([], [1], [])

/-- X^(p^1) modulo the cubic. -/
def frobX1 : Tri :=
  ([5943, 7828, 5710, 7227, 6205, 1303, 8807, 2953, 9098, 8955, 7286, 2909, 9467, 6975, 3835,
      7839, 6675, 6641, 3789],
    [5171, 5364, 6888, 2113, 4176, 9261, 6696, 4002, 3787, 4136, 2275, 2725, 7859, 8320, 2085,
      9150, 3158, 4267, 99],
    [1912, 5853, 6912, 1270, 1781, 4232, 480, 3407, 5218, 406, 6124, 3429, 150, 1396, 2966, 964,
      1546, 1563, 2989])

/-- X^(p^2) modulo the cubic. -/
def frobX2 : Tri :=
  ([6597, 1865, 4458, 8025, 7134, 835, 611, 1716, 4480, 2586, 5455, 6973, 3637, 2269, 6696, 9382,
      3292, 9311, 7545],
    [1400, 6487, 9381, 329, 2274, 6520, 3716, 5219, 445, 6773, 263, 705, 1904, 6058, 9519, 9748,
      8964, 7902, 1062],
    [1585, 3951, 7538, 871, 6200, 4466, 4578, 8909, 7527, 8474, 2156, 1397, 3065, 3749, 6419,
      5076, 8121, 228, 1111])

/-- X^(p^4) modulo the cubic. -/
def frobX4 : Tri :=
  ([4807, 8991, 290, 7824, 5695, 5584, 2995, 6585, 9023, 4330, 221, 9408, 1464, 1642, 5060, 1056,
      5929, 4449, 876],
    [1652, 4093, 6246, 7619, 6481, 3974, 8873, 6631, 9623, 7231, 6582, 6282, 390, 984, 900, 4842,
      823, 8428, 2110],
    [2480, 388, 9622, 5855, 2036, 6975, 3386, 1591, 372, 7602, 4773, 5063, 9035, 8946, 7237, 9239,
      1919, 2659, 9329])

/-- X^(p^8) modulo the cubic. -/
def frobX8 : Tri :=
  ([7484, 2710, 2268, 6002, 2169, 2967, 7263, 3518, 6541, 9615, 2355, 3093, 3719, 8485, 1124,
      6417, 7141, 5833, 3856],
    [8834, 8689, 2158, 6907, 3103, 8889, 1055, 2796, 9188, 5913, 6791, 8285, 5765, 420, 2355,
      2183, 2874, 1403, 7813],
    [6025, 8412, 8633, 6766, 3799, 3400, 1252, 8008, 1613, 76, 3706, 3337, 3024, 641, 9205, 1675,
      1313, 1967, 7839])

/-- X^(p^9) modulo the cubic. -/
def frobX9 : Tri :=
  ([5432, 2796, 8318, 5755, 2644, 622, 880, 7380, 2431, 9760, 5176, 1711, 6621, 3335, 9393, 5463,
      896, 4653, 7196],
    [4990, 2981, 9381, 7715, 1783, 3009, 5871, 3932, 3642, 4495, 3444, 1882, 188, 5183, 2378,
      2535, 6235, 3432, 4144],
    [7051, 8369, 5608, 2006, 8445, 9456, 9327, 6077, 3668, 4887, 7179, 4028, 1573, 3216, 187,
      2152, 9319, 2557, 6169])

/-- X^(p^18) modulo the cubic. -/
def frobX18 : Tri :=
  ([1860, 4275, 36, 8364, 5918, 2079, 1669, 1960, 1800, 3549, 2406, 4499, 7912, 4376, 2768, 2560,
      985, 236, 9501],
    [2683, 4608, 7531, 2533, 7974, 3535, 6839, 5002, 3966, 977, 3101, 1950, 2869, 2090, 6069, 660,
      4164, 4093, 3485],
    [8837, 2746, 9749, 5585, 6808, 3844, 4049, 8787, 8867, 3109, 8564, 2634, 5811, 7579, 8383,
      8487, 4391, 9649, 133])

/-- X^(p^19) modulo the cubic. -/
def frobX19 : Tri :=
  ([149, 8341, 3969, 7659, 1738, 9458, 9337, 6348, 5087, 3445, 9476, 5227, 8511, 2840, 7537, 1943,
      8499, 753, 7746],
    [90, 9635, 6667, 2406, 7809, 2836, 9188, 521, 8667, 1848, 7354, 9175, 4926, 8708, 1936, 5286,
      2235, 3245, 3987],
    [4809, 713, 2899, 1054, 8898, 5038, 215, 6593, 2340, 3161, 5029, 2270, 628, 8347, 1115, 3912,
      634, 4507, 5894])

/-- The inverse of X^(p^19) - X modulo the cubic. -/
def unitInverse : Tri :=
  ([2542, 7006, 4654, 7618, 4564, 6861, 760, 1224, 2687, 8305, 8349, 6634, 6260, 6435, 2547, 760,
      2477, 1727, 1730],
    [2416, 4660, 1201, 2483, 6825, 8686, 3165, 2461, 3185, 6658, 1477, 3753, 4742, 7665, 9154,
      9565, 7422, 3577, 4923],
    [2811, 7773, 5329, 9038, 6002, 3869, 1212, 9684, 3150, 1832, 8010, 2816, 21, 8414, 5052, 8735,
      6795, 1641, 4664])

/-- Equal as elements of K, coefficient by coefficient: trailing zeros do not count. -/
def listSame (a b : List Nat) : Bool := (listSub a b).all (· == 0)

/-- Equal in every component. -/
def triSame (a b : Tri) : Bool := listSame a.1 b.1 && listSame a.2.1 b.2.1 && listSame a.2.2 b.2.2

theorem listK_of_same {a b : List Nat} (h : listSame a b = true) : listK a = listK b := by
  have hz (l : List Nat) (hl : l.all (· == 0) = true) : listK l = 0 := by
    induction l with
    | nil => rfl
    | cons x l ih =>
      simp only [List.all_cons, Bool.and_eq_true, beq_iff_eq] at hl
      rw [listK, hl.1, ih hl.2]
      simp
  rw [← sub_eq_zero, ← listK_sub, hz _ h]

theorem triEval_of_same {a b : Tri} (h : triSame a b = true) (t : K) : triEval t a = triEval t b := by
  simp only [triSame, Bool.and_eq_true] at h
  rw [triEval, triEval, listK_of_same h.1.1, listK_of_same h.1.2, listK_of_same h.2]

theorem frobX1_eq : triSame (triPow triX 14 9767) frobX1 = true := by decide +kernel
theorem frobX2_eq : triSame (triCompose 1 frobX1 frobX1) frobX2 = true := by decide +kernel
theorem frobX4_eq : triSame (triCompose 2 frobX2 frobX2) frobX4 = true := by decide +kernel
theorem frobX8_eq : triSame (triCompose 4 frobX4 frobX4) frobX8 = true := by decide +kernel
theorem frobX9_eq : triSame (triCompose 1 frobX8 frobX1) frobX9 = true := by decide +kernel
theorem frobX18_eq : triSame (triCompose 9 frobX9 frobX9) frobX18 = true := by decide +kernel
theorem frobX19_eq : triSame (triCompose 1 frobX18 frobX1) frobX19 = true := by decide +kernel
theorem unitInverse_mul : triSame
    (triMul unitInverse (frobX19.1, listSub frobX19.2.1 [1], frobX19.2.2)) ([1], [], []) = true := by
  decide +kernel

section
variable {t : K} (ht : t ^ 3 - 3 * t + toK curveB = 0)
include ht

theorem triEval_mul (a b : Tri) : triEval t (triMul a b) = triEval t a * triEval t b := by
  simp only [triEval, triMul, listK_add, listK_sub, listK_mul, listK_scale, listK_mod, listK_B]
  push_cast
  linear_combination (-((listK a.2.1 * listK b.2.2 + listK a.2.2 * listK b.2.1) +
    listK a.2.2 * listK b.2.2 * t)) * ht

theorem triEval_pow (a : Tri) (fuel e : Nat) (h : e < 2 ^ fuel) :
    triEval t (triPow a fuel e) = triEval t a ^ e := by
  have h1 : triEval t ([1], [], []) = 1 := by simp [triEval, listK]
  induction fuel generalizing e with
  | zero =>
    have : e = 0 := by simpa using h
    subst this
    rw [triPow, h1, pow_zero]
  | succ fuel ih =>
    have hh : e / 2 < 2 ^ fuel := by rw [pow_succ] at h; omega
    have he : e = e / 2 + e / 2 + e % 2 := by omega
    simp only [triPow]
    split
    · subst_vars; rw [h1, pow_zero]
    · split
      · rename_i h2
        rw [triEval_mul ht, triEval_mul ht, ih _ hh]
        conv_rhs => rw [he, h2]
        ring
      · have h0 : e % 2 = 0 := by omega
        rw [triEval_mul ht, ih _ hh]
        conv_rhs => rw [he, h0]
        ring

theorem triEval_compose {i j : Nat} {h g r : Tri} (hh : triEval t h = t ^ 9767 ^ i)
    (hg : triEval t g = t ^ 9767 ^ j) (hr : triSame (triCompose j h g) r = true) :
    triEval t r = t ^ 9767 ^ (i + j) := by
  obtain ⟨f, hf⟩ := exists_frobenius j
  have hsq := triEval_mul ht g g
  have hc : triEval t (triCompose j h g) = listK (listFrobenius j h.1) +
      listK (listFrobenius j h.2.1) * triEval t g +
      listK (listFrobenius j h.2.2) * triEval t (triMul g g) := by
    simp only [triEval, triCompose, listK_add, listK_mul, listK_mod]
    ring
  rw [← triEval_of_same hr, hc, hsq, hg, listK_frobenius, listK_frobenius, listK_frobenius,
    ← hf, ← hf, ← hf, ← hf]
  have : f (triEval t h) = t ^ 9767 ^ (i + j) := by
    rw [hf, hh, ← pow_mul, ← pow_add]
  rw [← this, triEval, map_add, map_add, map_mul, map_mul, map_pow]
  ring

theorem cubic_no_root : False := by
  have hX : triEval t triX = t := by simp [triEval, triX, listK]
  have e1 : triEval t frobX1 = t ^ 9767 ^ 1 := by
    rw [← triEval_of_same frobX1_eq, triEval_pow ht _ _ _ (by norm_num), hX, pow_one]
  have e2 := triEval_compose ht e1 e1 frobX2_eq
  have e4 := triEval_compose ht e2 e2 frobX4_eq
  have e8 := triEval_compose ht e4 e4 frobX8_eq
  have e9 := triEval_compose ht e8 e1 frobX9_eq
  have e18 := triEval_compose ht e9 e9 frobX18_eq
  have e19 := triEval_compose ht e18 e1 frobX19_eq
  have h0 : triEval t (frobX19.1, listSub frobX19.2.1 [1], frobX19.2.2) = 0 := by
    have h : triEval t (frobX19.1, listSub frobX19.2.1 [1], frobX19.2.2) =
        triEval t frobX19 - t := by
      simp only [triEval, listK_sub, listK]
      push_cast
      ring
    rw [h, e19, show (18 + 1 : ℕ) = 19 from rfl, K_pow_card, sub_self]
  have h1 := triEval_mul ht unitInverse (frobX19.1, listSub frobX19.2.1 [1], frobX19.2.2)
  rw [triEval_of_same unitInverse_mul, h0, mul_zero] at h1
  apply K_one_ne_zero
  rw [← h1]
  simp [triEval, listK]

end

theorem toK_curveRhs (x : Gf) : toK (curveRhs x) = toK x ^ 3 - 3 * toK x + toK curveB := by
  have hA : toK curveA = -3 := by
    have : toK curveA = ((9764 : ℕ) : K) := by
      rw [curveA, toK_gfOf, Fin.sum_univ_succ]
      simp
    rw [this, Nat.cast_ofNat]
    linear_combination p_eq_zero
  rw [curveRhs, toK_add, toK_add, toK_mul, toK_mul, toK_sqr, hA]
  ring

/-- R201: no affine point of the curve has y = 0, so no point has order 2. -/
theorem curveRhs_ne_zero (x : Gf) : curveRhs x ≠ gfZero := by
  intro h
  have := toK_eq_zero.2 h
  rw [toK_curveRhs] at this
  exact cubic_no_root this

end Sys2Proof.Machine
end

