-- ==== Sys2Proof/Laws/CurveGroup.lean ====
section
/-! SUPPORT. The addition of Machine/Curve.lean is the group law of a Weierstrass curve (spec/44_point.md
R203): a map from points to Mathlib's points that takes pointAdd to +, pointNeg to -, and is
injective on the curve. Field facts are read through an injective ring map φ from K into a field. -/

namespace Sys2Proof.Machine

open WeierstrassCurve

section
variable {F : Type} [Field F] (φ : K →+* F)

/-- The curve of R7 over F. -/
noncomputable def curveE : Affine F where
  a₁ := 0
  a₂ := 0
  a₃ := 0
  a₄ := -3
  a₆ := φ (toK curveB)

open Classical in
/-- The point of Mathlib's curve that a point stands for; only points on the curve matter. -/
noncomputable def toE : Point → (curveE φ).Point
  | .neutral => 0
  | .affine x y => if h : (curveE φ).Nonsingular (φ (toK x)) (φ (toK y)) then .some _ _ h else 0

include φ in
theorem two_ne_zero_F : (2 : F) ≠ 0 := by
  intro h
  have h1 : (9767 : F) = 0 := by
    have h2 : φ ((9767 : ℕ) : K) = ((9767 : ℕ) : F) := map_natCast φ 9767
    rw [Nat.cast_ofNat, Nat.cast_ofNat, p_eq_zero, map_zero] at h2
    exact h2.symm
  have : (1 : F) = 0 := by linear_combination 4884 * h - h1
  exact one_ne_zero this

variable {φ}

theorem phi_inj (hφ : Function.Injective φ) {a b : Gf} : φ (toK a) = φ (toK b) ↔ a = b :=
  ⟨fun h => toK_inj.1 (hφ h), fun h => by rw [h]⟩

theorem phi_div (hφ : Function.Injective φ) (u v : Gf) :
    φ (toK (gfDiv u v)) = φ (toK u) / φ (toK v) := by
  rw [gfDiv, toK_mul, map_mul]
  by_cases h : toK v = 0
  · rw [toK_inv_zero h, h]
    simp
  · have h1 := congrArg φ (toK_mul_inv h)
    rw [map_mul, map_one] at h1
    have h0 : φ (toK v) ≠ 0 := fun e => h (hφ (by rw [e, map_zero]))
    rw [eq_div_iff h0, mul_assoc, mul_comm (φ (toK (gfInv v))), h1, mul_one]

theorem onCurve_affine (hφ : Function.Injective φ) {x y : Gf} :
    onCurve (.affine x y) = true ↔ (curveE φ).Equation (φ (toK x)) (φ (toK y)) := by
  rw [Affine.equation_iff]
  simp only [onCurve, decide_eq_true_eq, curveE]
  rw [← toK_inj, toK_sqr, toK_curveRhs, ← hφ.eq_iff]
  simp only [map_pow, map_add, map_sub, map_mul, map_ofNat]
  constructor <;> intro h <;> linear_combination h

/-- R201: the second coordinate of a point of the curve is not zero. -/
theorem onCurve_ne_zero {x y : Gf} (h : onCurve (.affine x y) = true) : y ≠ gfZero := by
  rintro rfl
  simp only [onCurve, decide_eq_true_eq] at h
  apply curveRhs_ne_zero x
  rw [← h, ← toK_inj, toK_sqr, toK_zero]
  ring

theorem phi_ne_zero (hφ : Function.Injective φ) {y : Gf} (h : y ≠ gfZero) : φ (toK y) ≠ 0 :=
  fun e => h (toK_eq_zero.1 (hφ (by rw [e, map_zero])))

theorem onCurve_nonsingular (hφ : Function.Injective φ) {x y : Gf}
    (h : onCurve (.affine x y) = true) :
    (curveE φ).Nonsingular (φ (toK x)) (φ (toK y)) := by
  rw [Affine.nonsingular_iff]
  refine ⟨(onCurve_affine hφ).1 h, Or.inr fun e => ?_⟩
  have h0 := phi_ne_zero hφ (onCurve_ne_zero h)
  simp only [curveE, zero_mul, sub_zero] at e
  have h2 : (2 : F) * φ (toK y) = 0 := by linear_combination e
  exact (mul_ne_zero (two_ne_zero_F φ) h0) h2

theorem toE_affine (hφ : Function.Injective φ) {x y : Gf} (h : onCurve (.affine x y) = true) :
    toE φ (.affine x y) = .some _ _ (onCurve_nonsingular hφ h) := by
  rw [toE, dif_pos (onCurve_nonsingular hφ h)]

theorem toE_inj (hφ : Function.Injective φ) {a b : Point} (ha : onCurve a = true)
    (hb : onCurve b = true) : toE φ a = toE φ b ↔ a = b := by
  refine ⟨fun h => ?_, fun h => by rw [h]⟩
  cases a with
  | neutral =>
    cases b with
    | neutral => rfl
    | affine x y =>
      rw [toE_affine hφ hb] at h
      exact absurd h.symm (Affine.Point.some_ne_zero _)
  | affine x y =>
    cases b with
    | neutral =>
      rw [toE_affine hφ ha] at h
      exact absurd h (Affine.Point.some_ne_zero _)
    | affine u v =>
      rw [toE_affine hφ ha, toE_affine hφ hb] at h
      rw [Affine.Point.some.injEq] at h
      rw [(phi_inj hφ).1 h.1, (phi_inj hφ).1 h.2]

theorem toE_neg (hφ : Function.Injective φ) {a : Point} (ha : onCurve a = true) :
    onCurve (pointNeg a) = true ∧ toE φ (pointNeg a) = -toE φ a := by
  cases a with
  | neutral => exact ⟨rfl, by simp [pointNeg, toE]⟩
  | affine x y =>
    have h : onCurve (.affine x (gfNeg y)) = true := by
      simp only [onCurve, decide_eq_true_eq] at ha ⊢
      rw [← ha, ← toK_inj, toK_sqr, toK_sqr, toK_neg]
      ring
    refine ⟨h, ?_⟩
    rw [pointNeg, toE_affine hφ h, toE_affine hφ ha, Affine.Point.neg_some,
      Affine.Point.some.injEq]
    exact ⟨rfl, by simp [Affine.negY, curveE, toK_neg]⟩

/-- The point through which a chord or tangent with slope l leaves the curve, mirrored: the two
formulas of R203 are Mathlib's. -/
theorem chord_coordinates (l x1 y1 x2 : Gf) (h3 : Gf)
    (hx : h3 = gfSub (gfSub (gfSqr l) x1) x2) :
    φ (toK h3) = (curveE φ).addX (φ (toK x1)) (φ (toK x2)) (φ (toK l)) ∧
    φ (toK (gfSub (gfMul l (gfSub x1 h3)) y1)) =
      (curveE φ).addY (φ (toK x1)) (φ (toK x2)) (φ (toK y1)) (φ (toK l)) := by
  subst hx
  simp only [Affine.addX, Affine.addY, Affine.negAddY, Affine.negY, curveE, toK_sub, toK_mul,
    toK_sqr, map_sub, map_mul, map_pow]
  constructor <;> ring

theorem toK_curveA : toK curveA = -3 := by
  have : toK curveA = ((9764 : ℕ) : K) := by
    rw [curveA, toK_gfOf, Fin.sum_univ_succ]
    simp
  rw [this, Nat.cast_ofNat]
  linear_combination p_eq_zero

theorem toK_constant (c : Nat) : toK (gfOf [c]) = (c : K) := by
  rw [toK_gfOf, Fin.sum_univ_succ]
  simp

variable [DecidableEq F]

theorem toE_chord (hφ : Function.Injective φ) {x1 y1 x2 y2 l : Gf}
    (ha : onCurve (.affine x1 y1) = true) (hb : onCurve (.affine x2 y2) = true)
    (hl : φ (toK l) = (curveE φ).slope (φ (toK x1)) (φ (toK x2)) (φ (toK y1)) (φ (toK y2)))
    (hxy : ¬(φ (toK x1) = φ (toK x2) ∧ φ (toK y1) = (curveE φ).negY (φ (toK x2)) (φ (toK y2)))) :
    onCurve (chordPoint l x1 y1 x2) = true ∧
      toE φ (chordPoint l x1 y1 x2) = toE φ (.affine x1 y1) + toE φ (.affine x2 y2) := by
  have na := onCurve_nonsingular hφ ha
  have nb := onCurve_nonsingular hφ hb
  obtain ⟨cx, cy⟩ := chord_coordinates (φ := φ) l x1 y1 x2 _ rfl
  have ns := Affine.nonsingular_add na nb hxy
  rw [← hl, ← cx, ← cy] at ns
  have hc : onCurve (chordPoint l x1 y1 x2) = true := (onCurve_affine hφ).2 ns.1
  refine ⟨hc, ?_⟩
  rw [toE_affine hφ ha, toE_affine hφ hb, Affine.Point.add_some hxy]
  rw [chordPoint] at hc ⊢
  rw [toE_affine hφ hc, Affine.Point.some.injEq, ← hl]
  exact ⟨cx, cy⟩

theorem phi_tangent (hφ : Function.Injective φ) {x1 y1 : Gf}
    (hne : φ (toK y1) ≠ (curveE φ).negY (φ (toK x1)) (φ (toK y1))) :
    φ (toK (tangentSlope x1 y1)) =
      (curveE φ).slope (φ (toK x1)) (φ (toK x1)) (φ (toK y1)) (φ (toK y1)) := by
  have hnum : φ (toK (gfAdd (gfMul (gfOf [3]) (gfSqr x1)) curveA)) = 3 * φ (toK x1) ^ 2 - 3 := by
    rw [toK_add, toK_mul, toK_sqr, toK_curveA, toK_constant, map_add, map_mul, map_pow,
      map_neg, map_natCast, map_ofNat, Nat.cast_ofNat, sub_eq_add_neg]
  have hden : φ (toK (gfMul (gfOf [2]) y1)) = 2 * φ (toK y1) := by
    rw [toK_mul, toK_constant, map_mul, map_natCast, Nat.cast_ofNat]
  rw [Affine.slope_of_Y_ne rfl hne, tangentSlope, phi_div hφ, hnum, hden]
  simp only [Affine.negY, curveE]
  rw [show φ (toK y1) - (-φ (toK y1) - 0 * φ (toK x1) - 0) = 2 * φ (toK y1) by ring]
  congr 1
  ring

/-- The addition law is the group law (R203), and stays on the curve (R200). -/
theorem toE_add (hφ : Function.Injective φ) {a b : Point} (ha : onCurve a = true)
    (hb : onCurve b = true) :
    onCurve (pointAdd a b) = true ∧ toE φ (pointAdd a b) = toE φ a + toE φ b := by
  cases a with
  | neutral => exact ⟨hb, by simp [pointAdd, toE]⟩
  | affine x1 y1 =>
    cases b with
    | neutral => exact ⟨ha, by simp [pointAdd, toE]⟩
    | affine x2 y2 =>
      by_cases hx : x1 = x2
      · subst hx
        by_cases hy : y1 = y2
        · subst hy
          have h0 := phi_ne_zero hφ (onCurve_ne_zero ha)
          have hne : φ (toK y1) ≠ (curveE φ).negY (φ (toK x1)) (φ (toK y1)) := by
            intro e
            simp only [Affine.negY, curveE, zero_mul, sub_zero] at e
            exact mul_ne_zero (two_ne_zero_F φ) h0 (by linear_combination e)
          have hr : pointAdd (.affine x1 y1) (.affine x1 y1) =
              chordPoint (tangentSlope x1 y1) x1 y1 x1 := by
            simp [pointAdd]
          rw [hr]
          exact toE_chord hφ ha ha (phi_tangent hφ hne) (fun e => hne e.2)
        · have hneg : φ (toK y1) = (curveE φ).negY (φ (toK x1)) (φ (toK y2)) := by
            rcases Affine.Y_eq_of_X_eq ((onCurve_affine hφ).1 ha) ((onCurve_affine hφ).1 hb) rfl with
              h | h
            · exact absurd ((phi_inj hφ).1 h) hy
            · exact h
          have hr : pointAdd (.affine x1 y1) (.affine x1 y2) = .neutral := by
            simp [pointAdd, hy]
          refine ⟨by rw [hr]; rfl, ?_⟩
          rw [hr, toE_affine hφ ha, toE_affine hφ hb, Affine.Point.add_of_Y_eq rfl hneg]
          rfl
      · have hx' : φ (toK x1) ≠ φ (toK x2) := fun e => hx ((phi_inj hφ).1 e)
        have hr : pointAdd (.affine x1 y1) (.affine x2 y2) =
            chordPoint (gfDiv (gfSub y2 y1) (gfSub x2 x1)) x1 y1 x2 := by
          simp [pointAdd, hx]
        rw [hr]
        refine toE_chord hφ ha hb ?_ (fun e => hx' e.1)
        rw [Affine.slope_of_X_ne hx', phi_div hφ, toK_sub, toK_sub, map_sub, map_sub,
          ← neg_sub, ← neg_sub (φ (toK x1)), neg_div_neg_eq]

end

/-- A group into which the points of the curve embed: what Laws and proofs use of Mathlib's curve. -/
theorem exists_curve_group : ∃ (E : Type) (_ : AddCommGroup E) (f : Point → E),
    f .neutral = 0 ∧
    (∀ a b, onCurve a = true → onCurve b = true →
      onCurve (pointAdd a b) = true ∧ f (pointAdd a b) = f a + f b) ∧
    (∀ a, onCurve a = true → onCurve (pointNeg a) = true ∧ f (pointNeg a) = -f a) ∧
    (∀ a b, onCurve a = true → onCurve b = true → f a = f b → a = b) := by
  classical
  let _ : Field K := fieldK
  have hφ : Function.Injective (RingHom.id K) := fun _ _ h => h
  exact ⟨(curveE (RingHom.id K)).Point, inferInstance, toE (RingHom.id K), rfl,
    fun a b ha hb => toE_add hφ ha hb, fun a ha => toE_neg hφ ha,
    fun a b ha hb h => (toE_inj hφ ha hb).1 h⟩

end Sys2Proof.Machine
end

