-- ==== Sys2Proof/Laws/State.lean ====
section
/-! SUPPORT. What each named update does to each field of State: one lemma per field per update, so that
no later proof unfolds a record update. -/

namespace Sys2Proof.Machine

/-! ### raise -/

@[simp] theorem raise_regsW (e : EngineError) (s : State) :
    (raise e s).regsW = s.regsW := rfl

@[simp] theorem raise_regsF (e : EngineError) (s : State) :
    (raise e s).regsF = s.regsF := rfl

@[simp] theorem raise_regsS (e : EngineError) (s : State) :
    (raise e s).regsS = s.regsS := rfl

@[simp] theorem raise_regsP (e : EngineError) (s : State) :
    (raise e s).regsP = s.regsP := rfl

@[simp] theorem raise_status (e : EngineError) (s : State) :
    (raise e s).status = statusRaise s.status (causeCode e) := rfl

@[simp] theorem raise_buf (e : EngineError) (s : State) :
    (raise e s).buf = s.buf := rfl

@[simp] theorem raise_idx (e : EngineError) (s : State) :
    (raise e s).idx = s.idx := rfl

@[simp] theorem raise_pending (e : EngineError) (s : State) :
    (raise e s).pending = s.pending := rfl

@[simp] theorem raise_hostReads (e : EngineError) (s : State) :
    (raise e s).hostReads = s.hostReads := rfl

@[simp] theorem raise_fresh (e : EngineError) (s : State) :
    (raise e s).fresh = s.fresh := rfl

/-! ### takeCommand -/

@[simp] theorem takeCommand_regsW (rest : List HostTxn) (s : State) :
    (takeCommand rest s).regsW = s.regsW := rfl

@[simp] theorem takeCommand_regsF (rest : List HostTxn) (s : State) :
    (takeCommand rest s).regsF = s.regsF := rfl

@[simp] theorem takeCommand_regsS (rest : List HostTxn) (s : State) :
    (takeCommand rest s).regsS = s.regsS := rfl

@[simp] theorem takeCommand_regsP (rest : List HostTxn) (s : State) :
    (takeCommand rest s).regsP = s.regsP := rfl

@[simp] theorem takeCommand_status (rest : List HostTxn) (s : State) :
    (takeCommand rest s).status = s.status := rfl

@[simp] theorem takeCommand_buf (rest : List HostTxn) (s : State) :
    (takeCommand rest s).buf = s.buf := rfl

@[simp] theorem takeCommand_idx (rest : List HostTxn) (s : State) :
    (takeCommand rest s).idx = s.idx + 1 := rfl

@[simp] theorem takeCommand_pending (rest : List HostTxn) (s : State) :
    (takeCommand rest s).pending = rest := rfl

@[simp] theorem takeCommand_hostReads (rest : List HostTxn) (s : State) :
    (takeCommand rest s).hostReads = s.hostReads := rfl

@[simp] theorem takeCommand_fresh (rest : List HostTxn) (s : State) :
    (takeCommand rest s).fresh = s.fresh := rfl

/-! ### pollStatus -/

@[simp] theorem pollStatus_regsW (k : Nat) (s : State) :
    (pollStatus k s).regsW = s.regsW := rfl

@[simp] theorem pollStatus_regsF (k : Nat) (s : State) :
    (pollStatus k s).regsF = s.regsF := rfl

@[simp] theorem pollStatus_regsS (k : Nat) (s : State) :
    (pollStatus k s).regsS = s.regsS := rfl

@[simp] theorem pollStatus_regsP (k : Nat) (s : State) :
    (pollStatus k s).regsP = s.regsP := rfl

@[simp] theorem pollStatus_status (k : Nat) (s : State) :
    (pollStatus k s).status = s.status := rfl

@[simp] theorem pollStatus_buf (k : Nat) (s : State) :
    (pollStatus k s).buf = s.buf := rfl

@[simp] theorem pollStatus_idx (k : Nat) (s : State) :
    (pollStatus k s).idx = s.idx := rfl

@[simp] theorem pollStatus_pending (k : Nat) (s : State) :
    (pollStatus k s).pending = s.pending := rfl

@[simp] theorem pollStatus_hostReads (k : Nat) (s : State) :
    (pollStatus k s).hostReads = List.replicate k (.status s.status) ++ s.hostReads := rfl

@[simp] theorem pollStatus_fresh (k : Nat) (s : State) :
    (pollStatus k s).fresh = s.fresh := rfl

/-! ### startCommand -/

@[simp] theorem startCommand_regsW (rest : List HostTxn) (early : Nat) (s : State) :
    (startCommand rest early s).regsW = s.regsW := rfl

@[simp] theorem startCommand_regsF (rest : List HostTxn) (early : Nat) (s : State) :
    (startCommand rest early s).regsF = s.regsF := rfl

@[simp] theorem startCommand_regsS (rest : List HostTxn) (early : Nat) (s : State) :
    (startCommand rest early s).regsS = s.regsS := rfl

@[simp] theorem startCommand_regsP (rest : List HostTxn) (early : Nat) (s : State) :
    (startCommand rest early s).regsP = s.regsP := rfl

@[simp] theorem startCommand_status (rest : List HostTxn) (early : Nat) (s : State) :
    (startCommand rest early s).status = statusSetBusy s.status := rfl

@[simp] theorem startCommand_buf (rest : List HostTxn) (early : Nat) (s : State) :
    (startCommand rest early s).buf = s.buf := rfl

@[simp] theorem startCommand_idx (rest : List HostTxn) (early : Nat) (s : State) :
    (startCommand rest early s).idx = s.idx + 1 := rfl

@[simp] theorem startCommand_pending (rest : List HostTxn) (early : Nat) (s : State) :
    (startCommand rest early s).pending = rest := rfl

@[simp] theorem startCommand_hostReads (rest : List HostTxn) (early : Nat) (s : State) :
    (startCommand rest early s).hostReads =
      List.replicate early (.status (statusSetBusy s.status)) ++ s.hostReads := rfl

@[simp] theorem startCommand_fresh (rest : List HostTxn) (early : Nat) (s : State) :
    (startCommand rest early s).fresh = s.fresh := rfl

/-! ### endCommand -/

@[simp] theorem endCommand_regsW (late : Nat) (s : State) :
    (endCommand late s).regsW = s.regsW := rfl

@[simp] theorem endCommand_regsF (late : Nat) (s : State) :
    (endCommand late s).regsF = s.regsF := rfl

@[simp] theorem endCommand_regsS (late : Nat) (s : State) :
    (endCommand late s).regsS = s.regsS := rfl

@[simp] theorem endCommand_regsP (late : Nat) (s : State) :
    (endCommand late s).regsP = s.regsP := rfl

@[simp] theorem endCommand_status (late : Nat) (s : State) :
    (endCommand late s).status = statusClearBusy s.status := rfl

@[simp] theorem endCommand_buf (late : Nat) (s : State) :
    (endCommand late s).buf = s.buf := rfl

@[simp] theorem endCommand_idx (late : Nat) (s : State) :
    (endCommand late s).idx = s.idx := rfl

@[simp] theorem endCommand_pending (late : Nat) (s : State) :
    (endCommand late s).pending = s.pending := rfl

@[simp] theorem endCommand_hostReads (late : Nat) (s : State) :
    (endCommand late s).hostReads = List.replicate late (.status s.status) ++ s.hostReads := rfl

@[simp] theorem endCommand_fresh (late : Nat) (s : State) :
    (endCommand late s).fresh = s.fresh := rfl

/-! ### discardCommand -/

@[simp] theorem discardCommand_regsW (rest : List HostTxn) (polls : Nat) (s : State) :
    (discardCommand rest polls s).regsW = s.regsW := rfl

@[simp] theorem discardCommand_regsF (rest : List HostTxn) (polls : Nat) (s : State) :
    (discardCommand rest polls s).regsF = s.regsF := rfl

@[simp] theorem discardCommand_regsS (rest : List HostTxn) (polls : Nat) (s : State) :
    (discardCommand rest polls s).regsS = s.regsS := rfl

@[simp] theorem discardCommand_regsP (rest : List HostTxn) (polls : Nat) (s : State) :
    (discardCommand rest polls s).regsP = s.regsP := rfl

@[simp] theorem discardCommand_status (rest : List HostTxn) (polls : Nat) (s : State) :
    (discardCommand rest polls s).status = s.status := rfl

@[simp] theorem discardCommand_buf (rest : List HostTxn) (polls : Nat) (s : State) :
    (discardCommand rest polls s).buf = s.buf := rfl

@[simp] theorem discardCommand_idx (rest : List HostTxn) (polls : Nat) (s : State) :
    (discardCommand rest polls s).idx = s.idx + 1 := rfl

@[simp] theorem discardCommand_pending (rest : List HostTxn) (polls : Nat) (s : State) :
    (discardCommand rest polls s).pending = rest := rfl

@[simp] theorem discardCommand_hostReads (rest : List HostTxn) (polls : Nat) (s : State) :
    (discardCommand rest polls s).hostReads =
      List.replicate polls (.status s.status) ++ s.hostReads := rfl

@[simp] theorem discardCommand_fresh (rest : List HostTxn) (polls : Nat) (s : State) :
    (discardCommand rest polls s).fresh = s.fresh := rfl

/-! ### hostWrite -/

@[simp] theorem hostWrite_regsW (rest : List HostTxn) (a : BitVec 12) (v : Byte) (s : State) :
    (hostWrite rest a v s).regsW = s.regsW := rfl

@[simp] theorem hostWrite_regsF (rest : List HostTxn) (a : BitVec 12) (v : Byte) (s : State) :
    (hostWrite rest a v s).regsF = s.regsF := rfl

@[simp] theorem hostWrite_regsS (rest : List HostTxn) (a : BitVec 12) (v : Byte) (s : State) :
    (hostWrite rest a v s).regsS = s.regsS := rfl

@[simp] theorem hostWrite_regsP (rest : List HostTxn) (a : BitVec 12) (v : Byte) (s : State) :
    (hostWrite rest a v s).regsP = s.regsP := rfl

@[simp] theorem hostWrite_status (rest : List HostTxn) (a : BitVec 12) (v : Byte) (s : State) :
    (hostWrite rest a v s).status = s.status := rfl

@[simp] theorem hostWrite_buf (rest : List HostTxn) (a : BitVec 12) (v : Byte) (s : State) :
    (hostWrite rest a v s).buf = writeByte s.buf a.toNat v := rfl

@[simp] theorem hostWrite_idx (rest : List HostTxn) (a : BitVec 12) (v : Byte) (s : State) :
    (hostWrite rest a v s).idx = s.idx := rfl

@[simp] theorem hostWrite_pending (rest : List HostTxn) (a : BitVec 12) (v : Byte) (s : State) :
    (hostWrite rest a v s).pending = rest := rfl

@[simp] theorem hostWrite_hostReads (rest : List HostTxn) (a : BitVec 12) (v : Byte) (s : State) :
    (hostWrite rest a v s).hostReads = s.hostReads := rfl

@[simp] theorem hostWrite_fresh (rest : List HostTxn) (a : BitVec 12) (v : Byte) (s : State) :
    (hostWrite rest a v s).fresh = s.fresh := rfl

/-! ### hostReadByte -/

@[simp] theorem hostReadByte_regsW (rest : List HostTxn) (a : BitVec 12) (s : State) :
    (hostReadByte rest a s).regsW = s.regsW := rfl

@[simp] theorem hostReadByte_regsF (rest : List HostTxn) (a : BitVec 12) (s : State) :
    (hostReadByte rest a s).regsF = s.regsF := rfl

@[simp] theorem hostReadByte_regsS (rest : List HostTxn) (a : BitVec 12) (s : State) :
    (hostReadByte rest a s).regsS = s.regsS := rfl

@[simp] theorem hostReadByte_regsP (rest : List HostTxn) (a : BitVec 12) (s : State) :
    (hostReadByte rest a s).regsP = s.regsP := rfl

@[simp] theorem hostReadByte_status (rest : List HostTxn) (a : BitVec 12) (s : State) :
    (hostReadByte rest a s).status = s.status := rfl

@[simp] theorem hostReadByte_buf (rest : List HostTxn) (a : BitVec 12) (s : State) :
    (hostReadByte rest a s).buf = s.buf := rfl

@[simp] theorem hostReadByte_idx (rest : List HostTxn) (a : BitVec 12) (s : State) :
    (hostReadByte rest a s).idx = s.idx := rfl

@[simp] theorem hostReadByte_pending (rest : List HostTxn) (a : BitVec 12) (s : State) :
    (hostReadByte rest a s).pending = rest := rfl

@[simp] theorem hostReadByte_hostReads (rest : List HostTxn) (a : BitVec 12) (s : State) :
    (hostReadByte rest a s).hostReads = .byte a (readByte s.buf a.toNat) :: s.hostReads := rfl

@[simp] theorem hostReadByte_fresh (rest : List HostTxn) (a : BitVec 12) (s : State) :
    (hostReadByte rest a s).fresh = s.fresh := rfl

/-! ### hostReadStatus -/

@[simp] theorem hostReadStatus_regsW (rest : List HostTxn) (s : State) :
    (hostReadStatus rest s).regsW = s.regsW := rfl

@[simp] theorem hostReadStatus_regsF (rest : List HostTxn) (s : State) :
    (hostReadStatus rest s).regsF = s.regsF := rfl

@[simp] theorem hostReadStatus_regsS (rest : List HostTxn) (s : State) :
    (hostReadStatus rest s).regsS = s.regsS := rfl

@[simp] theorem hostReadStatus_regsP (rest : List HostTxn) (s : State) :
    (hostReadStatus rest s).regsP = s.regsP := rfl

@[simp] theorem hostReadStatus_status (rest : List HostTxn) (s : State) :
    (hostReadStatus rest s).status = s.status := rfl

@[simp] theorem hostReadStatus_buf (rest : List HostTxn) (s : State) :
    (hostReadStatus rest s).buf = s.buf := rfl

@[simp] theorem hostReadStatus_idx (rest : List HostTxn) (s : State) :
    (hostReadStatus rest s).idx = s.idx := rfl

@[simp] theorem hostReadStatus_pending (rest : List HostTxn) (s : State) :
    (hostReadStatus rest s).pending = rest := rfl

@[simp] theorem hostReadStatus_hostReads (rest : List HostTxn) (s : State) :
    (hostReadStatus rest s).hostReads = .status s.status :: s.hostReads := rfl

@[simp] theorem hostReadStatus_fresh (rest : List HostTxn) (s : State) :
    (hostReadStatus rest s).fresh = s.fresh := rfl

/-! ### hostReset -/

@[simp] theorem hostReset_regsW (rest : List HostTxn) (s : State) :
    (hostReset rest s).regsW = State.reset.regsW := rfl

@[simp] theorem hostReset_regsF (rest : List HostTxn) (s : State) :
    (hostReset rest s).regsF = State.reset.regsF := rfl

@[simp] theorem hostReset_regsS (rest : List HostTxn) (s : State) :
    (hostReset rest s).regsS = State.reset.regsS := rfl

@[simp] theorem hostReset_regsP (rest : List HostTxn) (s : State) :
    (hostReset rest s).regsP = State.reset.regsP := rfl

@[simp] theorem hostReset_status (rest : List HostTxn) (s : State) :
    (hostReset rest s).status = State.reset.status := rfl

@[simp] theorem hostReset_buf (rest : List HostTxn) (s : State) :
    (hostReset rest s).buf = State.reset.buf := rfl

@[simp] theorem hostReset_idx (rest : List HostTxn) (s : State) :
    (hostReset rest s).idx = State.reset.idx := rfl

@[simp] theorem hostReset_pending (rest : List HostTxn) (s : State) :
    (hostReset rest s).pending = rest := rfl

@[simp] theorem hostReset_hostReads (rest : List HostTxn) (s : State) :
    (hostReset rest s).hostReads = s.hostReads := rfl

@[simp] theorem hostReset_fresh (rest : List HostTxn) (s : State) :
    (hostReset rest s).fresh = s.fresh + 1 := rfl

/-! ### setW -/

@[simp] theorem setW_regsF (s : State) (i : WReg) (v : Option Word) :
    (setW s i v).regsF = s.regsF := by cases v <;> rfl

@[simp] theorem setW_regsS (s : State) (i : WReg) (v : Option Word) :
    (setW s i v).regsS = s.regsS := by cases v <;> rfl

@[simp] theorem setW_regsP (s : State) (i : WReg) (v : Option Word) :
    (setW s i v).regsP = s.regsP := by cases v <;> rfl

@[simp] theorem setW_status (s : State) (i : WReg) (v : Option Word) :
    (setW s i v).status = s.status := by cases v <;> rfl

@[simp] theorem setW_buf (s : State) (i : WReg) (v : Option Word) :
    (setW s i v).buf = s.buf := by cases v <;> rfl

@[simp] theorem setW_idx (s : State) (i : WReg) (v : Option Word) :
    (setW s i v).idx = s.idx := by cases v <;> rfl

@[simp] theorem setW_pending (s : State) (i : WReg) (v : Option Word) :
    (setW s i v).pending = s.pending := by cases v <;> rfl

@[simp] theorem setW_hostReads (s : State) (i : WReg) (v : Option Word) :
    (setW s i v).hostReads = s.hostReads := by cases v <;> rfl

@[simp] theorem setW_regsW_some (s : State) (i : WReg) (x : Word) :
    (setW s i (some x)).regsW = s.regsW.set i ⟨x, true⟩ := rfl

@[simp] theorem setW_regsW_none (s : State) (i : WReg) :
    (setW s i none).regsW = s.regsW.set i ⟨Config.freeWord s.fresh, false⟩ := rfl

@[simp] theorem setW_fresh_some (s : State) (i : WReg) (x : Word) :
    (setW s i (some x)).fresh = s.fresh := rfl

@[simp] theorem setW_fresh_none (s : State) (i : WReg) :
    (setW s i none).fresh = s.fresh + 1 := rfl

/-! ### setF -/

@[simp] theorem setF_regsW (s : State) (i : FReg) (v : Option Cells) :
    (setF s i v).regsW = s.regsW := by cases v <;> rfl

@[simp] theorem setF_regsS (s : State) (i : FReg) (v : Option Cells) :
    (setF s i v).regsS = s.regsS := by cases v <;> rfl

@[simp] theorem setF_regsP (s : State) (i : FReg) (v : Option Cells) :
    (setF s i v).regsP = s.regsP := by cases v <;> rfl

@[simp] theorem setF_status (s : State) (i : FReg) (v : Option Cells) :
    (setF s i v).status = s.status := by cases v <;> rfl

@[simp] theorem setF_buf (s : State) (i : FReg) (v : Option Cells) :
    (setF s i v).buf = s.buf := by cases v <;> rfl

@[simp] theorem setF_idx (s : State) (i : FReg) (v : Option Cells) :
    (setF s i v).idx = s.idx := by cases v <;> rfl

@[simp] theorem setF_pending (s : State) (i : FReg) (v : Option Cells) :
    (setF s i v).pending = s.pending := by cases v <;> rfl

@[simp] theorem setF_hostReads (s : State) (i : FReg) (v : Option Cells) :
    (setF s i v).hostReads = s.hostReads := by cases v <;> rfl

@[simp] theorem setF_regsF_some (s : State) (i : FReg) (x : Cells) :
    (setF s i (some x)).regsF = s.regsF.set i ⟨x, true⟩ := rfl

@[simp] theorem setF_regsF_none (s : State) (i : FReg) :
    (setF s i none).regsF = s.regsF.set i ⟨Config.freeCells s.fresh, false⟩ := rfl

@[simp] theorem setF_fresh_some (s : State) (i : FReg) (x : Cells) :
    (setF s i (some x)).fresh = s.fresh := rfl

@[simp] theorem setF_fresh_none (s : State) (i : FReg) :
    (setF s i none).fresh = s.fresh + 1 := rfl

/-! ### setS -/

@[simp] theorem setS_regsW (s : State) (i : SReg) (v : Option Scalar) :
    (setS s i v).regsW = s.regsW := by cases v <;> rfl

@[simp] theorem setS_regsF (s : State) (i : SReg) (v : Option Scalar) :
    (setS s i v).regsF = s.regsF := by cases v <;> rfl

@[simp] theorem setS_regsP (s : State) (i : SReg) (v : Option Scalar) :
    (setS s i v).regsP = s.regsP := by cases v <;> rfl

@[simp] theorem setS_status (s : State) (i : SReg) (v : Option Scalar) :
    (setS s i v).status = s.status := by cases v <;> rfl

@[simp] theorem setS_buf (s : State) (i : SReg) (v : Option Scalar) :
    (setS s i v).buf = s.buf := by cases v <;> rfl

@[simp] theorem setS_idx (s : State) (i : SReg) (v : Option Scalar) :
    (setS s i v).idx = s.idx := by cases v <;> rfl

@[simp] theorem setS_pending (s : State) (i : SReg) (v : Option Scalar) :
    (setS s i v).pending = s.pending := by cases v <;> rfl

@[simp] theorem setS_hostReads (s : State) (i : SReg) (v : Option Scalar) :
    (setS s i v).hostReads = s.hostReads := by cases v <;> rfl

@[simp] theorem setS_regsS_some (s : State) (i : SReg) (x : Scalar) :
    (setS s i (some x)).regsS = s.regsS.set i ⟨x, true⟩ := rfl

@[simp] theorem setS_regsS_none (s : State) (i : SReg) :
    (setS s i none).regsS = s.regsS.set i ⟨Config.freeScalar s.fresh, false⟩ := rfl

@[simp] theorem setS_fresh_some (s : State) (i : SReg) (x : Scalar) :
    (setS s i (some x)).fresh = s.fresh := rfl

@[simp] theorem setS_fresh_none (s : State) (i : SReg) :
    (setS s i none).fresh = s.fresh + 1 := rfl

/-! ### setP -/

@[simp] theorem setP_regsW (s : State) (i : PReg) (v : Option Point) :
    (setP s i v).regsW = s.regsW := by cases v <;> rfl

@[simp] theorem setP_regsF (s : State) (i : PReg) (v : Option Point) :
    (setP s i v).regsF = s.regsF := by cases v <;> rfl

@[simp] theorem setP_regsS (s : State) (i : PReg) (v : Option Point) :
    (setP s i v).regsS = s.regsS := by cases v <;> rfl

@[simp] theorem setP_status (s : State) (i : PReg) (v : Option Point) :
    (setP s i v).status = s.status := by cases v <;> rfl

@[simp] theorem setP_buf (s : State) (i : PReg) (v : Option Point) :
    (setP s i v).buf = s.buf := by cases v <;> rfl

@[simp] theorem setP_idx (s : State) (i : PReg) (v : Option Point) :
    (setP s i v).idx = s.idx := by cases v <;> rfl

@[simp] theorem setP_pending (s : State) (i : PReg) (v : Option Point) :
    (setP s i v).pending = s.pending := by cases v <;> rfl

@[simp] theorem setP_hostReads (s : State) (i : PReg) (v : Option Point) :
    (setP s i v).hostReads = s.hostReads := by cases v <;> rfl

@[simp] theorem setP_regsP_some (s : State) (i : PReg) (x : Point) :
    (setP s i (some x)).regsP = s.regsP.set i ⟨x, true⟩ := rfl

@[simp] theorem setP_regsP_none (s : State) (i : PReg) :
    (setP s i none).regsP = s.regsP.set i ⟨Config.freePoint s.fresh, false⟩ := rfl

@[simp] theorem setP_fresh_some (s : State) (i : PReg) (x : Point) :
    (setP s i (some x)).fresh = s.fresh := rfl

@[simp] theorem setP_fresh_none (s : State) (i : PReg) :
    (setP s i none).fresh = s.fresh + 1 := rfl

/-! ### storeBytes -/

@[simp] theorem storeBytes_regsW (s : State) (off : Off12) (k : Nat) (v : Option (List Byte)) :
    (storeBytes s off k v).regsW = s.regsW := by cases v <;> rfl

@[simp] theorem storeBytes_regsF (s : State) (off : Off12) (k : Nat) (v : Option (List Byte)) :
    (storeBytes s off k v).regsF = s.regsF := by cases v <;> rfl

@[simp] theorem storeBytes_regsS (s : State) (off : Off12) (k : Nat) (v : Option (List Byte)) :
    (storeBytes s off k v).regsS = s.regsS := by cases v <;> rfl

@[simp] theorem storeBytes_regsP (s : State) (off : Off12) (k : Nat) (v : Option (List Byte)) :
    (storeBytes s off k v).regsP = s.regsP := by cases v <;> rfl

@[simp] theorem storeBytes_status (s : State) (off : Off12) (k : Nat) (v : Option (List Byte)) :
    (storeBytes s off k v).status = s.status := by cases v <;> rfl

@[simp] theorem storeBytes_idx (s : State) (off : Off12) (k : Nat) (v : Option (List Byte)) :
    (storeBytes s off k v).idx = s.idx := by cases v <;> rfl

@[simp] theorem storeBytes_pending (s : State) (off : Off12) (k : Nat) (v : Option (List Byte)) :
    (storeBytes s off k v).pending = s.pending := by cases v <;> rfl

@[simp] theorem storeBytes_hostReads (s : State) (off : Off12) (k : Nat) (v : Option (List Byte)) :
    (storeBytes s off k v).hostReads = s.hostReads := by cases v <;> rfl

@[simp] theorem storeBytes_fresh (s : State) (off : Off12) (k : Nat) (v : Option (List Byte)) :
    (storeBytes s off k v).fresh = s.fresh := by cases v <;> rfl

@[simp] theorem storeBytes_buf_some (s : State) (off : Off12) (k : Nat) (bs : List Byte) :
    (storeBytes s off k (some bs)).buf = writeBytes s.buf off.toNat bs := rfl

@[simp] theorem storeBytes_buf_none (s : State) (off : Off12) (k : Nat) :
    (storeBytes s off k none).buf = eraseBytes s.buf off.toNat k := rfl

/-! ### inRange -/

/-- A command's range check has two outcomes and no other (R52, R53, R304). -/
theorem inRange_cases (off : Off12) (len : Nat) (s t : State) :
    (off.toNat + len ≤ 4096 ∧ inRange off len s t = t) ∨
      (4096 < off.toNat + len ∧ inRange off len s t = raise .bufRange s) := by
  unfold inRange
  split <;> simp_all

theorem inRange_inside {off : Off12} {len : Nat} (h : off.toNat + len ≤ 4096) (s t : State) :
    inRange off len s t = t := by
  rcases inRange_cases off len s t with ⟨_, e⟩ | ⟨h', _⟩
  · exact e
  · omega

theorem inRange_outside {off : Off12} {len : Nat} (h : 4096 < off.toNat + len) (s t : State) :
    inRange off len s t = raise .bufRange s := by
  rcases inRange_cases off len s t with ⟨h', _⟩ | ⟨_, e⟩
  · omega
  · exact e

end Sys2Proof.Machine
end

