-- ==== Sys2Proof/Laws/Memory.lean ====
section
/-! SUPPORT. The laws of BUF: what a byte reads as after each operation, and that every operation keeps
the canonical form (spec/20_memory.md R50 to R55). -/

namespace Sys2Proof.Machine

/-! ### The canonical form -/

theorem memoryWf_cons {a : Nat} {v : Byte} {m : Memory} :
    memoryWf ((a, v) :: m) = true ↔
      a < 4096 ∧ (∀ c ∈ m, a < c.1) ∧ memoryWf m = true := by
  simp [memoryWf, Config.bufBytes, and_assoc]

/-- Nothing below the first address is listed. -/
theorem readByte_below {m : Memory} {a : Nat} (h : ∀ c ∈ m, a < c.1) : readByte m a = none := by
  cases m with
  | nil => rfl
  | cons c m =>
    obtain ⟨b, v⟩ := c
    have hb : a < b := h (b, v) (by simp)
    simp [readByte, hb, Nat.ne_of_lt hb]

theorem mem_writeByte {m : Memory} {a : Nat} {v : Byte} {c : Host.Cell}
    (h : c ∈ writeByte m a v) : c = (a, v) ∨ c ∈ m := by
  induction m with
  | nil => simpa [writeByte] using h
  | cons d m ih =>
    obtain ⟨b, u⟩ := d
    simp only [writeByte] at h
    split at h
    · rcases List.mem_cons.1 h with rfl | h
      · exact .inl rfl
      · exact .inr (List.mem_cons_of_mem _ h)
    · split at h
      · rcases List.mem_cons.1 h with rfl | h
        · exact .inl rfl
        · exact .inr h
      · rcases List.mem_cons.1 h with rfl | h
        · exact .inr (by simp)
        · rcases ih h with e | e
          · exact .inl e
          · exact .inr (List.mem_cons_of_mem _ e)

theorem mem_eraseByte {m : Memory} {a : Nat} {c : Host.Cell} (h : c ∈ eraseByte m a) : c ∈ m := by
  induction m with
  | nil => simp [eraseByte] at h
  | cons d m ih =>
    obtain ⟨b, u⟩ := d
    simp only [eraseByte] at h
    split at h
    · exact List.mem_cons_of_mem _ h
    · split at h
      · exact h
      · rcases List.mem_cons.1 h with rfl | h
        · simp
        · exact List.mem_cons_of_mem _ (ih h)

/-- A write inside BUF keeps the canonical form (R53). -/
theorem writeByte_wf {m : Memory} {a : Nat} (v : Byte) (ha : a < 4096) (h : memoryWf m = true) :
    memoryWf (writeByte m a v) = true := by
  induction m with
  | nil => simp [writeByte, memoryWf, Config.bufBytes, ha]
  | cons d m ih =>
    obtain ⟨b, u⟩ := d
    obtain ⟨hb, hlt, hm⟩ := memoryWf_cons.1 h
    simp only [writeByte]
    split
    · subst_vars; exact memoryWf_cons.2 ⟨hb, hlt, hm⟩
    · split
      · rename_i hab
        refine memoryWf_cons.2 ⟨ha, fun c hc => ?_, h⟩
        rcases List.mem_cons.1 hc with rfl | hc
        · exact hab
        · exact Nat.lt_trans hab (hlt c hc)
      · refine memoryWf_cons.2 ⟨hb, fun c hc => ?_, ih hm⟩
        rcases mem_writeByte hc with rfl | hc
        · simp only; omega
        · exact hlt c hc

theorem eraseByte_wf {m : Memory} (a : Nat) (h : memoryWf m = true) :
    memoryWf (eraseByte m a) = true := by
  induction m with
  | nil => rfl
  | cons d m ih =>
    obtain ⟨b, u⟩ := d
    obtain ⟨hb, hlt, hm⟩ := memoryWf_cons.1 h
    simp only [eraseByte]
    split
    · exact hm
    · split
      · exact h
      · exact memoryWf_cons.2 ⟨hb, fun c hc => hlt c (mem_eraseByte hc), ih hm⟩

theorem writeBytes_wf {m : Memory} {a : Nat} (bs : List Byte) (ha : a + bs.length ≤ 4096)
    (h : memoryWf m = true) : memoryWf (writeBytes m a bs) = true := by
  induction bs generalizing m a with
  | nil => exact h
  | cons b bs ih =>
    simp only [List.length_cons] at ha
    exact ih (by omega) (writeByte_wf b (by omega) h)

theorem eraseBytes_wf {m : Memory} (a k : Nat) (h : memoryWf m = true) :
    memoryWf (eraseBytes m a k) = true := by
  induction k generalizing m a with
  | zero => exact h
  | succ k ih => exact ih (a + 1) (eraseByte_wf a h)

/-! ### Reading after writing -/

theorem readByte_writeByte_same (m : Memory) (a : Nat) (v : Byte) :
    readByte (writeByte m a v) a = some v := by
  induction m with
  | nil => simp [writeByte, readByte]
  | cons d m ih =>
    obtain ⟨b, u⟩ := d
    simp only [writeByte]
    split
    · simp [readByte]
    · split
      · simp [readByte]
      · simp_all [readByte]

theorem readByte_writeByte_other (m : Memory) {a b : Nat} (v : Byte) (h : b ≠ a) :
    readByte (writeByte m a v) b = readByte m b := by
  induction m with
  | nil => simp [writeByte, readByte, h]
  | cons d m ih =>
    obtain ⟨c, u⟩ := d
    simp only [writeByte]
    split
    · subst_vars; simp [readByte, h]
    · split
      · rename_i hac
        simp only [readByte, h, if_false]
        split
        · have : b ≠ c := by omega
          have : b < c := by omega
          simp [*]
        · rfl
      · simp only [readByte, ih]

theorem readByte_eraseByte_same {m : Memory} (a : Nat) (h : memoryWf m = true) :
    readByte (eraseByte m a) a = none := by
  induction m with
  | nil => rfl
  | cons d m ih =>
    obtain ⟨b, u⟩ := d
    obtain ⟨_, hlt, hm⟩ := memoryWf_cons.1 h
    simp only [eraseByte]
    split
    · subst_vars; exact readByte_below hlt
    · split
      · simp [readByte, *]
      · simp [readByte, *]

theorem readByte_eraseByte_other {m : Memory} {a b : Nat} (h : memoryWf m = true) (hab : b ≠ a) :
    readByte (eraseByte m a) b = readByte m b := by
  induction m with
  | nil => rfl
  | cons d m ih =>
    obtain ⟨c, u⟩ := d
    obtain ⟨_, hlt, hm⟩ := memoryWf_cons.1 h
    simp only [eraseByte]
    split
    · subst_vars
      simp only [readByte, hab, if_false]
      split
      · exact readByte_below fun c hc => Nat.lt_trans ‹_› (hlt c hc)
      · rfl
    · split
      · rfl
      · simp only [readByte, ih hm]

theorem readByte_writeBytes_outside (m : Memory) {a b : Nat} (bs : List Byte)
    (h : b < a ∨ a + bs.length ≤ b) : readByte (writeBytes m a bs) b = readByte m b := by
  induction bs generalizing m a with
  | nil => rfl
  | cons v bs ih =>
    simp only [List.length_cons] at h
    rw [writeBytes, ih _ (by omega), readByte_writeByte_other _ _ (by omega)]

theorem readByte_writeBytes_inside (m : Memory) (a : Nat) (bs : List Byte) (i : Nat)
    (h : i < bs.length) : readByte (writeBytes m a bs) (a + i) = some bs[i] := by
  induction bs generalizing m a i with
  | nil => simp at h
  | cons v bs ih =>
    cases i with
    | zero =>
      rw [writeBytes, readByte_writeBytes_outside _ _ (by omega)]
      exact readByte_writeByte_same _ _ _
    | succ i =>
      have := ih (writeByte m a v) (a + 1) i (by simpa using h)
      simpa [writeBytes, Nat.add_assoc, Nat.add_comm 1] using this

theorem readByte_eraseBytes_outside {m : Memory} {a b k : Nat} (hm : memoryWf m = true)
    (h : b < a ∨ a + k ≤ b) : readByte (eraseBytes m a k) b = readByte m b := by
  induction k generalizing m a with
  | zero => rfl
  | succ k ih =>
    rw [eraseBytes, ih (eraseByte_wf a hm) (by omega), readByte_eraseByte_other hm (by omega)]

theorem readByte_eraseBytes_inside {m : Memory} {a i k : Nat} (hm : memoryWf m = true)
    (h : i < k) : readByte (eraseBytes m a k) (a + i) = none := by
  induction k generalizing m a i with
  | zero => omega
  | succ k ih =>
    rw [eraseBytes]
    cases i with
    | zero =>
      rw [readByte_eraseBytes_outside (eraseByte_wf a hm) (by omega)]
      exact readByte_eraseByte_same a hm
    | succ i =>
      rw [show a + (i + 1) = a + 1 + i by omega]
      exact ih (eraseByte_wf a hm) (by omega)

/-- What was stored is loaded again (R52, R53). -/
theorem readBytes_writeBytes_same (m : Memory) (a : Nat) (bs : List Byte) :
    readBytes (writeBytes m a bs) a bs.length = some bs := by
  induction bs generalizing m a with
  | nil => rfl
  | cons v bs ih =>
    have h0 : readByte (writeBytes (writeByte m a v) (a + 1) bs) a = some v := by
      rw [readByte_writeBytes_outside _ _ (by omega), readByte_writeByte_same]
    simp [writeBytes, readBytes, h0, ih]

/-! ### Little-endian integers -/

@[simp] theorem leBytes_length (k v : Nat) : (leBytes k v).length = k := by
  induction k generalizing v with
  | zero => rfl
  | succ k ih => simp [leBytes, ih]

/-- LE and LEbytes_k are inverse below 256^k (R12). -/
theorem leNat_leBytes (k v : Nat) : leNat (leBytes k v) = v % 256 ^ k := by
  induction k generalizing v with
  | zero => simp [leBytes, leNat, Nat.mod_one]
  | succ k ih =>
    simp only [leBytes, leNat, ih, BitVec.toNat_ofNat]
    rw [show 256 ^ (k + 1) = 256 * 256 ^ k from Nat.pow_succ', Nat.mod_mul (x := v) (a := 256)]

theorem leNat_lt (bs : List Byte) : leNat bs < 256 ^ bs.length := by
  induction bs with
  | nil => simp [leNat]
  | cons b bs ih =>
    have := b.isLt
    simp only [leNat, List.length_cons, Nat.pow_succ']
    omega

theorem leBytes_leNat (bs : List Byte) : leBytes bs.length (leNat bs) = bs := by
  induction bs with
  | nil => rfl
  | cons b bs ih =>
    have hb := b.isLt
    have h1 : BitVec.ofNat 8 (leNat (b :: bs)) = b := by
      apply BitVec.eq_of_toNat_eq
      simp only [leNat, BitVec.toNat_ofNat]
      omega
    have h2 : leNat (b :: bs) / 256 = leNat bs := by simp only [leNat]; omega
    simp only [List.length_cons, leBytes, h1, h2, ih]

end Sys2Proof.Machine
end

