-- ==== Sys2Proof/Machine/Rom.lean ====
section
/-! DEFINITION. The constant storage (spec/10_state.md R32): precomputed windows of 8, 16 or 32 multiples
of G and of its multiples by 2^64, 2^128, 2^192, 2^65, 2^130 and 2^195, and the constants of the
Frobenius map in Montgomery form (spec/41_field_arith.md R138). No command addresses it and
its contents affect no result; it is stated here because the spec gives the engine these constants. -/

namespace Sys2Proof.Machine

/-- The binary logarithms of the multiples of G that have a window (R7, R32). -/
def windowShifts : List Nat := [0, 64, 128, 192, 65, 130, 195]

/-- The sizes of windows (R7, R32). -/
def windowSizes : List Nat := [8, 16, 32]

/-- Entry j (1 <= j <= size) of the window of 2^shift * G holds j * (2^shift * G) (R32). -/
def windowEntry (shift j : Nat) : Point := pointMulBits (pointDouble generator shift) 6 j

/-- The powers c^0, ..., c^18 of the Frobenius constant (R138). -/
def frobeniusPowers : List Nat := (List.range 19).map fun k => frobeniusC ^ k % 9767

/-- The constants of the map a -> a^(p^j), entry k standing for (c^j)^k, held in Montgomery form as the
ROM tables hold them (R138). -/
def frobeniusTable (j : Nat) : Cells :=
  fld (Vector.ofFn fun k => Fin.ofNat 9767 (frobeniusC ^ (j * k % 19)))

/-- The map a -> a^(p^j) on stored cells: cell k is multiplied by entry k of the table, a Montgomery
product (R104, R138). No command exposes it. -/
def cellsFrobenius (j : Nat) (a : Cells) : Cells :=
  Vector.ofFn fun k =>
    BitVec.ofNat 16 (norm (a[k].toNat * (frobeniusTable j)[k].toNat * rinv : Nat))

end Sys2Proof.Machine
end

