-- ==== Sys2Proof/Laws/Montgomery.lean ====
section
/-! SUPPORT. The representatives in [1, 9767] and the Montgomery form (spec/00_scope.md R13, spec/10_state.md
R24): mval and mrep, fval and fld are inverse to each other; the Frobenius tables in that form
(spec/41_field_arith.md R138). -/

namespace Sys2Proof.Machine

/-! ### Numbers -/

theorem norm_range (v : Int) : 1 ≤ norm v ∧ norm v ≤ 9767 := by
  unfold norm; split <;> omega

theorem norm_modEq (v : Int) : (norm v : Int) % 9767 = v % 9767 := by
  unfold norm; split <;> omega

theorem norm_unique {m : Nat} {v : Int} (h1 : 1 ≤ m) (h2 : m ≤ 9767)
    (h : (m : Int) % 9767 = v % 9767) : norm v = m := by
  unfold norm; split <;> omega

theorem mrep_range (v : Nat) : 1 ≤ mrep v ∧ mrep v ≤ 9767 := norm_range _

theorem mval_lt (m : Nat) : mval m < 9767 := Nat.mod_lt _ (by norm_num)

theorem mval_mrep (v : Nat) : mval (mrep v) = v % 9767 := by
  have h := norm_modEq (v * 2 ^ 32 : Nat)
  unfold mval mrep rinv
  push_cast at h ⊢
  omega

theorem mrep_mval {m : Nat} (h1 : 1 ≤ m) (h2 : m ≤ 9767) : mrep (mval m) = m := by
  apply norm_unique h1 h2
  unfold mval rinv
  push_cast
  omega

theorem isStored_iff {a : Word} : isStored a = true ↔ 1 ≤ a.toNat ∧ a.toNat ≤ 9767 := by
  simp [isStored]

theorem toWord_toNat {v : Nat} (h : v ≤ 9767) : (toWord v).toNat = v := by
  rw [toWord, BitVec.toNat_ofNat, Nat.mod_eq_of_lt (by omega)]

/-! ### Field registers -/

theorem cell_toNat {v : Nat} (h : v ≤ 9767) : (BitVec.ofNat 16 v).toNat = v := by
  rw [BitVec.toNat_ofNat, Nat.mod_eq_of_lt (by omega)]

theorem cellsStored_iff {a : Cells} :
    cellsStored a = true ↔ ∀ k : Fin 19, 1 ≤ a[k].toNat ∧ a[k].toNat ≤ 9767 := by
  simp only [cellsStored, List.all_eq_true, Bool.and_eq_true, decide_eq_true_eq,
    Vector.mem_toList_iff]
  constructor
  · intro h k
    exact h _ (Vector.getElem_mem _)
  · intro h x hx
    obtain ⟨k, hk, rfl⟩ := Vector.mem_iff_getElem.1 hx
    exact h ⟨k, hk⟩

theorem fld_cell (a : Gf) (k : Fin 19) : (fld a)[k].toNat = mrep a[k].val := by
  simp only [fld, Fin.getElem_fin, Vector.getElem_ofFn]
  exact cell_toNat (mrep_range _).2

theorem fval_coeff (a : Cells) (k : Fin 19) : (fval a)[k].val = mval a[k].toNat := by
  simp only [fval, Fin.getElem_fin, Vector.getElem_ofFn]
  exact Nat.mod_eq_of_lt (mval_lt _)

/-- What a register holds after a field command is in the range of R24. -/
theorem cellsStored_fld (a : Gf) : cellsStored (fld a) = true := by
  rw [cellsStored_iff]
  intro k
  rw [fld_cell]
  exact mrep_range _

theorem fval_fld (a : Gf) : fval (fld a) = a := by
  refine Vector.ext fun k hk => Fin.ext ?_
  have h := fval_coeff (fld a) ⟨k, hk⟩
  rw [fld_cell, mval_mrep] at h
  simp only [Fin.getElem_fin] at h
  rw [h, Nat.mod_eq_of_lt a[k].isLt]

theorem fld_fval {a : Cells} (h : cellsStored a = true) : fld (fval a) = a := by
  refine Vector.ext fun k hk => BitVec.eq_of_toNat_eq ?_
  have h1 := fld_cell (fval a) ⟨k, hk⟩
  rw [fval_coeff] at h1
  obtain ⟨h2, h3⟩ := cellsStored_iff.1 h ⟨k, hk⟩
  rw [mrep_mval h2 h3] at h1
  exact h1

/-- R24: two stored registers stand for the same element exactly when their cells are equal. -/
theorem fval_inj {a b : Cells} (ha : cellsStored a = true) (hb : cellsStored b = true) :
    fval a = fval b ↔ a = b :=
  ⟨fun h => by rw [← fld_fval ha, ← fld_fval hb, h], fun h => by rw [h]⟩

theorem ofFn_norm_stored (f : Fin 19 → Int) :
    cellsStored (Vector.ofFn fun k => BitVec.ofNat 16 (norm (f k))) = true := by
  rw [cellsStored_iff]
  intro k
  simp only [Fin.getElem_fin, Vector.getElem_ofFn]
  rw [cell_toNat (norm_range _).2]
  exact norm_range _

theorem cellsAdd_stored (a b : Cells) : cellsStored (cellsAdd a b) = true := ofFn_norm_stored _

theorem cellsSub_stored (a b : Cells) : cellsStored (cellsSub a b) = true := ofFn_norm_stored _

theorem cellsNeg_stored (a : Cells) : cellsStored (cellsNeg a) = true := ofFn_norm_stored _

/-- The residue that norm(v) stands for, in Montgomery form. -/
theorem mval_norm {v : Int} {w : Nat} (h : v % 9767 = (w : Int) % 9767) :
    mval (norm v) = mval w := by
  have := norm_modEq v
  unfold mval rinv
  omega

theorem fval_ofFn_norm (f : Fin 19 → Int) (w : Fin 19 → Nat)
    (h : ∀ k, f k % 9767 = (w k : Int) % 9767) (k : Fin 19) :
    (fval (Vector.ofFn fun k => BitVec.ofNat 16 (norm (f k))))[k].val = mval (w k) := by
  rw [fval_coeff]
  simp only [Fin.getElem_fin, Vector.getElem_ofFn]
  rw [cell_toNat (norm_range _).2]
  exact mval_norm (h k)

theorem fval_cellsAdd (a b : Cells) : fval (cellsAdd a b) = gfAdd (fval a) (fval b) := by
  refine Vector.ext fun k hk => Fin.ext ?_
  have h := fval_ofFn_norm (fun k => a[k].toNat + b[k].toNat) (fun k => a[k].toNat + b[k].toNat)
    (fun k => by push_cast; rfl) ⟨k, hk⟩
  have ha := fval_coeff a ⟨k, hk⟩
  have hb := fval_coeff b ⟨k, hk⟩
  simp only [Fin.getElem_fin] at h ha hb
  refine h.trans ?_
  simp only [gfAdd, Vector.getElem_ofFn, Fin.getElem_fin, Fin.val_add, ha, hb]
  unfold mval rinv
  omega

theorem fval_cellsSub (a b : Cells) : fval (cellsSub a b) = gfSub (fval a) (fval b) := by
  refine Vector.ext fun k hk => Fin.ext ?_
  have h := fval_ofFn_norm (fun k => a[k].toNat - b[k].toNat)
    (fun k => a[k].toNat + 9766 * b[k].toNat) (fun k => by push_cast; omega) ⟨k, hk⟩
  have ha := fval_coeff a ⟨k, hk⟩
  have hb := fval_coeff b ⟨k, hk⟩
  simp only [Fin.getElem_fin] at h ha hb
  refine h.trans ?_
  simp only [gfSub, Vector.getElem_ofFn, Fin.getElem_fin, Fin.val_sub, ha, hb]
  unfold mval rinv
  omega

theorem fval_cellsNeg (a : Cells) : fval (cellsNeg a) = gfNeg (fval a) := by
  refine Vector.ext fun k hk => Fin.ext ?_
  have h := fval_ofFn_norm (fun k => 9767 - a[k].toNat)
    (fun k => 9766 * a[k].toNat) (fun k => by push_cast; omega) ⟨k, hk⟩
  have ha := fval_coeff a ⟨k, hk⟩
  simp only [Fin.getElem_fin] at h ha
  refine h.trans ?_
  simp only [gfNeg, Vector.getElem_ofFn, Fin.getElem_fin, Fin.neg_def, ha]
  unfold mval rinv
  omega

/-! ### The Frobenius tables -/

/-- R138: entry k of the table of a -> a^(p^j) stands for (c^j)^k. -/
theorem frobeniusTable_value (j : Nat) (k : Fin 19) :
    (fval (frobeniusTable j))[k] = Fin.ofNat 9767 (frobeniusC ^ (j * k % 19)) := by
  rw [frobeniusTable, fval_fld]
  simp only [Fin.getElem_fin, Vector.getElem_ofFn]

/-- A Montgomery product stands for the product of what the factors stand for. -/
theorem mval_mul (a b : Nat) : mval (a * b * rinv) = mval a * mval b % 9767 := by
  unfold mval
  rw [← Nat.mul_mod, Nat.mul_right_comm a b rinv, Nat.mul_assoc (a * rinv)]

/-- R138: the map on cells is the map on elements. -/
theorem fval_cellsFrobenius (j : Nat) (a : Cells) :
    fval (cellsFrobenius j a) = gfFrobenius j (fval a) := by
  refine Vector.ext fun k hk => Fin.ext ?_
  have h := fval_ofFn_norm
    (fun k => (a[k].toNat * (frobeniusTable j)[k].toNat * rinv : Nat))
    (fun k => a[k].toNat * (frobeniusTable j)[k].toNat * rinv) (fun k => rfl) ⟨k, hk⟩
  rw [mval_mul, ← fval_coeff, ← fval_coeff, frobeniusTable_value] at h
  rw [← Fin.val_mul] at h
  simp only [gfFrobenius, Vector.getElem_ofFn]
  simp only [Fin.getElem_fin] at h ⊢
  rw [cellsFrobenius]
  simp only [Fin.getElem_fin]
  exact h

end Sys2Proof.Machine
end

