-- ==== Sys2Proof/Laws/Operands.lean ====
section
/-! SUPPORT. Reading a register after writing one, in the same file and across files
(spec/10_state.md R21 to R33). -/

namespace Sys2Proof.Machine

/-! ### W -/

/-- A written register reads as what was written, and as indeterminate after an indeterminate write. -/
@[simp] theorem getW_setW_same (s : State) (i : WReg) (v : Option Word) :
    getW (setW s i v) i = v := by
  cases v <;> simp [getW]

/-- The other registers of the file keep their content. -/
theorem regsW_setW_other (s : State) {i j : WReg} (v : Option Word) (h : j ≠ i) :
    (setW s i v).regsW[j] = s.regsW[j] := by
  have h' : i.val ≠ j.val := fun e => h (Fin.ext e.symm)
  cases v <;> simp [h']

theorem getW_setW_other (s : State) {i j : WReg} (v : Option Word) (h : j ≠ i) :
    getW (setW s i v) j = getW s j := by
  simp only [getW, regsW_setW_other s v h]

theorem getW_eq_some {s : State} {i : WReg} {x : Word} :
    getW s i = some x ↔ s.regsW[i].det = true ∧ s.regsW[i].val = x := by
  unfold getW; split <;> simp_all

/-- Reading depends on the register file alone. -/
theorem getW_congr {s t : State} (h : s.regsW = t.regsW) (i : WReg) : getW s i = getW t i := by
  unfold getW; rw [h]

@[simp] theorem getW_setF (s : State) (i : FReg) (v : Option Cells) (j : WReg) :
    getW (setF s i v) j = getW s j := getW_congr (by simp) j

@[simp] theorem getW_setS (s : State) (i : SReg) (v : Option Scalar) (j : WReg) :
    getW (setS s i v) j = getW s j := getW_congr (by simp) j

@[simp] theorem getW_setP (s : State) (i : PReg) (v : Option Point) (j : WReg) :
    getW (setP s i v) j = getW s j := getW_congr (by simp) j

@[simp] theorem getW_storeBytes (s : State) (off : Off12) (k : Nat) (v : Option (List Byte))
    (j : WReg) : getW (storeBytes s off k v) j = getW s j := getW_congr (by simp) j

@[simp] theorem getW_raise (e : EngineError) (s : State) (j : WReg) :
    getW (raise e s) j = getW s j := rfl

@[simp] theorem getW_takeCommand (rest : List HostTxn) (s : State) (j : WReg) :
    getW (takeCommand rest s) j = getW s j := rfl

@[simp] theorem getW_startCommand (rest : List HostTxn) (early : Nat) (s : State) (j : WReg) :
    getW (startCommand rest early s) j = getW s j := rfl

@[simp] theorem getW_endCommand (late : Nat) (s : State) (j : WReg) :
    getW (endCommand late s) j = getW s j := rfl

/-! ### F -/

/-- A written register reads as what was written, and as indeterminate after an indeterminate write. -/
@[simp] theorem getF_setF_same (s : State) (i : FReg) (v : Option Cells) :
    getF (setF s i v) i = v := by
  cases v <;> simp [getF]

/-- The other registers of the file keep their content. -/
theorem regsF_setF_other (s : State) {i j : FReg} (v : Option Cells) (h : j ≠ i) :
    (setF s i v).regsF[j] = s.regsF[j] := by
  have h' : i.val ≠ j.val := fun e => h (Fin.ext e.symm)
  cases v <;> simp [h']

theorem getF_setF_other (s : State) {i j : FReg} (v : Option Cells) (h : j ≠ i) :
    getF (setF s i v) j = getF s j := by
  simp only [getF, regsF_setF_other s v h]

theorem getF_eq_some {s : State} {i : FReg} {x : Cells} :
    getF s i = some x ↔ s.regsF[i].det = true ∧ s.regsF[i].val = x := by
  unfold getF; split <;> simp_all

/-- Reading depends on the register file alone. -/
theorem getF_congr {s t : State} (h : s.regsF = t.regsF) (i : FReg) : getF s i = getF t i := by
  unfold getF; rw [h]

@[simp] theorem getF_setW (s : State) (i : WReg) (v : Option Word) (j : FReg) :
    getF (setW s i v) j = getF s j := getF_congr (by simp) j

@[simp] theorem getF_setS (s : State) (i : SReg) (v : Option Scalar) (j : FReg) :
    getF (setS s i v) j = getF s j := getF_congr (by simp) j

@[simp] theorem getF_setP (s : State) (i : PReg) (v : Option Point) (j : FReg) :
    getF (setP s i v) j = getF s j := getF_congr (by simp) j

@[simp] theorem getF_storeBytes (s : State) (off : Off12) (k : Nat) (v : Option (List Byte))
    (j : FReg) : getF (storeBytes s off k v) j = getF s j := getF_congr (by simp) j

@[simp] theorem getF_raise (e : EngineError) (s : State) (j : FReg) :
    getF (raise e s) j = getF s j := rfl

@[simp] theorem getF_takeCommand (rest : List HostTxn) (s : State) (j : FReg) :
    getF (takeCommand rest s) j = getF s j := rfl

@[simp] theorem getF_startCommand (rest : List HostTxn) (early : Nat) (s : State) (j : FReg) :
    getF (startCommand rest early s) j = getF s j := rfl

@[simp] theorem getF_endCommand (late : Nat) (s : State) (j : FReg) :
    getF (endCommand late s) j = getF s j := rfl

/-! ### S -/

/-- A written register reads as what was written, and as indeterminate after an indeterminate write. -/
@[simp] theorem getS_setS_same (s : State) (i : SReg) (v : Option Scalar) :
    getS (setS s i v) i = v := by
  cases v <;> simp [getS]

/-- The other registers of the file keep their content. -/
theorem regsS_setS_other (s : State) {i j : SReg} (v : Option Scalar) (h : j ≠ i) :
    (setS s i v).regsS[j] = s.regsS[j] := by
  have h' : i.val ≠ j.val := fun e => h (Fin.ext e.symm)
  cases v <;> simp [h']

theorem getS_setS_other (s : State) {i j : SReg} (v : Option Scalar) (h : j ≠ i) :
    getS (setS s i v) j = getS s j := by
  simp only [getS, regsS_setS_other s v h]

theorem getS_eq_some {s : State} {i : SReg} {x : Scalar} :
    getS s i = some x ↔ s.regsS[i].det = true ∧ s.regsS[i].val = x := by
  unfold getS; split <;> simp_all

/-- Reading depends on the register file alone. -/
theorem getS_congr {s t : State} (h : s.regsS = t.regsS) (i : SReg) : getS s i = getS t i := by
  unfold getS; rw [h]

@[simp] theorem getS_setW (s : State) (i : WReg) (v : Option Word) (j : SReg) :
    getS (setW s i v) j = getS s j := getS_congr (by simp) j

@[simp] theorem getS_setF (s : State) (i : FReg) (v : Option Cells) (j : SReg) :
    getS (setF s i v) j = getS s j := getS_congr (by simp) j

@[simp] theorem getS_setP (s : State) (i : PReg) (v : Option Point) (j : SReg) :
    getS (setP s i v) j = getS s j := getS_congr (by simp) j

@[simp] theorem getS_storeBytes (s : State) (off : Off12) (k : Nat) (v : Option (List Byte))
    (j : SReg) : getS (storeBytes s off k v) j = getS s j := getS_congr (by simp) j

@[simp] theorem getS_raise (e : EngineError) (s : State) (j : SReg) :
    getS (raise e s) j = getS s j := rfl

@[simp] theorem getS_takeCommand (rest : List HostTxn) (s : State) (j : SReg) :
    getS (takeCommand rest s) j = getS s j := rfl

@[simp] theorem getS_startCommand (rest : List HostTxn) (early : Nat) (s : State) (j : SReg) :
    getS (startCommand rest early s) j = getS s j := rfl

@[simp] theorem getS_endCommand (late : Nat) (s : State) (j : SReg) :
    getS (endCommand late s) j = getS s j := rfl

/-! ### P -/

/-- A written register reads as what was written, and as indeterminate after an indeterminate write. -/
@[simp] theorem getP_setP_same (s : State) (i : PReg) (v : Option Point) :
    getP (setP s i v) i = v := by
  cases v <;> simp [getP]

/-- The other registers of the file keep their content. -/
theorem regsP_setP_other (s : State) {i j : PReg} (v : Option Point) (h : j ≠ i) :
    (setP s i v).regsP[j] = s.regsP[j] := by
  have h' : i.val ≠ j.val := fun e => h (Fin.ext e.symm)
  cases v <;> simp [h']

theorem getP_setP_other (s : State) {i j : PReg} (v : Option Point) (h : j ≠ i) :
    getP (setP s i v) j = getP s j := by
  simp only [getP, regsP_setP_other s v h]

theorem getP_eq_some {s : State} {i : PReg} {x : Point} :
    getP s i = some x ↔ s.regsP[i].det = true ∧ s.regsP[i].val = x := by
  unfold getP; split <;> simp_all

/-- Reading depends on the register file alone. -/
theorem getP_congr {s t : State} (h : s.regsP = t.regsP) (i : PReg) : getP s i = getP t i := by
  unfold getP; rw [h]

@[simp] theorem getP_setW (s : State) (i : WReg) (v : Option Word) (j : PReg) :
    getP (setW s i v) j = getP s j := getP_congr (by simp) j

@[simp] theorem getP_setF (s : State) (i : FReg) (v : Option Cells) (j : PReg) :
    getP (setF s i v) j = getP s j := getP_congr (by simp) j

@[simp] theorem getP_setS (s : State) (i : SReg) (v : Option Scalar) (j : PReg) :
    getP (setS s i v) j = getP s j := getP_congr (by simp) j

@[simp] theorem getP_storeBytes (s : State) (off : Off12) (k : Nat) (v : Option (List Byte))
    (j : PReg) : getP (storeBytes s off k v) j = getP s j := getP_congr (by simp) j

@[simp] theorem getP_raise (e : EngineError) (s : State) (j : PReg) :
    getP (raise e s) j = getP s j := rfl

@[simp] theorem getP_takeCommand (rest : List HostTxn) (s : State) (j : PReg) :
    getP (takeCommand rest s) j = getP s j := rfl

@[simp] theorem getP_startCommand (rest : List HostTxn) (early : Nat) (s : State) (j : PReg) :
    getP (startCommand rest early s) j = getP s j := rfl

@[simp] theorem getP_endCommand (late : Nat) (s : State) (j : PReg) :
    getP (endCommand late s) j = getP s j := rfl

end Sys2Proof.Machine
end

