-- ==== Sys2Proof/Laws/PerInstr.lean ====
section
/-! SUPPORT. The laws stated once per command. OpField: the op field of the encoded word (bits 31:24,
spec/30_encoding.md R71, R75) is the command's opcode (R76), so op alone selects the command. -/

namespace Sys2Proof.Laws

open Sys2Proof Sys2Proof.Enc

theorem rWord_op (op : Nat) (a b c d e : Fin 16) (h : op < 256) :
    (rWord op a b c d e).toNat / 2 ^ 24 = op := by
  unfold rWord
  rw [BitVec.toNat_ofNat, Nat.mod_eq_of_lt] <;> omega

theorem iWord_op (op : Nat) (a b : Fin 16) (imm : Imm16) (h : op < 256) :
    (iWord op a b imm).toNat / 2 ^ 24 = op := by
  unfold iWord
  rw [BitVec.toNat_ofNat, Nat.mod_eq_of_lt] <;> omega

theorem mWord_op (op : Nat) (a b c : Fin 16) (off : Off12) (h : op < 256) :
    (mWord op a b c off).toNat / 2 ^ 24 = op := by
  unfold mWord
  rw [BitVec.toNat_ofNat, Nat.mod_eq_of_lt] <;> omega

namespace OpField

/-- The op field of the word of i is the opcode of i. -/
def Statement (i : Instr) : Prop := (encode i).toNat / 2 ^ 24 = opcode i

theorem wLi (wd : WReg) (imm : Imm16) : Statement (.wLi wd imm) :=
  iWord_op _ _ _ _ (by norm_num)

theorem wLd (wd : WReg) (off : Off12) : Statement (.wLd wd off) :=
  mWord_op _ _ _ _ _ (by norm_num)

theorem wSt (wa : WReg) (off : Off12) : Statement (.wSt wa off) :=
  mWord_op _ _ _ _ _ (by norm_num)

theorem wMov (wd wa : WReg) : Statement (.wMov wd wa) :=
  rWord_op _ _ _ _ _ _ (by norm_num)

theorem gfGetc (wd : WReg) (fa : FReg) (idx : Imm16) : Statement (.gfGetc wd fa idx) :=
  iWord_op _ _ _ _ (by norm_num)

theorem gfSetc (fd : FReg) (wa : WReg) (idx : Imm16) : Statement (.gfSetc fd wa idx) :=
  iWord_op _ _ _ _ (by norm_num)

theorem gfMov (fd fa : FReg) : Statement (.gfMov fd fa) :=
  rWord_op _ _ _ _ _ _ (by norm_num)

theorem scMov (sd sa : SReg) : Statement (.scMov sd sa) :=
  rWord_op _ _ _ _ _ _ (by norm_num)

theorem pMov (pd pa : PReg) : Statement (.pMov pd pa) :=
  rWord_op _ _ _ _ _ _ (by norm_num)

theorem gfSetzero (fd : FReg) : Statement (.gfSetzero fd) :=
  rWord_op _ _ _ _ _ _ (by norm_num)

theorem gfSetone (fd : FReg) : Statement (.gfSetone fd) :=
  rWord_op _ _ _ _ _ _ (by norm_num)

theorem scSetzero (sd : SReg) : Statement (.scSetzero sd) :=
  rWord_op _ _ _ _ _ _ (by norm_num)

theorem scSetone (sd : SReg) : Statement (.scSetone sd) :=
  rWord_op _ _ _ _ _ _ (by norm_num)

theorem pSetneutral (pd : PReg) : Statement (.pSetneutral pd) :=
  rWord_op _ _ _ _ _ _ (by norm_num)

theorem pSetgen (pd : PReg) : Statement (.pSetgen pd) :=
  rWord_op _ _ _ _ _ _ (by norm_num)

theorem mpAdd (wd wa wb : WReg) : Statement (.mpAdd wd wa wb) :=
  rWord_op _ _ _ _ _ _ (by norm_num)

theorem mpSub (wd wa wb : WReg) : Statement (.mpSub wd wa wb) :=
  rWord_op _ _ _ _ _ _ (by norm_num)

theorem mpFrommonty (wd wa : WReg) : Statement (.mpFrommonty wd wa) :=
  rWord_op _ _ _ _ _ _ (by norm_num)

theorem mpMontymul (wd wa wb : WReg) : Statement (.mpMontymul wd wa wb) :=
  rWord_op _ _ _ _ _ _ (by norm_num)

theorem mpTomonty (wd wa : WReg) : Statement (.mpTomonty wd wa) :=
  rWord_op _ _ _ _ _ _ (by norm_num)

theorem mpInv (wd wa : WReg) : Statement (.mpInv wd wa) :=
  rWord_op _ _ _ _ _ _ (by norm_num)

theorem mpIsQr (wd wa : WReg) : Statement (.mpIsQr wd wa) :=
  rWord_op _ _ _ _ _ _ (by norm_num)

theorem gfAdd (fd fa fb : FReg) : Statement (.gfAdd fd fa fb) :=
  rWord_op _ _ _ _ _ _ (by norm_num)

theorem gfSub (fd fa fb : FReg) : Statement (.gfSub fd fa fb) :=
  rWord_op _ _ _ _ _ _ (by norm_num)

theorem gfNeg (fd fa : FReg) : Statement (.gfNeg fd fa) :=
  rWord_op _ _ _ _ _ _ (by norm_num)

theorem gfCondneg (fd fa : FReg) (wb : WReg) : Statement (.gfCondneg fd fa wb) :=
  rWord_op _ _ _ _ _ _ (by norm_num)

theorem gfMul (fd fa fb : FReg) : Statement (.gfMul fd fa fb) :=
  rWord_op _ _ _ _ _ _ (by norm_num)

theorem gfSqr (fd fa : FReg) : Statement (.gfSqr fd fa) :=
  rWord_op _ _ _ _ _ _ (by norm_num)

theorem gfInv (fd fa : FReg) : Statement (.gfInv fd fa) :=
  rWord_op _ _ _ _ _ _ (by norm_num)

theorem gfSqrt (wd : WReg) (fc fa : FReg) : Statement (.gfSqrt wd fc fa) :=
  rWord_op _ _ _ _ _ _ (by norm_num)

theorem gfIsqr (wd : WReg) (fa : FReg) : Statement (.gfIsqr wd fa) :=
  rWord_op _ _ _ _ _ _ (by norm_num)

theorem gfCubert (fd fa : FReg) : Statement (.gfCubert fd fa) :=
  rWord_op _ _ _ _ _ _ (by norm_num)

theorem gfIsneg (wd : WReg) (fa : FReg) : Statement (.gfIsneg wd fa) :=
  rWord_op _ _ _ _ _ _ (by norm_num)

theorem gfEq (wd : WReg) (fa fb : FReg) : Statement (.gfEq wd fa fb) :=
  rWord_op _ _ _ _ _ _ (by norm_num)

theorem gfEncode (fa : FReg) (off : Off12) : Statement (.gfEncode fa off) :=
  mWord_op _ _ _ _ _ (by norm_num)

theorem gfDecode (wd : WReg) (fd : FReg) (off : Off12) : Statement (.gfDecode wd fd off) :=
  mWord_op _ _ _ _ _ (by norm_num)

theorem gfMaptobase (fd : FReg) (off : Off12) : Statement (.gfMaptobase fd off) :=
  mWord_op _ _ _ _ _ (by norm_num)

theorem scDecodeStrict (wd : WReg) (sd : SReg) (wlen : WReg) (off : Off12) : Statement (.scDecodeStrict wd sd wlen off) :=
  mWord_op _ _ _ _ _ (by norm_num)

theorem scDecodeReduce (sd : SReg) (wlen : WReg) (off : Off12) : Statement (.scDecodeReduce sd wlen off) :=
  mWord_op _ _ _ _ _ (by norm_num)

theorem scEncode (sa : SReg) (off : Off12) : Statement (.scEncode sa off) :=
  mWord_op _ _ _ _ _ (by norm_num)

theorem scAdd (sd sa sb : SReg) : Statement (.scAdd sd sa sb) :=
  rWord_op _ _ _ _ _ _ (by norm_num)

theorem scSub (sd sa sb : SReg) : Statement (.scSub sd sa sb) :=
  rWord_op _ _ _ _ _ _ (by norm_num)

theorem scNeg (sd sa : SReg) : Statement (.scNeg sd sa) :=
  rWord_op _ _ _ _ _ _ (by norm_num)

theorem scMul (sd sa sb : SReg) : Statement (.scMul sd sa sb) :=
  rWord_op _ _ _ _ _ _ (by norm_num)

theorem scIszero (wd : WReg) (sa : SReg) : Statement (.scIszero wd sa) :=
  rWord_op _ _ _ _ _ _ (by norm_num)

theorem scEq (wd : WReg) (sa sb : SReg) : Statement (.scEq wd sa sb) :=
  rWord_op _ _ _ _ _ _ (by norm_num)

theorem scCondcopy (sd sa : SReg) (wb : WReg) : Statement (.scCondcopy sd sa wb) :=
  rWord_op _ _ _ _ _ _ (by norm_num)

theorem scNormalize (sd sa : SReg) : Statement (.scNormalize sd sa) :=
  rWord_op _ _ _ _ _ _ (by norm_num)

theorem scReduceBasisVartime (sa : SReg) (off : Off12) : Statement (.scReduceBasisVartime sa off) :=
  mWord_op _ _ _ _ _ (by norm_num)

theorem pAdd (pd pa pb : PReg) : Statement (.pAdd pd pa pb) :=
  rWord_op _ _ _ _ _ _ (by norm_num)

theorem pNeg (pd pa : PReg) : Statement (.pNeg pd pa) :=
  rWord_op _ _ _ _ _ _ (by norm_num)

theorem pMul2k (pd pa : PReg) (k : Imm16) : Statement (.pMul2k pd pa k) :=
  iWord_op _ _ _ _ (by norm_num)

theorem pMul (pd pa : PReg) (sb : SReg) : Statement (.pMul pd pa sb) :=
  rWord_op _ _ _ _ _ _ (by norm_num)

theorem pMulgen (pd : PReg) (sa : SReg) : Statement (.pMulgen pd sa) :=
  rWord_op _ _ _ _ _ _ (by norm_num)

theorem pMulMulgenAdd (pd pa : PReg) (sb sc : SReg) : Statement (.pMulMulgenAdd pd pa sb sc) :=
  rWord_op _ _ _ _ _ _ (by norm_num)

theorem pVerifyVartime (wd : WReg) (pa : PReg) (sb sc : SReg) (pe : PReg) : Statement (.pVerifyVartime wd pa sb sc pe) :=
  rWord_op _ _ _ _ _ _ (by norm_num)

theorem pEncode (pa : PReg) (off : Off12) : Statement (.pEncode pa off) :=
  mWord_op _ _ _ _ _ (by norm_num)

theorem pDecode (wd : WReg) (pd : PReg) (off : Off12) : Statement (.pDecode wd pd off) :=
  mWord_op _ _ _ _ _ (by norm_num)

theorem pEncodeX (pa : PReg) (off : Off12) : Statement (.pEncodeX pa off) :=
  mWord_op _ _ _ _ _ (by norm_num)

theorem pIsneutral (wd : WReg) (pa : PReg) : Statement (.pIsneutral wd pa) :=
  rWord_op _ _ _ _ _ _ (by norm_num)

end OpField

end Sys2Proof.Laws
end

