-- ==== Sys2Proof/Laws/Step.lean ====
section
/-! SUPPORT. Everything a command can do, said once: exec_cases. A command writes registers or stores bytes,
raises an engine error, or changes nothing; later proofs cite this instead of unfolding the sixty
meanings. -/

namespace Sys2Proof.Machine

/-- The effects a command can have on a state. -/
inductive CommandEffect (s : State) : State → Prop where
  | none : CommandEffect s s
  | writeW (i v) : CommandEffect s (setW s i v)
  | writeF (i v) : CommandEffect s (setF s i v)
  | writeS (i v) : CommandEffect s (setS s i v)
  | writeP (i v) : CommandEffect s (setP s i v)
  | writeWF (i v j u) : CommandEffect s (setF (setW s i v) j u)
  | writeWS (i v j u) : CommandEffect s (setS (setW s i v) j u)
  | writeWP (i v j u) : CommandEffect s (setP (setW s i v) j u)
  | store (off len bytes) : CommandEffect s (storeBytes s off len bytes)

/-- A command answers a next state: its effect, or IllegalCommand, or its effect behind a range check. -/
theorem exec_cases (i : Instr) (s : State) : ∃ t, CommandEffect s t ∧
    (exec i s = .next t ∨ exec i s = .next (raise .illegalCommand s) ∨
      ∃ off len, exec i s = .next (inRange off len s t)) := by
  cases i
  case scDecodeStrict wd sd wlen off =>
    simp only [exec, execScDecodeStrict]
    cases byteLength s wlen <;> simp only [inLengthRange]
    · exact ⟨_, .writeWS _ _ _ _, .inl rfl⟩
    · exact ⟨_, .writeWS _ _ _ _, .inr (.inr ⟨_, _, rfl⟩)⟩
  case scDecodeReduce sd wlen off =>
    simp only [exec, execScDecodeReduce]
    cases byteLength s wlen <;> simp only [inLengthRange]
    · exact ⟨_, .writeS _ _, .inl rfl⟩
    · exact ⟨_, .writeS _ _, .inr (.inr ⟨_, _, rfl⟩)⟩
  case gfGetc wd fa idx =>
    simp only [exec, execGfGetc]
    split
    · exact ⟨_, .writeW _ _, .inl rfl⟩
    · exact ⟨s, .none, .inr (.inl rfl)⟩
  case gfSetc wd fa idx =>
    simp only [exec, execGfSetc]
    split
    · exact ⟨_, .writeF _ _, .inl rfl⟩
    · exact ⟨s, .none, .inr (.inl rfl)⟩
  case scCondcopy sd sa wb =>
    simp only [exec, execScCondcopy]
    repeat' split
    all_goals first | exact ⟨_, .writeS _ _, .inl rfl⟩ | exact ⟨s, .none, .inl rfl⟩
  all_goals first
    | exact ⟨_, .writeW _ _, .inl rfl⟩
    | exact ⟨_, .writeF _ _, .inl rfl⟩
    | exact ⟨_, .writeS _ _, .inl rfl⟩
    | exact ⟨_, .writeP _ _, .inl rfl⟩
    | exact ⟨_, .writeWF _ _ _ _, .inl rfl⟩
    | exact ⟨_, .store _ _ _, .inr (.inr ⟨_, _, rfl⟩)⟩
    | exact ⟨_, .writeW _ _, .inr (.inr ⟨_, _, rfl⟩)⟩
    | exact ⟨_, .writeF _ _, .inr (.inr ⟨_, _, rfl⟩)⟩
    | exact ⟨_, .writeS _ _, .inr (.inr ⟨_, _, rfl⟩)⟩
    | exact ⟨_, .writeWF _ _ _ _, .inr (.inr ⟨_, _, rfl⟩)⟩
    | exact ⟨_, .writeWS _ _ _ _, .inr (.inr ⟨_, _, rfl⟩)⟩
    | exact ⟨_, .writeWP _ _ _ _, .inr (.inr ⟨_, _, rfl⟩)⟩

theorem CommandEffect.control {s t : State} (h : CommandEffect s t) :
    t.status = s.status ∧ t.idx = s.idx ∧ t.pending = s.pending ∧ t.hostReads = s.hostReads := by
  cases h <;> simp

/-- Every command completes: it answers a next state that keeps everything the host handed over, and
STATUS too unless the command raised an engine error. -/
theorem exec_next (i : Instr) (s : State) : ∃ t, exec i s = .next t ∧ t.idx = s.idx ∧
    t.pending = s.pending ∧ t.hostReads = s.hostReads ∧
    (t.status = s.status ∨ ∃ e, t = raise e s) := by
  obtain ⟨t, ht, h⟩ := exec_cases i s
  obtain ⟨h1, h2, h3, h4⟩ := ht.control
  obtain h | h | ⟨off, len, h⟩ := h
  · exact ⟨t, h, h2, h3, h4, .inl h1⟩
  · exact ⟨_, h, rfl, rfl, rfl, .inr ⟨_, rfl⟩⟩
  · refine ⟨_, h, ?_⟩
    unfold inRange
    split
    · exact ⟨rfl, rfl, rfl, .inr ⟨_, rfl⟩⟩
    · exact ⟨h2, h3, h4, .inl h1⟩

/-! ### A step on an issued word -/

/-- R305: a word issued in the error state is discarded. -/
theorem step_issue_discarded {s : State} {w : BitVec 32} {early late : Nat} {rest : List HostTxn}
    (hp : s.pending = .issue w early late :: rest) (he : inError s = true) :
    step s = .next (discardCommand rest (early + late) s) := by
  simp [step, hp, he]

/-- R303: an illegal word raises IllegalCommand. -/
theorem step_issue_illegal {s : State} {w : BitVec 32} {early late : Nat} {rest : List HostTxn}
    {e : DecodeError} (hp : s.pending = .issue w early late :: rest) (he : inError s = false)
    (hd : decode w = .error e) :
    step s = .next (endCommand late (raise .illegalCommand (startCommand rest early s))) := by
  simp [step, hp, he, hd, finishCommand]

/-- R320 item 1: a legal word is executed between the setting and the clearing of BUSY. -/
theorem step_issue_legal {s : State} {w : BitVec 32} {early late : Nat} {rest : List HostTxn}
    {i : Instr} (hp : s.pending = .issue w early late :: rest) (he : inError s = false)
    (hd : decode w = .ok i) :
    step s = finishCommand late (exec i (startCommand rest early s)) := by
  simp [step, hp, he, hd]

@[simp] theorem statusBusy_setBusy (st : BitVec 32) : statusBusy (statusSetBusy st) = true := by
  simp [statusBusy, statusSetBusy]

@[simp] theorem statusBusy_clearBusy (st : BitVec 32) : statusBusy (statusClearBusy st) = false := by
  simp [statusBusy, statusClearBusy]

@[simp] theorem statusErr_setBusy (st : BitVec 32) : statusErr (statusSetBusy st) = statusErr st := by
  simp [statusErr, statusSetBusy]

@[simp] theorem statusErr_clearBusy (st : BitVec 32) :
    statusErr (statusClearBusy st) = statusErr st := by
  simp [statusErr, statusClearBusy]

@[simp] theorem statusCause_setBusy (st : BitVec 32) :
    statusCause (statusSetBusy st) = statusCause st := by
  ext i hi
  interval_cases i <;> simp [statusCause, statusSetBusy]

@[simp] theorem statusCause_clearBusy (st : BitVec 32) :
    statusCause (statusClearBusy st) = statusCause st := by
  ext i hi
  interval_cases i <;> simp [statusCause, statusClearBusy]

/-! ### Engine errors -/

/-- R304 on STATUS: ERR set, CAUSE replaced, BUSY and the reserved bits kept. -/
theorem raise_result (e : EngineError) (s : State) : RaiseResult s (raise e s) (causeCode e) := by
  refine ⟨rfl, ?_, ?_, ?_, ?_⟩
  · cases e <;> simp [raise, statusRaise, causeCode, statusErr]
  · ext i hi
    interval_cases i <;> cases e <;> simp [raise, statusRaise, causeCode, statusCause]
  · cases e <;> simp [raise, statusRaise, causeCode, statusBusy]
  · ext i hi
    interval_cases i <;> cases e <;> simp [raise, statusRaise, causeCode, statusReserved]

end Sys2Proof.Machine
end

