-- ==== Sys2Proof/Tests/Slice0.lean ====
section
/-! SUPPORT. Tests: expected values are those of spec/95_test_vectors.md or of the rule a comment names. Then
one witness per obligation with hypotheses: a state and operands that meet them together. -/

namespace Sys2Proof.Tests

open Sys2Proof Sys2Proof.Machine

set_option Elab.async false

/-! ### WellFormed -/

/-- R73, R77 item 4: the index ends at 18. -/
theorem test_index_19_is_ill_formed :
    (Instr.gfGetc 0 0 18).wellFormed = true ∧ (Instr.gfGetc 0 0 19).wellFormed = false ∧
    (Instr.gfSetc 0 0 18).wellFormed = true ∧ (Instr.gfSetc 0 0 19).wellFormed = false ∧
    (Instr.gfSetc 0 0 65535).wellFormed = false := by decide

/-! ### Decoding: one word per command, fields 10, 5, 12, 3, 6, assembled by hand from R75 and R76 -/

theorem test_decode_moves_and_constants :
    decode 0x01A0A53C = .ok (.wLi 10 42300) ∧
    decode 0x02A00ABD = .ok (.wLd 10 2749) ∧
    decode 0x03A00ABD = .ok (.wSt 10 2749) ∧
    decode 0x04A50000 = .ok (.wMov 10 5) ∧
    decode 0x05A50012 = .ok (.gfGetc 10 5 18) ∧
    decode 0x06A50012 = .ok (.gfSetc 10 5 18) ∧
    decode 0x07A50000 = .ok (.gfMov 10 5) ∧
    decode 0x08A50000 = .ok (.scMov 10 5) ∧
    decode 0x09A50000 = .ok (.pMov 10 5) ∧
    decode 0x0AA00000 = .ok (.gfSetzero 10) ∧
    decode 0x0BA00000 = .ok (.gfSetone 10) ∧
    decode 0x0CA00000 = .ok (.scSetzero 10) ∧
    decode 0x0DA00000 = .ok (.scSetone 10) ∧
    decode 0x0EA00000 = .ok (.pSetneutral 10) ∧
    decode 0x0FA00000 = .ok (.pSetgen 10) := by decide +kernel

theorem test_decode_base_field :
    decode 0x10A5C000 = .ok (.mpAdd 10 5 12) ∧
    decode 0x11A5C000 = .ok (.mpSub 10 5 12) ∧
    decode 0x12A50000 = .ok (.mpFrommonty 10 5) ∧
    decode 0x13A5C000 = .ok (.mpMontymul 10 5 12) ∧
    decode 0x14A50000 = .ok (.mpTomonty 10 5) ∧
    decode 0x15A50000 = .ok (.mpInv 10 5) ∧
    decode 0x16A50000 = .ok (.mpIsQr 10 5) := by decide +kernel

theorem test_decode_field :
    decode 0x20A5C000 = .ok (.gfAdd 10 5 12) ∧
    decode 0x21A5C000 = .ok (.gfSub 10 5 12) ∧
    decode 0x22A50000 = .ok (.gfNeg 10 5) ∧
    decode 0x23A5C000 = .ok (.gfCondneg 10 5 12) ∧
    decode 0x24A5C000 = .ok (.gfMul 10 5 12) ∧
    decode 0x25A50000 = .ok (.gfSqr 10 5) ∧
    decode 0x26A50000 = .ok (.gfInv 10 5) ∧
    decode 0x27A5C000 = .ok (.gfSqrt 10 5 12) ∧
    decode 0x28A50000 = .ok (.gfIsqr 10 5) ∧
    decode 0x29A50000 = .ok (.gfCubert 10 5) ∧
    decode 0x2AA50000 = .ok (.gfIsneg 10 5) ∧
    decode 0x2BA5C000 = .ok (.gfEq 10 5 12) ∧
    decode 0x30A00ABD = .ok (.gfEncode 10 2749) ∧
    decode 0x31A50ABD = .ok (.gfDecode 10 5 2749) ∧
    decode 0x32A00ABD = .ok (.gfMaptobase 10 2749) := by decide +kernel

theorem test_decode_scalar :
    decode 0x40A5CABD = .ok (.scDecodeStrict 10 5 12 2749) ∧
    decode 0x41A50ABD = .ok (.scDecodeReduce 10 5 2749) ∧
    decode 0x42A00ABD = .ok (.scEncode 10 2749) ∧
    decode 0x43A5C000 = .ok (.scAdd 10 5 12) ∧
    decode 0x44A5C000 = .ok (.scSub 10 5 12) ∧
    decode 0x45A50000 = .ok (.scNeg 10 5) ∧
    decode 0x46A5C000 = .ok (.scMul 10 5 12) ∧
    decode 0x47A50000 = .ok (.scIszero 10 5) ∧
    decode 0x48A5C000 = .ok (.scEq 10 5 12) ∧
    decode 0x49A5C000 = .ok (.scCondcopy 10 5 12) ∧
    decode 0x4AA50000 = .ok (.scNormalize 10 5) ∧
    decode 0x4BA00ABD = .ok (.scReduceBasisVartime 10 2749) := by decide +kernel

theorem test_decode_point :
    decode 0x50A5C000 = .ok (.pAdd 10 5 12) ∧
    decode 0x51A50000 = .ok (.pNeg 10 5) ∧
    decode 0x52A5A53C = .ok (.pMul2k 10 5 42300) ∧
    decode 0x53A5C000 = .ok (.pMul 10 5 12) ∧
    decode 0x54A50000 = .ok (.pMulgen 10 5) ∧
    decode 0x55A5C300 = .ok (.pMulMulgenAdd 10 5 12 3) ∧
    decode 0x56A5C360 = .ok (.pVerifyVartime 10 5 12 3 6) ∧
    decode 0x57A00ABD = .ok (.pEncode 10 2749) ∧
    decode 0x58A50ABD = .ok (.pDecode 10 5 2749) ∧
    decode 0x59A00ABD = .ok (.pEncodeX 10 2749) ∧
    decode 0x5AA50000 = .ok (.pIsneutral 10 5) := by decide +kernel

/-- Bit by bit, from the formats of R71: op, r1, r2, r3, r4, r5, zeros; op, r1, r2, imm16; op, r1, r2, r3,
off12. -/
theorem test_decode_bit_by_bit :
    decode 0b01010110_0011_0000_0100_0011_0001_0000 = .ok (.pVerifyVartime 3 0 4 3 1) ∧
    decode 0b00010011_0100_0011_0011_0000_0000_0000 = .ok (.mpMontymul 4 3 3) ∧
    decode 0b00100000_0001_0010_0011_0000_0000_0000 = .ok (.gfAdd 1 2 3) ∧
    decode 0b00000101_0000_0000_0000000000010010 = .ok (.gfGetc 0 0 18) ∧
    decode 0b01000000_0000_0000_0001_000000000000 = .ok (.scDecodeStrict 0 0 1 0) := by decide +kernel

/-! ### One step on small states -/

/-- W registers i set to v, from reset. -/
def wordState (l : List (Fin 16 × Nat)) : State :=
  l.foldl (fun s p => setW s p.1 (some (BitVec.ofNat 32 p.2))) State.reset

/-- Bytes of BUF from an address on, over a state. -/
def withBytes (s : State) (a : Nat) (bs : List Byte) : State :=
  { s with buf := writeBytes s.buf a bs }

/-- F registers i set to the element with these coefficients, from reset. -/
def fieldState (l : List (Fin 16 × List Nat)) : State :=
  l.foldl (fun s p => setF s p.1 (some (fld (gfOf p.2)))) State.reset

/-- S registers i set to v, from reset. -/
def scalarState (l : List (Fin 16 × Nat)) : State :=
  l.foldl (fun s p => setS s p.1 (some (Fin.ofNat n p.2))) State.reset

/-- P registers i set to v, from reset. -/
def pointState (l : List (Fin 16 × Point)) : State :=
  l.foldl (fun s p => setP s p.1 (some p.2)) State.reset

/-- What a command leaves, read by f. -/
def seen {α : Type} (f : State → α) (i : Instr) (s : State) : Option α :=
  match exec i s with
  | .next s' => some (f s')
  | _ => none

/-- W[0] after a command, as a number. -/
def w0 (i : Instr) (s : State) : Option (Option Nat) :=
  seen (fun s' => (getW s' 0).map (·.toNat)) i s

/-- The integer coefficients of F[0] after a command. -/
def f0 (i : Instr) (s : State) : Option (Option (List Nat)) :=
  seen (fun s' => (getF s' 0).map fun c => gfCoeffs (fval c)) i s

/-- S[0] after a command. -/
def s0 (i : Instr) (s : State) : Option (Option Nat) := seen (fun s' => (getS s' 0).map (·.val)) i s

/-- P[0] after a command. -/
def p0 (i : Instr) (s : State) : Option (Option Point) := seen (fun s' => getP s' 0) i s

/-- len bytes from an address on after a command. -/
def bytesAfter (a len : Nat) (i : Instr) (s : State) : Option (Option (List Byte)) :=
  seen (fun s' => readBytes s'.buf a len) i s

/-- STATUS after a command. -/
def statusAfter (i : Instr) (s : State) : Option Nat := seen (fun s' => s'.status.toNat) i s

/-- c * z^k as coefficients. -/
def mono (c k : Nat) : List Nat := (List.replicate k 0 ++ [c] ++ List.replicate (18 - k) 0)

/-- Y1, Y2, Y4. -/
theorem test_w_li_ld : w0 (.wLi 0 65535) State.reset = some (some 65535) ∧
    w0 (.wLd 0 8) (withBytes State.reset 8 [0x0E, 0x1C, 0x00, 0x00]) = some (some 7182) ∧
    statusAfter (.wLd 0 4092) State.reset = some 0 ∧
    statusAfter (.wLd 0 4093) State.reset = some 0x22 := by decide +kernel

/-- Y3, X13. -/
theorem test_w_st :
    bytesAfter 96 4 (.wSt 3 96) (wordState [(3, 0x12345678)]) =
      some (some [0x78, 0x56, 0x34, 0x12]) ∧
    statusAfter (.wSt 3 4093) (wordState [(3, 1)]) = some 0x22 := by decide +kernel

/-- R243, R247, R248, R249. -/
theorem test_moves : w0 (.wMov 0 3) (wordState [(3, 9767)]) = some (some 9767) ∧
    f0 (.gfMov 0 2) (fieldState [(2, mono 3 5)]) = some (some (mono 3 5)) ∧
    s0 (.scMov 0 2) (scalarState [(2, 77)]) = some (some 77) ∧
    p0 (.pMov 0 2) (pointState [(2, generator)]) = some (some generator) := by decide +kernel

/-- Y5. -/
theorem test_gf_getc : w0 (.gfGetc 0 1 0) (fieldState [(1, [1])]) = some (some 7182) ∧
    w0 (.gfGetc 0 1 18) (fieldState [(1, [1])]) = some (some 9767) := by decide +kernel

/-- Y6, Y7. -/
theorem test_gf_setc :
    f0 (.gfSetc 0 1 14) (setW (fieldState [(0, [])]) 1 (some 5183)) = some (some (mono 32 14)) ∧
    f0 (.gfSetc 0 1 3) (setW (fieldState [(0, [])]) 1 (some 9768)) = some none ∧
    f0 (.gfSetc 0 1 3) (setW (fieldState [(0, [])]) 1 (some 0)) = some none := by decide +kernel

/-- R250 to R255: the stored cells, the scalars, the points. -/
theorem test_constants :
    seen (fun s => (getF s 0).map (·.toList)) (.gfSetzero 0) State.reset =
      some (some (List.replicate 19 9767)) ∧
    seen (fun s => (getF s 0).map (·.toList)) (.gfSetone 0) State.reset =
      some (some (7182 :: List.replicate 18 9767)) ∧
    s0 (.scSetzero 0) State.reset = some (some 0) ∧ s0 (.scSetone 0) State.reset = some (some 1) ∧
    p0 (.pSetneutral 0) State.reset = some (some .neutral) ∧
    p0 (.pSetgen 0) State.reset =
      some (some (.affine (gfOf []) (gfOf (mono 32 14)))) := by decide +kernel

/-- B2, B4, B5. -/
theorem test_mp_add : w0 (.mpAdd 0 1 2) (wordState [(1, 9767), (2, 9767)]) = some (some 9767) ∧
    w0 (.mpAdd 0 1 2) (wordState [(1, 9766), (2, 2)]) = some (some 1) ∧
    w0 (.mpAdd 0 1 2) (wordState [(1, 0), (2, 5)]) = some none := by decide +kernel

/-- B6, B7, B8. -/
theorem test_mp_sub : w0 (.mpSub 0 1 2) (wordState [(1, 9767), (2, 7182)]) = some (some 2585) ∧
    w0 (.mpSub 0 1 2) (wordState [(1, 5), (2, 5)]) = some (some 9767) ∧
    w0 (.mpSub 0 1 2) (wordState [(1, 1), (2, 9767)]) = some (some 1) := by decide +kernel

/-- B11 to B15. -/
theorem test_mp_frommonty : w0 (.mpFrommonty 0 1) (wordState [(1, 1)]) = some (some 8267) ∧
    w0 (.mpFrommonty 0 1) (wordState [(1, 3654952486)]) = some (some 2356) ∧
    w0 (.mpFrommonty 0 1) (wordState [(1, 3654952487)]) = some none ∧
    w0 (.mpFrommonty 0 1) (wordState [(1, 0)]) = some none ∧
    w0 (.mpFrommonty 0 1) (wordState [(1, 3529588693)]) = some (some 9767) := by decide +kernel

/-- B16, B18, B19. -/
theorem test_mp_montymul :
    w0 (.mpMontymul 0 1 2) (wordState [(1, 4597), (2, 2012)]) = some (some 4024) ∧
    w0 (.mpMontymul 0 1 1) (wordState [(1, 5183)]) = some (some 9584) ∧
    w0 (.mpMontymul 0 1 1) (wordState [(1, 65536)]) = some none := by decide +kernel

/-- B20 to B24. -/
theorem test_mp_tomonty : w0 (.mpTomonty 0 1) (wordState [(1, 0)]) = some (some 9767) ∧
    w0 (.mpTomonty 0 1) (wordState [(1, 2048)]) = some (some 9401) ∧
    w0 (.mpTomonty 0 1) (wordState [(1, 2278869)]) = some (some 1782) ∧
    w0 (.mpTomonty 0 1) (wordState [(1, 2278870)]) = some none := by decide +kernel

/-- B25 to B28. -/
theorem test_mp_inv : w0 (.mpInv 0 1) (wordState [(1, 4597)]) = some (some 3591) ∧
    w0 (.mpInv 0 1) (wordState [(1, 9767)]) = some (some 9767) ∧
    w0 (.mpInv 0 1) (wordState [(1, 5183)]) = some (some 9381) ∧
    w0 (.mpInv 0 1) (wordState [(1, 2585)]) = some (some 2585) := by decide +kernel

/-- B29 to B31. -/
theorem test_mp_is_qr : w0 (.mpIsQr 0 1) (wordState [(1, 9767)]) = some (some 9767) ∧
    w0 (.mpIsQr 0 1) (wordState [(1, 4597)]) = some (some 7182) ∧
    w0 (.mpIsQr 0 1) (wordState [(1, 6609)]) = some (some 2585) := by decide +kernel

/-- The element a of section 3. -/
def vecA : List Nat := [5, 53, 175, 371, 641, 985, 1403, 1895, 2461, 3101, 3815, 4603, 5465, 6401, 7411,
  8495, 9653, 1118, 2424]

/-- The element b of section 3. -/
def vecB : List Nat := [3, 111, 825, 2751, 6495, 2896, 2327, 5394, 2936, 5326, 3403, 7540, 8576, 7117,
  3769, 8905, 3597, 7985, 3141]

/-- F[1] = a, F[2] = b. -/
def stateAB : State := fieldState [(1, vecA), (2, vecB)]

/-- F1, F2. -/
theorem test_gf_add_sub : f0 (.gfAdd 0 1 2) stateAB = some (some [8, 164, 1000, 3122, 7136, 3881, 3730,
      7289, 5397, 8427, 7218, 2376, 4274, 3751, 1413, 7633, 3483, 9103, 5565]) ∧
    f0 (.gfSub 0 1 2) stateAB = some (some [2, 9709, 9117, 7387, 3913, 7856, 8843, 6268, 9292, 7542,
      412, 6830, 6656, 9051, 3642, 9357, 6056, 2900, 9050]) := by decide +kernel

/-- F2n, F11, F13. -/
theorem test_gf_neg_condneg : f0 (.gfNeg 0 1) stateAB = some (some [9762, 9714, 9592, 9396, 9126, 8782,
      8364, 7872, 7306, 6666, 5952, 5164, 4302, 3366, 2356, 1272, 114, 8649, 7343]) ∧
    seen (fun s => (getF s 0).map (·.toList)) (.gfNeg 0 1) (fieldState [(1, [])]) =
      some (some (List.replicate 19 9767)) ∧
    f0 (.gfCondneg 0 1 5) (setW stateAB 5 (some 0)) = some (some vecA) ∧
    f0 (.gfCondneg 0 1 5) (setW stateAB 5 (some 1)) = f0 (.gfNeg 0 1) stateAB ∧
    f0 (.gfCondneg 0 1 5) (setW stateAB 5 (some 2)) = some none := by decide +kernel

/-- F3. -/
theorem test_gf_mul : f0 (.gfMul 0 1 2) stateAB = some (some [9371, 6514, 2132, 2253, 2708, 2479, 1504,
    2473, 6848, 5107, 280, 6175, 760, 740, 3387, 730, 7503, 5181, 7211]) := by decide +kernel

/-- F4. -/
theorem test_gf_sqr : f0 (.gfSqr 0 1) stateAB = some (some [6115, 6980, 6427, 7090, 5809, 7688, 1085,
    971, 4386, 4497, 4656, 3157, 7294, 8351, 5427, 9727, 18, 5056, 440]) := by decide +kernel

/-- F12. -/
theorem test_gf_inv : f0 (.gfInv 0 1) (fieldState [(1, mono 1 1)]) = some (some (mono 4884 18)) := by
  decide +kernel

/-- F9. -/
theorem test_gf_isneg : w0 (.gfIsneg 0 1) stateAB = some (some 0) ∧
    w0 (.gfIsneg 0 1) (fieldState [(1, [])]) = some (some 0) ∧
    w0 (.gfIsneg 0 1) (fieldState [(1, [4883])]) = some (some 0) ∧
    w0 (.gfIsneg 0 1) (fieldState [(1, [4884])]) = some (some 1) ∧
    w0 (.gfIsneg 0 1) (fieldState [(1, [9766, 1])]) = some (some 0) := by decide +kernel

/-- F10. -/
theorem test_gf_eq : w0 (.gfEq 0 1 1) stateAB = some (some 1) ∧
    w0 (.gfEq 0 1 2) stateAB = some (some 0) := by decide +kernel

/-- The bytes of vector E1. -/
def bytesE1 : List Byte := [0x05, 0xA8, 0xC1, 0x2B, 0x00, 0x73, 0x09, 0x54, 0xF6, 0x00, 0x7B, 0x3D, 0x7B,
  0x67, 0x32, 0x1D, 0x3C, 0xF7, 0x7E, 0x70, 0x59, 0x0D, 0xC8, 0x3C, 0xB9, 0x2F, 0xA9, 0xAD, 0x17,
  0x31, 0x78, 0x09]

/-- E1, X14. -/
theorem test_gf_encode : bytesAfter 64 32 (.gfEncode 1 64) stateAB = some (some bytesE1) ∧
    statusAfter (.gfEncode 1 4064) stateAB = some 0 ∧
    statusAfter (.gfEncode 1 4065) stateAB = some 0x22 := by decide +kernel

/-- E6, E7, E8, E11: F[0] and W[0]. -/
theorem test_gf_decode :
    f0 (.gfDecode 0 0 9) (withBytes State.reset 9 bytesE1) = some (some vecA) ∧
    w0 (.gfDecode 0 0 9) (withBytes State.reset 9 bytesE1) = some (some 1) ∧
    w0 (.gfDecode 0 0 0) (withBytes State.reset 0
      ([0x27, 0x06, 0x00, 0x00, 0x08] ++ List.replicate 27 0)) = some (some 0) ∧
    f0 (.gfDecode 0 0 0) (withBytes State.reset 0
      ([0x00, 0x00, 0x00, 0x00, 0xFA] ++ List.replicate 27 0)) = some none ∧
    f0 (.gfDecode 0 0 0) (withBytes State.reset 0 (List.replicate 31 0 ++ [0xC0])) =
      some (some (List.replicate 19 0)) := by decide +kernel

/-- E14, X15. -/
theorem test_gf_maptobase :
    f0 (.gfMaptobase 0 0) (withBytes State.reset 0 (List.replicate 48 0xFF)) =
      some (some [4903, 5870, 874, 5992, 3988, 903, 3004, 6423, 6456, 5258, 2284, 4062, 5313, 6302,
        6926, 8870, 4873, 3530, 710]) ∧
    statusAfter (.gfMaptobase 0 4049) State.reset = some 0x22 := by decide +kernel

/-- The bytes of n - 1 (vector K1). -/
def bytesOrderPred : List Byte := [0x70, 0x5E, 0x27, 0x65, 0xA6, 0xF1, 0x31, 0xFB, 0x9B, 0xE4, 0x7B, 0x41,
  0x75, 0x7E, 0x52, 0x33, 0x2D, 0x74, 0x34, 0xD6, 0x0E, 0x2E, 0x8B, 0x9F, 0x53, 0xDF, 0x7B, 0x2E,
  0x00, 0x4B, 0x20, 0x0E]

/-- K1, K2, K3: length 32 with n - 1 and n, and length 0. -/
theorem test_sc_decode_strict :
    s0 (.scDecodeStrict 1 0 1 0) (withBytes (wordState [(1, 32)]) 0 bytesOrderPred) =
      some (some (n - 1)) ∧
    s0 (.scDecodeStrict 1 0 1 0) (withBytes (wordState [(1, 32)]) 0 (0x71 :: bytesOrderPred.tail)) =
      some none ∧
    w0 (.scDecodeStrict 0 0 1 0) (withBytes (wordState [(1, 32)]) 0 (0x71 :: bytesOrderPred.tail)) =
      some (some 0) ∧
    s0 (.scDecodeStrict 1 0 1 4095) (wordState [(1, 0)]) = some (some 0) := by decide +kernel

/-- K5; BufRange at length 4097. -/
theorem test_sc_decode_reduce :
    s0 (.scDecodeReduce 0 1 0) (withBytes (wordState [(1, 32)]) 0 (0x71 :: bytesOrderPred.tail)) =
      some (some 0) ∧
    statusAfter (.scDecodeReduce 0 1 0) (wordState [(1, 4097)]) = some 0x22 := by decide +kernel

/-- K1 the other way round. -/
theorem test_sc_encode : bytesAfter 96 32 (.scEncode 1 96) (scalarState [(1, n - 1)]) =
    some (some bytesOrderPred) := by decide +kernel

/-- K6b, K7, K8b, R177's (n - 1) * (n - 1). -/
theorem test_sc_arithmetic :
    s0 (.scAdd 0 1 2) (scalarState [(1, n - 1), (2, 1)]) = some (some 0) ∧
    s0 (.scSub 0 1 2) (scalarState [(1, 0), (2, 1)]) = some (some (n - 1)) ∧
    s0 (.scNeg 0 1) (scalarState [(1, 0)]) = some (some 0) ∧
    s0 (.scMul 0 1 2) (scalarState [(1, 2), (2, (n + 1) / 2)]) = some (some 1) ∧
    s0 (.scMul 0 1 1) (scalarState [(1, n - 1)]) = some (some 1) := by decide +kernel

/-- K8c, K8d, R181. -/
theorem test_sc_predicates_and_condcopy :
    w0 (.scIszero 0 1) (scalarState [(1, n)]) = some (some 1) ∧
    w0 (.scEq 0 1 2) (scalarState [(1, 5), (2, 6)]) = some (some 0) ∧
    s0 (.scCondcopy 0 1 3) (setW (scalarState [(0, 9), (1, 5)]) 3 (some 1)) = some (some 5) ∧
    s0 (.scCondcopy 0 1 3) (setW (scalarState [(0, 9), (1, 5)]) 3 (some 0)) = some (some 9) ∧
    s0 (.scCondcopy 0 1 3) (setW (scalarState [(0, 9), (1, 5)]) 3 (some 7)) = some none ∧
    s0 (.scNormalize 0 1) (scalarState [(1, 5)]) = some (some 5) := by decide +kernel

/-- R182: the fallback pair is admissible for the k of vector S1 and for 0, 1 and n - 1. -/
theorem test_basis_pair_exists :
    ([4747429826255675565977242578441322375064590717116732566371330805965774233144, 0, 1, n - 1].all
      fun b => admissiblePair b (somePair b)) = true := by decide +kernel

/-- 2G of R205. -/
def point2G : Point := .affine (gfOf (mono 1479 10)) (gfOf (List.replicate 14 0 ++ [9735, 7131]))

/-- Q1, Q4, Q5. -/
theorem test_p_add : p0 (.pAdd 0 1 1) (pointState [(1, generator)]) = some (some point2G) ∧
    p0 (.pAdd 0 1 2) (pointState [(1, generator), (2, pointNeg generator)]) = some (some .neutral) ∧
    p0 (.pAdd 0 1 2) (pointState [(1, .neutral), (2, generator)]) = some (some generator) := by
  decide +kernel

/-- Q3, Q6b, Q17. -/
theorem test_p_neg_mul2k_isneutral :
    p0 (.pNeg 0 1) (pointState [(1, generator)]) =
      some (some (.affine (gfOf []) (gfOf (mono 9735 14)))) ∧
    p0 (.pMul2k 0 1 0) (pointState [(1, generator)]) = some (some generator) ∧
    p0 (.pMul2k 0 1 9) (pointState [(1, .neutral)]) = some (some .neutral) ∧
    w0 (.pIsneutral 0 1) (pointState [(1, .neutral)]) = some (some 1) ∧
    w0 (.pIsneutral 0 1) (pointState [(1, generator)]) = some (some 0) := by decide +kernel

/-- Q4, R214: multiples 0 and 1. -/
theorem test_p_mul_small :
    p0 (.pMulgen 0 1) (scalarState [(1, 0)]) = some (some .neutral) ∧
    p0 (.pMulgen 0 1) (scalarState [(1, 1)]) = some (some generator) ∧
    p0 (.pMul 0 1 2) (setS (pointState [(1, .neutral)]) 2 (some 5)) = some (some .neutral) := by
  decide +kernel

/-- R216's corner case, and a mismatch: 0*P + 1*G = G, and not Neutral. -/
theorem test_p_verify :
    w0 (.pVerifyVartime 0 1 0 1 2)
      (setS (setS (pointState [(1, generator), (2, generator)]) 0 (some 0)) 1 (some 1)) =
      some (some 1) ∧
    w0 (.pVerifyVartime 0 1 0 1 2)
      (setS (setS (pointState [(1, generator), (2, .neutral)]) 0 (some 0)) 1 (some 1)) =
      some (some 0) := by decide +kernel

/-- Q1, Q3, Q11. -/
theorem test_p_encode :
    bytesAfter 0 32 (.pEncode 1 0) (pointState [(1, point2G)]) = some (some (List.replicate 16 0 ++
      [0x38, 0x2E] ++ List.replicate 13 0 ++ [0x40])) ∧
    bytesAfter 0 32 (.pEncode 1 0) (pointState [(1, .neutral)]) =
      some (some (List.replicate 31 0xFF ++ [0x3F])) := by decide +kernel

/-- Q12. -/
theorem test_p_encode_x :
    bytesAfter 0 32 (.pEncodeX 1 0) (pointState [(1, point2G)]) = some (some (List.replicate 16 0 ++
      [0x38, 0x2E] ++ List.replicate 14 0)) := by decide +kernel

/-- Q14, Q16: bit 7 and the neutral encoding. -/
theorem test_p_decode_rejects :
    w0 (.pDecode 0 0 0) (withBytes State.reset 0 (List.replicate 31 0 ++ [0x80])) = some (some 0) ∧
    p0 (.pDecode 1 0 0) (withBytes State.reset 0 (List.replicate 31 0xFF ++ [0x3F])) =
      some (some .neutral) := by decide +kernel

/-! ### Steps -/

/-- PR4: four words and a STATUS read, one host write. -/
theorem test_errors_are_sticky :
    (match core.run 4 { State.reset with pending := [.issue 0x01000007 0 0, .issue 0x03000FFD 0 0,
        .issue 0x01000009 0 0, .readStatus] } with
      | .next s => (getW s 0, s.status, s.idx, s.hostReads)
      | _ => (none, 0, 0, [])) = (some 7, 0x22, 3, [.status 0x22]) := by decide +kernel

/-- R31, R320: STATUS reads during W_LI, during a W_ST that raises BufRange, and in the error state. -/
theorem test_status_reads_during_commands :
    (match core.run 3 { State.reset with pending := [.issue 0x01000007 1 1, .issue 0x03000FFD 1 1,
        .issue 0x01000009 1 0] } with
      | .next s => (s.status, s.hostReads)
      | _ => (0, [])) =
      (0x22, [.status 0x22, .status 0x23, .status 1, .status 1, .status 1]) := by decide +kernel

/-- R33, R343: from reset, the length register of SC_DECODE_STRICT and SC_DECODE_REDUCE is
indeterminate: no error, indeterminate destinations. In the model R303 asks for, no state. -/
theorem test_indeterminate_length :
    ([0x40000000, 0x41000000].map fun w => match step (State.reset.withFetchWord 32 w) with
      | .next s => some (s.status, s.idx, getW s 0, getS s 0)
      | _ => none) = [some (0, 1, none, none), some (0, 1, none, none)] ∧
    strictStep (State.reset.withFetchWord 32 0x40000000) = none ∧
    strictStep (State.reset.withFetchWord 32 0x41000000) = none := ⟨rfl, rfl, rfl⟩

/-- R138: what the entries of the table of a -> a^p stand for, and that 1 is stored as 7182 (R24). -/
theorem test_frobenius_table :
    (gfCoeffs (fval (frobeniusTable 1))) = [1, 2534, 4237, 2625, 423, 7279, 4890, 6704, 3123, 2412,
      7633, 3362, 2484, 4508, 5649, 5911, 5663, 2319, 6379] ∧
    (frobeniusTable 1)[0] = 7182 := by decide +kernel

/-- X12: the all-zero word from reset. -/
theorem test_zero_word_is_illegal :
    (match step (State.reset.withFetchWord 32 0) with
      | .next s => (s.status, s.idx, s.pending)
      | _ => (0, 0, [])) = (0x12, 1, []) := by decide +kernel

/-! ### Witnesses: the hypotheses of each obligation can be met together -/

/-- A state with a determinate value in every register and 48 bytes 0 at the bottom of BUF. -/
def demo : State :=
  { State.reset with
    regsW := Vector.replicate 16 ⟨7182, true⟩
    regsF := Vector.replicate 16 ⟨fld gfOne, true⟩
    regsS := Vector.replicate 16 ⟨1, true⟩
    regsP := Vector.replicate 16 ⟨generator, true⟩
    buf := writeBytes [] 0 (List.replicate 48 0) }

/-- demo in the error state, with the given transactions to come. -/
def demoError (l : List HostTxn) : State := { demo with status := 0x22, pending := l }

theorem witness_DecodeInvertsEncode : (Instr.gfGetc 15 15 18).wellFormed = true ∧
    (Instr.gfSetc 0 15 0).wellFormed = true := by decide

theorem witness_EncodeInvertsDecode : decode 0x05000012 = .ok (.gfGetc 0 0 18) := by decide

theorem witness_LegalWordsAreTheTableRows : ∃ r ∈ opcodeTable, r.takes 0x05000012 = true := by
  decide +kernel

/-- A word for each condition of R77. -/
theorem witness_IllegalWordRaisesIllegalCommand_illegal :
    (State.reset.withFetchWord 32 0x17000000).pending = .issue 0x17000000 0 0 :: [] ∧
    inError (State.reset.withFetchWord 32 0x17000000) = false ∧
    statusBusy (State.reset.withFetchWord 32 0x17000000).status = false ∧
    illegalWord 0x17000000 ∧ illegalWord 0x20123400 ∧ illegalWord 0x22100001 ∧
    illegalWord 0x05000013 := by
  refine ⟨by decide, by decide, by decide, .inl (by decide), .inr (.inl ⟨(0x20, .r, 3), by decide, by decide, .inl ?_⟩),
    .inr (.inl ⟨(0x22, .r, 2), by decide, by decide, .inr (by decide)⟩), .inr (.inr (by decide))⟩
  exact ⟨4, by decide, by decide, by decide⟩

theorem witness_IllegalWordRaisesIllegalCommand_legal : ¬ illegalWord 0x05000012 := by
  rintro (h | ⟨c', hc, he, h⟩ | ⟨-, h⟩)
  · exact h (0x05, .i, 2) (by decide) (by decide)
  · have : ∀ x ∈ commandForms, x.1 = (0x05000012 : BitVec 32).toNat / 2 ^ 24 → x = (0x05, .i, 2) := by
      decide
    have e := this c' hc he
    subst e
    rcases h with ⟨k, h1, h2, -⟩ | ⟨h, -⟩
    · simp only [Format.fields] at h1 h2
      omega
    · cases h
  · exact absurd h (by decide)

theorem witness_StepRunsTheDecodedCommand :
    (State.reset.withFetchWord 32 0x01000007).pending = .issue 0x01000007 0 0 :: [] ∧
    inError (State.reset.withFetchWord 32 0x01000007) = false ∧
    decode 0x01000007 = .ok (.wLi 0 7) ∧
    decode 0x40000000 = .ok (.scDecodeStrict 0 0 0 0) := by decide

/-- An illegal word, and a legal one in the error state. -/
theorem witness_IssueAdvancesIdxByOne :
    (State.reset.withFetchWord 32 0).pending = .issue 0 0 0 :: [] ∧
    (demoError [.issue 0x40000000 2 3]).pending = .issue 0x40000000 2 3 :: [] ∧
    inError (demoError [.issue 0x40000000 2 3]) = true := by decide

theorem witness_ErrorStateDiscardsCommands :
    inError (demoError [.issue 0 1 0, .issue 0x01000007 0 2, .reset]) = true ∧
    (demoError [.issue 0 1 0, .issue 0x01000007 0 2, .reset]).pending =
      [(0, 1, 0), (0x01000007, 0, 2)].map
        (fun x : BitVec 32 × Nat × Nat => HostTxn.issue x.1 x.2.1 x.2.2) ++ [.reset] := by decide

/-- The next state of a step, for witnesses. -/
def nextOf (s : State) : Option State :=
  match step s with
  | .next s' => some s'
  | _ => none

theorem step_of_nextOf {s s' : State} (h : nextOf s = some s') : step s = .next s' := by
  unfold nextOf at h
  split at h
  · rename_i t ht
    rw [ht, Option.some.inj h]
  · cases h

/-- Both outcomes: an issued word, and a reset. -/
theorem witness_OnlyResetLeavesTheErrorState : inError (demoError [.issue 0 0 0]) = true ∧
    (∃ s', step (demoError [.issue 0 0 0]) = .next s') ∧
    inError (demoError [.reset]) = true ∧ ∃ s', step (demoError [.reset]) = .next s' :=
  ⟨by decide, ⟨_, rfl⟩, by decide, ⟨_, rfl⟩⟩

theorem witness_ResetLeavesEverythingIndeterminate :
    (demoError [.reset, .readStatus]).pending = .reset :: [.readStatus] := by decide

theorem witness_HostBufferAndStatusAccess :
    (demoError [.writeBuf 4095 1]).pending = .writeBuf 4095 1 :: [] ∧
    (demoError [.readBuf 0]).pending = .readBuf 0 :: [] ∧
    (demoError [.readStatus]).pending = .readStatus :: [] := by decide

/-- strictStep returns a state on a determinate source, and on BufRange. -/
theorem witness_StepStopsOnlyWhenNothingIsPending :
    (strictStep { demo with pending := [.issue 0x04010000 0 0] }).isSome = true ∧
    (strictStep (State.reset.withFetchWord 32 0x03000FFD)).isSome = true ∧
    strictStep (State.reset.withFetchWord 32 0x03000FFC) = none ∧ strictStep State.reset = none :=
  ⟨rfl, rfl, rfl, rfl⟩

/-- A command that raises BufRange, and the error state. -/
theorem witness_StatusReadsDuringACommandSeeBusy :
    let s : State := { demo with pending := [.issue 0x03000FFD 1 2] }
    s.pending = .issue 0x03000FFD 1 2 :: [] ∧ inError s = false ∧ (∃ s', step s = .next s') ∧
    inError (demoError [.issue 0 1 2]) = true ∧ ∃ s', step (demoError [.issue 0 1 2]) = .next s' :=
  ⟨rfl, by decide, ⟨_, rfl⟩, by decide, ⟨_, rfl⟩⟩

theorem witness_BufRangeExactlyWhenTheAccessLeavesBuf :
    raisesBufRange State.reset (.scDecodeReduce 0 1 1) = false ∧
    (Instr.gfEncode 0 4065).wellFormed = true ∧ raisesBufRange demo (.gfEncode 0 4065) = true ∧
    raisesBufRange demo (.gfEncode 0 4064) = false ∧ raisesBufRange demo (.wLd 0 4093) = true ∧
    raisesBufRange demo (.wLd 0 4092) = false ∧
    raisesBufRange (setW demo 1 (some 4096)) (.scDecodeReduce 0 1 1) = true ∧
    raisesBufRange (setW demo 1 (some 4096)) (.scDecodeReduce 0 1 0) = false := by decide +kernel

theorem witness_IndeterminateSourcesGiveIndeterminateResults :
    (Instr.gfAdd 0 1 2).wellFormed = true ∧ memoryWf State.reset.buf = true ∧
    raisesBufRange State.reset (.scDecodeStrict 0 0 1 0) = false ∧
    sourcesDeterminate State.reset (.scDecodeStrict 0 0 1 0) = false ∧
    raisesBufRange (setW State.reset 1 (some 4096)) (.scDecodeStrict 0 0 1 0) = false ∧
    sourcesDeterminate (setW State.reset 1 (some 4096)) (.scDecodeStrict 0 0 1 0) = false ∧
    raisesBufRange State.reset (.gfAdd 0 1 2) = false ∧
    sourcesDeterminate State.reset (.gfAdd 0 1 2) = false ∧
    raisesBufRange State.reset (.wSt 0 4092) = false ∧
    sourcesDeterminate State.reset (.wSt 0 4092) = false ∧
    raisesBufRange State.reset (.pDecode 0 0 0) = false ∧
    sourcesDeterminate State.reset (.pDecode 0 0 0) = false ∧
    sourcesDeterminate demo (.gfAdd 0 1 2) = true := by decide +kernel

/-- Two states that differ in what W[3] happens to hold. -/
theorem witness_IndeterminateContentsHaveNoInfluence :
    let t : State := { State.reset with regsW := State.reset.regsW.set 3 ⟨5, false⟩ }
    Agree State.reset t ∧ State.reset ≠ t := by
  refine ⟨⟨?_, fun i => ⟨rfl, fun _ => rfl⟩, fun i => ⟨rfl, fun _ => rfl⟩, fun i => ⟨rfl, fun _ => rfl⟩,
    rfl, rfl, rfl, rfl, rfl, rfl⟩, by decide⟩
  intro i
  have : ∀ i : Fin 16, (State.reset.regsW[i]).det = false ∧
      ((State.reset.regsW.set 3 ⟨5, false⟩)[i]).det = false := by decide
  exact ⟨by rw [(this i).1, (this i).2], fun h => by rw [(this i).1] at h; cases h⟩

/-- A state with one stored register and one byte, and GF_ADD to come. -/
theorem witness_StepKeepsTheInvariant :
    let s : State := { setF (withBytes State.reset 4095 [7]) 2 (some (fld gfOne)) with
      pending := [.issue 0x20122000 0 0] }
    Inv s ∧ ∃ s', step s = .next s' := by
  refine ⟨⟨by decide, by decide, ?_⟩, ⟨_, rfl⟩⟩
  intro i a h
  have hs : ∀ j : Fin 16, (match getF (setF (withBytes State.reset 4095 [7]) 2 (some (fld gfOne))) j with
      | none => true
      | some x => cellsStored x) = true := by decide +kernel
  have := hs i
  have e : getF (setF (withBytes State.reset 4095 [7]) 2 (some (fld gfOne))) i = some a := h
  rw [e] at this
  exact this

/-- P[1] = G, and P_NEG to come. -/
theorem witness_StepKeepsPointsOnTheCurve :
    let s : State := { pointState [(1, generator), (2, .neutral)] with pending := [.issue 0x51010000 0 0] }
    pointsOnCurve s ∧ ∃ s', step s = .next s' := by
  refine ⟨?_, ⟨_, rfl⟩⟩
  intro i a h
  have hs : ∀ j : Fin 16, (match getP (pointState [(1, generator), (2, .neutral)]) j with
      | none => true
      | some x => onCurve x) = true := by decide +kernel
  have := hs i
  have e : getP (pointState [(1, generator), (2, .neutral)]) i = some a := h
  rw [e] at this
  exact this

/-- A register that is no destination, of each file. -/
theorem witness_CommandsChangeOnlyTheirDestinationRegisters :
    destW (.gfSqrt 1 2 3) ≠ some 0 ∧ destF (.gfSqrt 1 2 3) ≠ some 3 ∧ destS (.gfSqrt 1 2 3) ≠ some 0 ∧
    destP (.gfSqrt 1 2 3) ≠ some 0 ∧ destP (.pAdd 1 2 3) ≠ some 2 := by decide +kernel

theorem witness_CommandsLeaveControlStateAlone :
    statusAfter (.wSt 0 4093) demo ≠ some demo.status.toNat := by decide +kernel

theorem witness_CommandsChangeOnlyTheBytesTheyStore : memoryWf demo.buf = true ∧
    storeRange (.wSt 0 4092) = some (4092, 4) ∧ storeRange (.wLd 0 4092) = none := by decide +kernel

theorem witness_LoadImmediateAndMovesCopyTheValue : getW demo 3 = some 7182 ∧
    getF demo 3 = some (fld gfOne) ∧ getS demo 3 = some 1 ∧ getP demo 3 = some generator := by
  decide +kernel

/-- Offsets 4092 and 4093. -/
theorem witness_WordLoadReadsFourBytesLittleEndian :
    (let s := withBytes State.reset 4092 [1, 2, 3, 4]
     (4092 : Off12).toNat ≤ 4092 ∧ readByte s.buf 4092 = some 1 ∧ readByte s.buf 4093 = some 2 ∧
      readByte s.buf 4094 = some 3 ∧ readByte s.buf 4095 = some 4) ∧
    4092 < (4093 : Off12).toNat := by decide +kernel

theorem witness_WordStoreWritesFourBytesLittleEndian : memoryWf demo.buf = true ∧
    getW demo 0 = some 7182 ∧ (4092 : Off12).toNat ≤ 4092 ∧ 4092 < (4093 : Off12).toNat := by
  decide +kernel

theorem witness_CoefficientReadDeliversTheStoredCell : (18 : Imm16).toNat ≤ 18 ∧
    getF demo 0 = some (fld gfOne) ∧ 18 < (19 : Imm16).toNat := by decide +kernel

/-- Words 1, 9767, 0 and 9768. -/
theorem witness_CoefficientWriteReplacesOneCell : (18 : Imm16).toNat ≤ 18 ∧
    getF (setW demo 1 (some 1)) 0 = some (fld gfOne) ∧ getW (setW demo 1 (some 1)) 1 = some 1 ∧
    1 ≤ (1 : Word).toNat ∧ (9767 : Word).toNat ≤ 9767 ∧ (0 : Word).toNat = 0 ∧
    9767 < (9768 : Word).toNat ∧ 18 < (19 : Imm16).toNat := by decide +kernel

/-- In the contract at both ends, and outside it at 0. -/
theorem witness_MpAddAndSubAreModular :
    (let s := wordState [(1, 1), (2, 9767), (3, 0)]
     getW s 1 = some 1 ∧ getW s 2 = some 9767 ∧ getW s 3 = some 0) ∧
    ((1 ≤ (1 : Word).toNat ∧ (1 : Word).toNat ≤ 9767) ∧
      (1 ≤ (9767 : Word).toNat ∧ (9767 : Word).toNat ≤ 9767)) ∧
    ¬ ((1 ≤ (1 : Word).toNat ∧ (1 : Word).toNat ≤ 9767) ∧
      (1 ≤ (0 : Word).toNat ∧ (0 : Word).toNat ≤ 9767)) := by decide +kernel

/-- Both ends of the reduction's range, and a product on either side of it. -/
theorem witness_MontgomeryReductionDividesByTheRadix :
    (let s := wordState [(1, 3654952486), (2, 1), (3, 65536)]
     getW s 1 = some 3654952486 ∧ getW s 2 = some 1 ∧ getW s 3 = some 65536) ∧
    (1 ≤ (3654952486 : Word).toNat ∧ (3654952486 : Word).toNat ≤ 3654952486) ∧
    ¬ (1 ≤ (3654952487 : Word).toNat ∧ (3654952487 : Word).toNat ≤ 3654952486) ∧
    (1 ≤ (3654952486 : Word).toNat * (1 : Word).toNat ∧
      (3654952486 : Word).toNat * (1 : Word).toNat ≤ 3654952486) ∧
    ¬ (1 ≤ (65536 : Word).toNat * (65536 : Word).toNat ∧
      (65536 : Word).toNat * (65536 : Word).toNat ≤ 3654952486) := by decide +kernel

theorem witness_MpTomontyMultipliesByTheRadix : getW (wordState [(1, 2278869)]) 1 = some 2278869 ∧
    (2278869 : Word).toNat ≤ 2278869 ∧ 2278869 < (2278870 : Word).toNat := by decide +kernel

/-- 9767, 1, and 0 outside the contract. -/
theorem witness_MpInvDeliversTheInverse : getW (wordState [(1, 9767)]) 1 = some 9767 ∧
    (1 ≤ (9767 : Word).toNat ∧ (9767 : Word).toNat ≤ 9767) ∧ (1 : Word).toNat ≠ 9767 ∧
    ¬ (1 ≤ (0 : Word).toNat ∧ (0 : Word).toNat ≤ 9767) := by decide +kernel

/-- A square (4597 stands for 2 = 4382^2), a non-square (6609 stands for 5), zero, and 0 outside. -/
theorem witness_MpIsQrTellsSquaresApart :
    getW (wordState [(1, 4597), (2, 6609)]) 1 = some 4597 ∧
    (1 ≤ (4597 : Word).toNat ∧ (4597 : Word).toNat ≤ 9767) ∧
    (∃ x, x * x % 9767 = mval (4597 : Word).toNat) ∧
    (¬ ∃ x, x * x % 9767 = mval (6609 : Word).toNat) ∧
    ¬ (1 ≤ (9768 : Word).toNat ∧ (9768 : Word).toNat ≤ 9767) := by
  refine ⟨by decide +kernel, by decide, ⟨4382, by decide +kernel⟩, ?_, by decide⟩
  rintro ⟨x, h⟩
  have h5 : mval (6609 : Word).toNat = 5 := by decide +kernel
  have hall : ∀ a b : Fin 99, (99 * a.val + b.val) * (99 * a.val + b.val) % 9767 ≠ 5 := by
    decide +kernel
  rw [h5, Nat.mul_mod] at h
  have hx : x % 9767 < 9767 := Nat.mod_lt _ (by norm_num)
  refine hall ⟨x % 9767 / 99, by omega⟩ ⟨x % 9767 % 99, by omega⟩ ?_
  simpa only [Nat.div_add_mod] using h

theorem witness_field_sources : getF demo 1 = some (fld gfOne) ∧ getF demo 2 = some (fld gfOne) ∧
    getW demo 3 = some 7182 ∧ (7182 : Word) ≠ 0 ∧ (7182 : Word) ≠ 1 := by decide +kernel

theorem witness_GfAddSubNegAreCoefficientwise : getF demo 1 = some (fld gfOne) ∧
    getF demo 2 = some (fld gfOne) := by decide +kernel

theorem witness_GfCondnegFollowsTheControlWord : ∀ ctl : Word, (ctl = 0 ∨ ctl = 1 ∨ ctl = 2) →
    getF (setW demo 3 (some ctl)) 1 = some (fld gfOne) ∧ getW (setW demo 3 (some ctl)) 3 = some ctl := by
  rintro ctl (rfl | rfl | rfl) <;> decide +kernel

theorem witness_GfMulIsTheFoldedProduct : getF demo 1 = some (fld gfOne) ∧
    getF (setF demo 2 (some (fld gfZero))) 2 = some (fld gfZero) := by decide +kernel

/-- A zero and a non-zero element. -/
theorem witness_GfInvDeliversTheInverse :
    getF (setF demo 2 (some (fld gfZero))) 2 = some (fld gfZero) ∧ fval (fld gfZero) = gfZero ∧
    getF demo 1 = some (fld gfOne) ∧ fval (fld gfOne) ≠ gfZero := by decide +kernel

/-- A square, 1 = 1^2. -/
theorem witness_GfSqrtRootsTheElementOrItsNegation_square : getF demo 1 = some (fld gfOne) ∧
    ∃ x, gfSqr x = fval (fld gfOne) := ⟨by decide +kernel, gfOne, by decide +kernel⟩

/-- A non-square: -1, since q is 3 modulo 4 (R128). -/
theorem witness_GfSqrtRootsTheElementOrItsNegation_nonsquare :
    getF (setF demo 1 (some (fld (gfNeg gfOne)))) 1 = some (fld (gfNeg gfOne)) ∧
    ¬ ∃ x, gfSqr x = fval (fld (gfNeg gfOne)) := by
  refine ⟨by simp, ?_⟩
  rintro ⟨x, h⟩
  have hk : toK x ^ 2 = -1 := by rw [← toK_sqr, h, fval_fld, toK_neg, toK_one]
  have h0 : toK x ≠ 0 := fun e => by
    rw [e] at hk
    exact K_one_ne_zero (by linear_combination hk)
  have h1 : toK x ^ (q - 1) = (toK x ^ 2) ^ ((q - 1) / 2) := by
    rw [← pow_mul, show 2 * ((q - 1) / 2) = q - 1 by norm_num]
  have hodd : Odd ((q - 1) / 2) := by
    rw [Nat.odd_iff]
    norm_num
  rw [K_pow_card_sub_one h0, hk, hodd.neg_one_pow] at h1
  exact K_one_ne_zero (by linear_combination 4884 * h1 - p_eq_zero)

theorem witness_GfCubertDeliversTheCubeRoot : getF demo 1 = some (fld gfOne) := by decide +kernel

theorem witness_GfIsnegLooksAtTheTopCoefficient : getF demo 1 = some (fld gfOne) ∧
    fval (fld gfOne) ≠ gfZero := by decide +kernel

/-- Equal and different stored registers. -/
theorem witness_GfEqComparesElements :
    let s : State := setF demo 2 (some (fld gfZero))
    storedWf s ∧ getF s 1 = some (fld gfOne) ∧ getF s 2 = some (fld gfZero) ∧
    ∃ k : Fin 19, (fld gfOne)[k] ≠ (fld gfZero)[k] := by
  refine ⟨?_, by decide +kernel, by decide +kernel, 0, by decide +kernel⟩
  intro i a h
  have hs : ∀ j : Fin 16, (match getF (setF demo 2 (some (fld gfZero))) j with
      | none => true
      | some x => cellsStored x) = true := by decide +kernel
  have := hs i
  rw [h] at this
  exact this

theorem witness_GfEncodeStoresThePackedCoefficients : memoryWf demo.buf = true ∧
    getF demo 1 = some (fld gfOne) ∧ (4064 : Off12).toNat ≤ 4064 ∧ 4064 < (4065 : Off12).toNat ∧
    (gfCoeffs (fval (fld gfOne)))[3 * 5 + 2]? = some 0 := by decide +kernel

/-- The bytes of a list, 0 beyond it. -/
def byteFn (l : List Byte) (i : Nat) : Byte := l.getD i 0

/-- A string that is an encoding (E1), at the last possible offset. -/
theorem witness_GfDecodeAcceptsExactlyTheEncodings_accepts :
    (4064 : Off12).toNat ≤ 4064 ∧
    holdsBytes (withBytes State.reset 4064 bytesE1) 4064 32 (byteFn bytesE1) ∧
    isFieldEncoding (gfOf vecA) (byteFn bytesE1) ∧ 4064 < (4065 : Off12).toNat := by
  refine ⟨by decide, ?_, ?_, by decide⟩
  · unfold holdsBytes
    decide +kernel
  · unfold isFieldEncoding
    decide +kernel

/-- The string of E9, whose last coefficient would be 9767. -/
def bytesE9 : List Byte := List.replicate 30 0 ++ [0x27, 0x26]

/-- A string that is no encoding (E9). -/
theorem witness_GfDecodeAcceptsExactlyTheEncodings_rejects :
    holdsBytes (withBytes State.reset 0 bytesE9) 0 32 (byteFn bytesE9) ∧
    ¬ ∃ x : Gf, isFieldEncoding x (byteFn bytesE9) := by
  refine ⟨?_, ?_⟩
  · unfold holdsBytes
    decide +kernel
  rintro ⟨x, h⟩
  have hlast : ∀ l : List Nat, (encodeGroup l 0 ++ encodeGroup l 1 ++ encodeGroup l 2 ++ encodeGroup l 3
      ++ encodeGroup l 4 ++ encodeGroup l 5).length = 30 := by simp [encodeGroup, leBytes]
  have hb (i : Nat) : (encodeField x).getD (30 + i) 0 =
      (leBytes 2 (coeffAt (gfCoeffs x) 18)).getD i 0 := by
    simp only [encodeField]
    rw [List.getD_append_right _ _ _ _ (by rw [hlast]; omega), hlast, Nat.add_sub_cancel_left]
  have h30 := (hb 0).symm.trans (h 30 (by norm_num)).symm
  have h31 := (hb 1).symm.trans (h 31 (by norm_num)).symm
  have hc : coeffAt (gfCoeffs x) 18 < 9767 := by
    have : coeffAt (gfCoeffs x) 18 = (x[18]).val := by simp [coeffAt, gfCoeffs]
    rw [this]
    exact (x[18]).isLt
  generalize coeffAt (gfCoeffs x) 18 = v at *
  have e0 : v % 256 = 0x27 := by
    have := congrArg BitVec.toNat h30
    simpa [leBytes, byteFn, bytesE9] using this
  have e1 : v / 256 % 256 = 0x26 := by
    have := congrArg BitVec.toNat h31
    simpa [leBytes, byteFn, bytesE9] using this
  omega

theorem witness_GfMaptobaseDeliversTheBasePDigits : (4048 : Off12).toNat ≤ 4048 ∧
    holdsBytes (withBytes State.reset 4048 (List.replicate 48 0xFF)) 4048 48
      (byteFn (List.replicate 48 0xFF)) ∧ 4048 < (4049 : Off12).toNat := by
  refine ⟨by decide, ?_, by decide⟩
  unfold holdsBytes
  decide +kernel

/-- An integer below n (length 0), n itself, and a length beyond BUF. -/
theorem witness_ScDecodeStrictAcceptsIntegersBelowTheOrder :
    getW (wordState [(1, 0)]) 1 = some 0 ∧ (4095 : Off12).toNat + (0 : Word).toNat ≤ 4096 ∧
    holdsBytes (wordState [(1, 0)]) 4095 0 (byteFn []) ∧ leValue 0 (byteFn []) < n ∧
    getW (wordState [(1, 32)]) 1 = some 32 ∧
    holdsBytes (withBytes (wordState [(1, 32)]) 0 (0x71 :: bytesOrderPred.tail)) 0 32
      (byteFn (0x71 :: bytesOrderPred.tail)) ∧
    n ≤ leValue 32 (byteFn (0x71 :: bytesOrderPred.tail)) ∧
    4096 < (1 : Off12).toNat + (4096 : Word).toNat := by
  refine ⟨by decide +kernel, by decide, ?_, by decide +kernel, by decide +kernel, ?_, by decide +kernel,
    by decide⟩
  · unfold holdsBytes
    decide +kernel
  · unfold holdsBytes
    decide +kernel

theorem witness_ScDecodeReduceReducesModuloTheOrder : getW (wordState [(1, 4096)]) 1 = some 4096 ∧
    (0 : Off12).toNat + (4096 : Word).toNat ≤ 4096 ∧
    4096 < (1 : Off12).toNat + (4096 : Word).toNat ∧ getW (wordState [(1, 2)]) 1 = some 2 ∧
    holdsBytes (withBytes (wordState [(1, 2)]) 4094 [0x34, 0x12]) 4094 2 (byteFn [0x34, 0x12]) := by
  refine ⟨by decide +kernel, by decide, by decide, by decide +kernel, ?_⟩
  unfold holdsBytes
  decide +kernel

theorem witness_ScEncodeStoresTheRepresentative : memoryWf demo.buf = true ∧ getS demo 1 = some 1 ∧
    (4064 : Off12).toNat ≤ 4064 ∧ 4064 < (4065 : Off12).toNat := by decide +kernel

theorem witness_ScArithmeticIsModuloTheOrder : getS demo 1 = some 1 ∧ getS demo 2 = some 1 := by
  decide +kernel

theorem witness_ScPredicatesCompareResidues :
    getS (scalarState [(1, 0), (2, n - 1)]) 1 = some 0 ∧
    (getS (scalarState [(1, 0), (2, n - 1)]) 2).isSome = true := by decide +kernel

theorem witness_ScCondcopyFollowsTheControlWord : ∀ ctl : Word, (ctl = 0 ∨ ctl = 1 ∨ ctl = 7) →
    getS (setW demo 3 (some ctl)) 1 = some 1 ∧ getW (setW demo 3 (some ctl)) 3 = some ctl := by
  rintro ctl (rfl | rfl | rfl) <;> decide +kernel

theorem witness_ScalarEncodingRoundTrips : getS (setW demo 1 (some 32)) 2 = some 1 ∧
    getW (setW demo 1 (some 32)) 1 = some 32 ∧ (4064 : Off12).toNat ≤ 4064 := by decide +kernel

theorem witness_ScReduceBasisStoresAnAdmissiblePair : memoryWf demo.buf = true ∧
    getS (setS demo 1 (some 0)) 1 = some 0 ∧ (4064 : Off12).toNat ≤ 4064 ∧
    4064 < (4065 : Off12).toNat := by decide +kernel

/-- Neutral, distinct abscissas, equal points, opposite points. -/
theorem witness_PAddFollowsTheAdditionLaw :
    let s := pointState [(0, .neutral), (1, generator), (2, point2G), (3, pointNeg generator)]
    getP s 0 = some .neutral ∧ getP s 1 = some generator ∧ getP s 2 = some point2G ∧
    getP s 3 = some (pointNeg generator) ∧ onCurve .neutral = true ∧ onCurve generator = true ∧
    onCurve point2G = true ∧ onCurve (pointNeg generator) = true ∧
    (gfOf [] : Gf) ≠ gfOf (mono 1479 10) ∧
    generator = .affine (gfOf []) (gfOf (mono 32 14)) ∧
    pointNeg generator = .affine (gfOf []) (gfNeg (gfOf (mono 32 14))) ∧
    gfOf (mono 32 14) ≠ gfNeg (gfOf (mono 32 14)) := by decide +kernel

theorem witness_CurvePointsFormAnAbelianGroup : onCurve generator = true ∧
    onCurve (pointNeg generator) = true ∧ onCurve point2G = true := by decide +kernel

theorem witness_PNegAndIsneutral : getP (pointState [(1, .neutral)]) 1 = some .neutral ∧
    getP demo 1 = some (.affine gfZero (gfMonomial 32 14)) := by decide +kernel

theorem witness_PMul2kMultipliesByAPowerOfTwo : getP demo 1 = some generator ∧
    onCurve generator = true := by decide +kernel

theorem witness_ScalarMultiplicationIsRepeatedAddition : getP demo 1 = some generator ∧
    getS demo 1 = some 1 ∧ getS demo 2 = some 1 ∧ onCurve generator = true := by decide +kernel

theorem witness_PVerifyTestsTheLinearCombination : getP demo 1 = some generator ∧
    getS demo 1 = some 1 ∧ getS demo 2 = some 1 ∧
    getP (setP demo 2 (some .neutral)) 2 = some .neutral ∧ onCurve generator = true := by
  decide +kernel

theorem witness_PEncodeStoresXAndTheSignOfY : memoryWf demo.buf = true ∧
    getP demo 1 = some generator ∧ (∃ x y, generator = .affine x y) ∧
    getP (setP demo 1 (some .neutral)) 1 = some .neutral ∧ (4064 : Off12).toNat ≤ 4064 ∧
    4064 < (4065 : Off12).toNat :=
  ⟨by decide +kernel, by decide +kernel, ⟨_, _, rfl⟩, by decide +kernel, by decide, by decide⟩

/-- 32 bytes 0 decode to G (Q13); 31 bytes 0 and 0x80 to nothing (Q14). -/
theorem witness_PDecodeInvertsPEncode :
    holdsBytes demo 0 32 (byteFn []) ∧ generator = .affine gfZero (gfMonomial 32 14) ∧
    onCurve generator = true ∧ isFieldEncoding gfZero (byteFn []) ∧
    (byteFn [] 31).getLsbD 7 = false ∧ gfIsNeg (gfMonomial 32 14) = (byteFn [] 31).getLsbD 6 ∧
    (¬ ∃ x y, onCurve (.affine x y) = true ∧
      isFieldEncoding x (byteFn (List.replicate 31 0 ++ [0x80])) ∧
      (byteFn (List.replicate 31 0 ++ [0x80]) 31).getLsbD 7 = false ∧
      gfIsNeg y = (byteFn (List.replicate 31 0 ++ [0x80]) 31).getLsbD 6) ∧
    holdsBytes (withBytes demo 4064 (List.replicate 31 0 ++ [0x80])) 4064 32
      (byteFn (List.replicate 31 0 ++ [0x80])) := by
  refine ⟨?_, by decide +kernel, by decide +kernel, ?_, by decide, by decide +kernel, ?_, ?_⟩
  · unfold holdsBytes
    decide +kernel
  · unfold isFieldEncoding
    decide +kernel
  · rintro ⟨x, y, -, -, h, -⟩
    exact absurd h (by decide)
  · unfold holdsBytes
    decide +kernel

end Sys2Proof.Tests
end

section
/-! SUPPORT. What a command does, as one equation (exec_eq_result): it raises an engine error, or it
delivers one value into each destination that Safety.lean names for it. The value functions below are
the meanings of Machine/ with the destination left out; exec_eq_result ties them to exec. -/

namespace Sys2Proof.Machine

/-! ### A register file before and after a command -/

/-- What reading register i of a file gives, `none` where it is indeterminate (R33). -/
def readReg {α : Type} (regs : Vector (Reg α) 16) (i : Fin 16) : Option α :=
  if regs[i].det then some regs[i].val else none

/-- A register file after the value v is delivered into the destination d, if there is one. Where v is
`none` the destination becomes indeterminate and holds `free` (R33). -/
def putReg {α : Type} (d : Option (Fin 16)) (v : Option α) (free : α)
    (regs : Vector (Reg α) 16) : Vector (Reg α) 16 :=
  match d, v with
  | none, _ => regs
  | some i, some x => regs.set i ⟨x, true⟩
  | some i, none => regs.set i ⟨free, false⟩

/-- How many free values a delivery draws. -/
def draws {α : Type} (d : Option (Fin 16)) (v : Option α) : Nat :=
  match d, v with
  | some _, none => 1
  | _, _ => 0

/-- BUF after the bytes are stored into a range, if there is one; `none` leaves the range
indeterminate (R33). -/
def putBytes (range : Option (Nat × Nat)) (bytes : Option (List Byte)) (m : Memory) : Memory :=
  match range, bytes with
  | none, _ => m
  | some (addr, _), some bs => writeBytes m addr bs
  | some (addr, len), none => eraseBytes m addr len

theorem getW_eq_readReg (s : State) (i : WReg) : getW s i = readReg s.regsW i := rfl

theorem getF_eq_readReg (s : State) (i : FReg) : getF s i = readReg s.regsF i := rfl

theorem getS_eq_readReg (s : State) (i : SReg) : getS s i = readReg s.regsS i := rfl

theorem getP_eq_readReg (s : State) (i : PReg) : getP s i = readReg s.regsP i := rfl

theorem setW_eq_putReg (s : State) (i : WReg) (v : Option Word) : setW s i v =
    { s with
      regsW := putReg (some i) v (Config.freeWord s.fresh) s.regsW
      fresh := s.fresh + draws (some i) v } := by
  cases v <;> rfl

theorem setF_eq_putReg (s : State) (i : FReg) (v : Option Cells) : setF s i v =
    { s with
      regsF := putReg (some i) v (Config.freeCells s.fresh) s.regsF
      fresh := s.fresh + draws (some i) v } := by
  cases v <;> rfl

theorem setS_eq_putReg (s : State) (i : SReg) (v : Option Scalar) : setS s i v =
    { s with
      regsS := putReg (some i) v (Config.freeScalar s.fresh) s.regsS
      fresh := s.fresh + draws (some i) v } := by
  cases v <;> rfl

theorem setP_eq_putReg (s : State) (i : PReg) (v : Option Point) : setP s i v =
    { s with
      regsP := putReg (some i) v (Config.freePoint s.fresh) s.regsP
      fresh := s.fresh + draws (some i) v } := by
  cases v <;> rfl

theorem storeBytes_eq_putBytes (s : State) (off : Off12) (len : Nat) (v : Option (List Byte)) :
    storeBytes s off len v = { s with buf := putBytes (some (off.toNat, len)) v s.buf } := by
  cases v <;> rfl

/-- A delivery changes no register but its destination. -/
theorem getElem_putReg_other {α : Type} {d : Option (Fin 16)} {j : Fin 16} (h : d ≠ some j)
    (v : Option α) (free : α) (regs : Vector (Reg α) 16) :
    (putReg d v free regs)[j] = regs[j] := by
  cases d with
  | none => rfl
  | some i =>
    have hij : i.val ≠ j.val := fun e => h (congrArg some (Fin.ext e))
    cases v <;> simp [putReg, hij]

/-- The destination reads as the value delivered. -/
@[simp] theorem readReg_putReg_same {α : Type} (i : Fin 16) (v : Option α) (free : α)
    (regs : Vector (Reg α) 16) : readReg (putReg (some i) v free regs) i = v := by
  cases v <;> simp [readReg, putReg]

theorem readReg_putReg_other {α : Type} {d : Option (Fin 16)} {j : Fin 16} (h : d ≠ some j)
    (v : Option α) (free : α) (regs : Vector (Reg α) 16) :
    readReg (putReg d v free regs) j = readReg regs j := by
  simp only [readReg, getElem_putReg_other h]

/-- What holds of every determinate register and of the delivered value holds of every determinate
register after the delivery. -/
theorem forall_readReg_putReg {α : Type} {p : α → Prop} {d : Option (Fin 16)} {v : Option α}
    {regs : Vector (Reg α) 16} (free : α) (hr : ∀ j a, readReg regs j = some a → p a)
    (hv : ∀ a, v = some a → p a) (j : Fin 16) (a : α)
    (h : readReg (putReg d v free regs) j = some a) : p a := by
  by_cases hd : d = some j
  · subst hd
    exact hv a (by simpa using h)
  · exact hr j a (by rwa [readReg_putReg_other hd] at h)

/-! ### The values that a command delivers -/

/-- The word a command delivers into its W destination, `none` where that becomes indeterminate. -/
def valueW (i : Instr) (s : State) : Option Word :=
  match i with
  | .wLi _ imm => some (imm.zeroExtend 32)
  | .wLd _ off => (loadBytes s off 4).map fun bs => BitVec.ofNat 32 (leNat bs)
  | .wMov _ wa => getW s wa
  | .gfGetc _ fa idx =>
    if h : idx.toNat < 19 then (getF s fa).map fun a => (a[idx.toNat]).zeroExtend 32 else none
  | .mpAdd _ wa wb => do mpAdd (← getW s wa) (← getW s wb)
  | .mpSub _ wa wb => do mpSub (← getW s wa) (← getW s wb)
  | .mpFrommonty _ wa => do mpReduce (← getW s wa).toNat
  | .mpMontymul _ wa wb => do mpMontymul (← getW s wa) (← getW s wb)
  | .mpTomonty _ wa => do mpTomonty (← getW s wa)
  | .mpInv _ wa => do mpInv (← getW s wa)
  | .mpIsQr _ wa => do mpIsQr (← getW s wa)
  | .gfSqrt _ _ fa => ((getF s fa).map fval).map fun a => boolWord (gfSqrtOk a)
  | .gfIsqr _ fa => (getF s fa).map fun a => boolWord (gfIsSquare (fval a))
  | .gfIsneg _ fa => (getF s fa).map fun a => boolWord (gfIsNeg (fval a))
  | .gfEq _ fa fb => do pure (boolWord (decide ((← getF s fa) = (← getF s fb))))
  | .gfDecode _ _ off => (loadBytes s off 32).map fun bs => boolWord (decodeField bs).isSome
  | .scDecodeStrict _ _ wlen off =>
    (loadLength s off (byteLength s wlen)).map fun bs => boolWord (decide (leNat bs < n))
  | .scIszero _ sa => (getS s sa).map fun a => boolWord (decide (a = 0))
  | .scEq _ sa sb => do pure (boolWord (decide ((← getS s sa) = (← getS s sb))))
  | .pVerifyVartime _ pa sb sc pe => do
    pure (boolWord (decide
      (pointMulMulGenAdd (← getP s pa) (← getS s sb) (← getS s sc) = (← getP s pe))))
  | .pDecode _ _ off => (loadBytes s off 32).map fun bs => boolWord (decodePoint bs).isSome
  | .pIsneutral _ pa => (getP s pa).map fun a => boolWord (decide (a = .neutral))
  | _ => none

/-- The cells a command delivers into its F destination, `none` where that becomes indeterminate. -/
def valueF (i : Instr) (s : State) : Option Cells :=
  match i with
  | .gfSetc fd wa idx =>
    if h : idx.toNat < 19 then do
      let a ← getF s fd
      let v ← getW s wa
      if isStored v then some (a.set idx.toNat (v.truncate 16)) else none
    else none
  | .gfMov _ fa => getF s fa
  | .gfSetzero _ => some (fld gfZero)
  | .gfSetone _ => some (fld gfOne)
  | .gfAdd _ fa fb => do pure (cellsAdd (← getF s fa) (← getF s fb))
  | .gfSub _ fa fb => do pure (cellsSub (← getF s fa) (← getF s fb))
  | .gfNeg _ fa => (getF s fa).map cellsNeg
  | .gfCondneg _ fa wb => do
    let a ← getF s fa
    let ctl ← getW s wb
    if ctl = 1 then some (cellsNeg a) else if ctl = 0 then some a else none
  | .gfMul _ fa fb => do pure (fld (gfMul (fval (← getF s fa)) (fval (← getF s fb))))
  | .gfSqr _ fa => (getF s fa).map fun a => fld (gfSqr (fval a))
  | .gfInv _ fa => (getF s fa).map fun a => fld (gfInv (fval a))
  | .gfSqrt _ _ fa => ((getF s fa).map fval).map fun a => fld (gfSqrtRoot a)
  | .gfCubert _ fa => (getF s fa).map fun a => fld (gfCubert (fval a))
  | .gfDecode _ _ off => (loadBytes s off 32).bind fun bs => (decodeField bs).map fld
  | .gfMaptobase _ off => (loadBytes s off 48).map fun bs => fld (mapToBase bs)
  | _ => none

/-- The residue a command delivers into its S destination, `none` where that becomes indeterminate. -/
def valueS (i : Instr) (s : State) : Option Scalar :=
  match i with
  | .scMov _ sa => getS s sa
  | .scSetzero _ => some 0
  | .scSetone _ => some 1
  | .scDecodeStrict _ _ wlen off => (loadLength s off (byteLength s wlen)).bind fun bs =>
    if leNat bs < n then some (Fin.ofNat n (leNat bs)) else none
  | .scDecodeReduce _ wlen off =>
    (loadLength s off (byteLength s wlen)).map fun bs => Fin.ofNat n (leNat bs)
  | .scAdd _ sa sb => do pure ((← getS s sa) + (← getS s sb))
  | .scSub _ sa sb => do pure ((← getS s sa) - (← getS s sb))
  | .scNeg _ sa => (getS s sa).map fun a => -a
  | .scMul _ sa sb => do pure ((← getS s sa) * (← getS s sb))
  | .scCondcopy _ sa wb => do
    let a ← getS s sa
    let ctl ← getW s wb
    if ctl = 1 then some a else none
  | .scNormalize _ sa => getS s sa
  | _ => none

/-- The point a command delivers into its P destination, `none` where that becomes indeterminate. -/
def valueP (i : Instr) (s : State) : Option Point :=
  match i with
  | .pMov _ pa => getP s pa
  | .pSetneutral _ => some .neutral
  | .pSetgen _ => some generator
  | .pAdd _ pa pb => do pure (pointAdd (← getP s pa) (← getP s pb))
  | .pNeg _ pa => (getP s pa).map pointNeg
  | .pMul2k _ pa k => (getP s pa).map fun a => pointDouble a k.toNat
  | .pMul _ pa sb => do
    let a ← getP s pa
    let b ← getS s sb
    pure (pointMul b a)
  | .pMulgen _ sa => (getS s sa).map pointMulGen
  | .pMulMulgenAdd _ pa sb sc => do
    pure (pointMulMulGenAdd (← getP s pa) (← getS s sb) (← getS s sc))
  | .pDecode _ _ off => (loadBytes s off 32).map fun bs => (decodePoint bs).getD .neutral
  | _ => none

/-- The bytes a command stores, `none` where they become indeterminate. -/
def valueBytes (i : Instr) (s : State) : Option (List Byte) :=
  match i with
  | .wSt wa _ => (getW s wa).map fun v => leBytes 4 v.toNat
  | .gfEncode fa _ => (getF s fa).map fun a => encodeField (fval a)
  | .scEncode sa _ => (getS s sa).map fun a => leBytes 32 a.val
  | .scReduceBasisVartime sa _ => (getS s sa).map fun a => pairBytes (reduceBasis a.val)
  | .pEncode pa _ => (getP s pa).map encodePoint
  | .pEncodeX pa _ => (getP s pa).map encodePointX
  | _ => none

/-! ### The state a command leaves -/

/-- The state after a command has delivered its values. A command with two destinations draws the free
value of its W destination first. -/
def deliver (i : Instr) (s : State) : State :=
  let k := s.fresh + draws (destW i) (valueW i s)
  { s with
    regsW := putReg (destW i) (valueW i s) (Config.freeWord s.fresh) s.regsW
    regsF := putReg (destF i) (valueF i s) (Config.freeCells k) s.regsF
    regsS := putReg (destS i) (valueS i s) (Config.freeScalar k) s.regsS
    regsP := putReg (destP i) (valueP i s) (Config.freePoint k) s.regsP
    buf := putBytes (storeRange i) (valueBytes i s) s.buf
    fresh := k + draws (destF i) (valueF i s) + draws (destS i) (valueS i s)
      + draws (destP i) (valueP i s) }

/-- Is the command an SC_CONDCOPY whose control word is 0, so that its destination keeps whatever it
held (R180)? -/
def keepsDestination (i : Instr) (s : State) : Bool :=
  match i with
  | .scCondcopy _ sa wb => (getS s sa).isSome && getW s wb == some 0
  | _ => false

/-- The state after a command: an ill-formed term raises IllegalCommand (log 23), an access outside BUF
BufRange (R53), and every other command delivers its values. -/
def result (i : Instr) (s : State) : State :=
  if i.wellFormed = false then raise .illegalCommand s
  else if raisesBufRange s i = true then raise .bufRange s
  else if keepsDestination i s = true then s
  else deliver i s

/-- The range check of a load is what raisesBufRange computes (R52). -/
theorem inRange_load (off : Off12) (len : Nat) (s t : State) : inRange off len s t =
    if (outOfRange none || outOfRange (some (off.toNat, len))) = true then raise .bufRange s
    else t := by
  simp [inRange, outOfRange]

/-- The range check of a store is what raisesBufRange computes (R53). -/
theorem inRange_store (off : Off12) (len : Nat) (s t : State) : inRange off len s t =
    if (outOfRange (some (off.toNat, len)) || outOfRange none) = true then raise .bufRange s
    else t := by
  simp [inRange, outOfRange]

/-- So is that of a load of variable length (R171, R172; log 5). -/
theorem inLengthRange_load (off : Off12) (len : Option Nat) (s t : State) :
    inLengthRange off len s t =
      if (outOfRange none || outOfRange (len.map fun k => (off.toNat, k))) = true then
        raise .bufRange s
      else t := by
  cases len with
  | none => rfl
  | some k => exact inRange_load off k s t

theorem result_of_raisesBufRange {i : Instr} {s : State} (hw : i.wellFormed = true)
    (hr : raisesBufRange s i = true) : result i s = raise .bufRange s := by
  simp [result, hw, hr]

theorem result_of_inside {i : Instr} {s : State} (hw : i.wellFormed = true)
    (hr : raisesBufRange s i = false) :
    result i s = if keepsDestination i s = true then s else deliver i s := by
  simp [result, hw, hr]

theorem result_of_legal {i : Instr} {s : State} (hw : i.wellFormed = true)
    (hr : raisesBufRange s i = false) (hk : keepsDestination i s = false) :
    result i s = deliver i s := by
  simp [result_of_inside hw hr, hk]

theorem result_of_illFormed {i : Instr} (hw : i.wellFormed = false) (s : State) :
    result i s = raise .illegalCommand s := by
  simp [result, hw]

/-- SC_CONDCOPY keeps its destination, or delivers its source or nothing (R180). -/
theorem execScCondcopy_eq (sd sa : SReg) (wb : WReg) (s : State) :
    execScCondcopy sd sa wb s = .next (
      if keepsDestination (.scCondcopy sd sa wb) s = true then s
      else setS s sd (valueS (.scCondcopy sd sa wb) s)) := by
  unfold execScCondcopy
  split
  next a ctl ha hc =>
    by_cases h1 : ctl = 1#32
    · simp [keepsDestination, valueS, ha, hc, h1]
    · by_cases h0 : ctl = 0#32 <;> simp [keepsDestination, valueS, ha, hc, h1, h0]
  next h =>
    cases ha : getS s sa with
    | none => simp [keepsDestination, valueS, ha]
    | some a =>
      cases hc : getW s wb with
      | none => simp [keepsDestination, valueS, ha, hc]
      | some ctl => exact (h a ctl ha hc).elim

/-- Every command does what `result` says. -/
theorem exec_eq_result (i : Instr) (s : State) : exec i s = .next (result i s) := by
  cases i
  case gfGetc wd fa idx =>
    by_cases h : idx.toNat < 19
    · have hw : (Instr.gfGetc wd fa idx).wellFormed = true := decide_eq_true (Nat.le_of_lt_succ h)
      rw [result_of_legal hw rfl rfl]
      simp only [exec, execGfGetc, h, dite_true, setW_eq_putReg]
      simp only [deliver, valueW, h, dite_true]
      rfl
    · have hw : (Instr.gfGetc wd fa idx).wellFormed = false :=
        decide_eq_false fun h' => h (Nat.lt_succ_of_le h')
      rw [result_of_illFormed hw]
      simp [exec, execGfGetc, h]
  case gfSetc fd wa idx =>
    by_cases h : idx.toNat < 19
    · have hw : (Instr.gfSetc fd wa idx).wellFormed = true := decide_eq_true (Nat.le_of_lt_succ h)
      rw [result_of_legal hw rfl rfl]
      simp only [exec, execGfSetc, h, dite_true, setF_eq_putReg]
      simp only [deliver, valueF, h, dite_true]
      rfl
    · have hw : (Instr.gfSetc fd wa idx).wellFormed = false :=
        decide_eq_false fun h' => h (Nat.lt_succ_of_le h')
      rw [result_of_illFormed hw]
      simp [exec, execGfSetc, h]
  case scCondcopy sd sa wb =>
    refine (execScCondcopy_eq sd sa wb s).trans (congrArg Host.Outcome.next ?_)
    rw [setS_eq_putReg]
    rfl
  case scDecodeStrict wd sd wlen off =>
    refine congrArg Host.Outcome.next ((inLengthRange_load _ _ s _).trans ?_)
    simp only [setW_eq_putReg, setS_eq_putReg]
    rfl
  case scDecodeReduce sd wlen off =>
    refine congrArg Host.Outcome.next ((inLengthRange_load _ _ s _).trans ?_)
    rw [setS_eq_putReg]
    rfl
  case wLi | wMov | mpAdd | mpSub | mpFrommonty | mpMontymul | mpTomonty | mpInv | mpIsQr | gfIsqr |
      gfIsneg | gfEq | scIszero | scEq | pVerifyVartime | pIsneutral =>
    exact congrArg Host.Outcome.next (setW_eq_putReg s _ _)
  case gfMov | gfSetzero | gfSetone | gfAdd | gfSub | gfNeg | gfCondneg | gfMul | gfSqr | gfInv |
      gfCubert =>
    exact congrArg Host.Outcome.next (setF_eq_putReg s _ _)
  case scMov | scSetzero | scSetone | scAdd | scSub | scNeg | scMul | scNormalize =>
    exact congrArg Host.Outcome.next (setS_eq_putReg s _ _)
  case pMov | pSetneutral | pSetgen | pAdd | pNeg | pMul2k | pMul | pMulgen | pMulMulgenAdd =>
    exact congrArg Host.Outcome.next (setP_eq_putReg s _ _)
  case gfSqrt wd fc fa =>
    simp only [exec, execGfSqrt, setF_eq_putReg, setW_eq_putReg]
    rfl
  case wSt | gfEncode | scEncode | scReduceBasisVartime | pEncode | pEncodeX =>
    refine congrArg Host.Outcome.next ((inRange_store _ _ s _).trans ?_)
    rw [storeBytes_eq_putBytes]
    rfl
  case wLd | gfMaptobase  =>
    refine congrArg Host.Outcome.next ((inRange_load _ _ s _).trans ?_)
    simp only [setW_eq_putReg, setF_eq_putReg]
    rfl
  case gfDecode | pDecode =>
    refine congrArg Host.Outcome.next ((inRange_load _ _ s _).trans ?_)
    simp only [setW_eq_putReg, setF_eq_putReg, setP_eq_putReg]
    rfl

/-- What holds of the state itself, after every engine error raised on it and after a delivery inside
BUF holds after every command. -/
theorem result_induction {P : State → Prop} {i : Instr} {s : State} (raised : ∀ e, P (raise e s))
    (kept : P s) (delivered : raisesBufRange s i = false → P (deliver i s)) : P (result i s) := by
  unfold result
  split
  · exact raised _
  · split
    · exact raised _
    · split
      · exact kept
      · exact delivered (Bool.eq_false_of_not_eq_true ‹_›)

/-- exec_next said of `result`: what a command keeps of the control state. -/
theorem result_control (i : Instr) (s : State) : (result i s).idx = s.idx ∧
    (result i s).pending = s.pending ∧ (result i s).hostReads = s.hostReads ∧
    ((result i s).status = s.status ∨ ∃ e, result i s = raise e s) := by
  obtain ⟨t, ht, h⟩ := exec_next i s
  rw [exec_eq_result] at ht
  cases ht
  exact h

end Sys2Proof.Machine
end

section
/-! SUPPORT. What one step does, by the kind of the host's transaction (spec/60_exceptions.md R320). -/

namespace Sys2Proof.Machine

/-- What a step can do: one constructor per kind of transaction, three for an issued word (R320). -/
inductive StepResult (s : State) : State → Prop where
  | discarded (rest polls) (he : inError s = true) : StepResult s (discardCommand rest polls s)
  | illegal (rest early late) (he : inError s = false) :
    StepResult s (endCommand late (raise .illegalCommand (startCommand rest early s)))
  | command (i rest early late) (he : inError s = false) :
    StepResult s (endCommand late (result i (startCommand rest early s)))
  | bufWritten (rest a v) : StepResult s (hostWrite rest a v s)
  | bufRead (rest a) : StepResult s (hostReadByte rest a s)
  | statusRead (rest) : StepResult s (hostReadStatus rest s)
  | reset (rest) : StepResult s (hostReset rest s)

/-- R320 item 1 for a legal word: BUSY set, the command, BUSY cleared. -/
theorem step_issue_result {s : State} {w : BitVec 32} {early late : Nat} {rest : List HostTxn}
    {i : Instr} (hp : s.pending = .issue w early late :: rest) (he : inError s = false)
    (hd : decode w = .ok i) :
    step s = .next (endCommand late (result i (startCommand rest early s))) := by
  rw [step_issue_legal hp he hd, exec_eq_result]
  rfl

theorem step_writeBuf {s : State} {a : BitVec 12} {v : Byte} {rest : List HostTxn}
    (hp : s.pending = .writeBuf a v :: rest) : step s = .next (hostWrite rest a v s) := by
  simp [step, hp]

theorem step_readBuf {s : State} {a : BitVec 12} {rest : List HostTxn}
    (hp : s.pending = .readBuf a :: rest) : step s = .next (hostReadByte rest a s) := by
  simp [step, hp]

theorem step_readStatus {s : State} {rest : List HostTxn}
    (hp : s.pending = .readStatus :: rest) : step s = .next (hostReadStatus rest s) := by
  simp [step, hp]

theorem step_reset {s : State} {rest : List HostTxn}
    (hp : s.pending = .reset :: rest) : step s = .next (hostReset rest s) := by
  simp [step, hp]

/-- A step with nothing pending is the fault runOver (log 7), every other completes. -/
theorem step_cases (s : State) : (s.pending = [] ∧ step s = .fault .runOver) ∨
    (s.pending ≠ [] ∧ ∃ s', step s = .next s' ∧ StepResult s s') := by
  match hp : s.pending with
  | [] => exact .inl ⟨rfl, by simp [step, hp]⟩
  | .issue w early late :: rest =>
    refine .inr ⟨by simp, ?_⟩
    cases he : inError s with
    | true => exact ⟨_, step_issue_discarded hp he, .discarded _ _ he⟩
    | false =>
      cases hd : decode w with
      | error e => exact ⟨_, step_issue_illegal hp he hd, .illegal _ _ _ he⟩
      | ok i => exact ⟨_, step_issue_result hp he hd, .command _ _ _ _ he⟩
  | .writeBuf a v :: rest => exact .inr ⟨by simp, _, step_writeBuf hp, .bufWritten rest a v⟩
  | .readBuf a :: rest => exact .inr ⟨by simp, _, step_readBuf hp, .bufRead rest a⟩
  | .readStatus :: rest => exact .inr ⟨by simp, _, step_readStatus hp, .statusRead rest⟩
  | .reset :: rest => exact .inr ⟨by simp, _, step_reset hp, .reset rest⟩

theorem stepResult_of_step {s s' : State} (h : step s = .next s') : StepResult s s' := by
  obtain ⟨-, h'⟩ | ⟨-, t, h', ht⟩ := step_cases s
  · rw [h'] at h
    cases h
  · rw [h'] at h
    cases h
    exact ht

end Sys2Proof.Machine
end

section
/-! SUPPORT. What every command and every step keeps: the canonical form of BUF, a legal STATUS, the
range of the stored cells, and the points on the curve (spec/10_state.md R24, R28, R31). -/

namespace Sys2Proof.Machine

/-! ### The range of stored cells -/

theorem cellsStored_set {a : Cells} {v : Word} {k : Nat} (hk : k < 19)
    (ha : cellsStored a = true) (hv : isStored v = true) :
    cellsStored (a.set k (v.truncate 16)) = true := by
  rw [cellsStored_iff] at ha ⊢
  obtain ⟨h1, h2⟩ := isStored_iff.1 hv
  have hv' : (v.truncate 16).toNat = v.toNat := by
    rw [BitVec.truncate_eq_setWidth, BitVec.toNat_setWidth, Nat.mod_eq_of_lt (by omega)]
  intro j
  by_cases h : k = j.val
  · subst h
    simp only [Fin.getElem_fin, Vector.getElem_set_self, hv']
    exact ⟨h1, h2⟩
  · simpa [h] using ha j

/-- R24: the cells a command delivers are in range where those it reads are. -/
theorem valueF_stored {i : Instr} {s : State} (hs : storedWf s) {c : Cells}
    (h : valueF i s = some c) : cellsStored c = true := by
  cases i
  case gfSetc fd wa idx =>
    by_cases hk : idx.toNat < 19
    · simp only [valueF, hk, dite_true, Option.bind_eq_bind, Option.bind_eq_some_iff] at h
      obtain ⟨a, ha, v, -, h⟩ := h
      split at h
      · exact Option.some.inj h ▸ cellsStored_set hk (hs _ _ ha) ‹_›
      · cases h
    · simp [valueF, hk] at h
  case gfCondneg fd fa wb =>
    simp only [valueF, Option.bind_eq_bind, Option.bind_eq_some_iff] at h
    obtain ⟨a, ha, ctl, -, h⟩ := h
    split at h
    · exact Option.some.inj h ▸ cellsNeg_stored a
    · split at h
      · exact Option.some.inj h ▸ hs _ _ ha
      · cases h
  case gfMov fd fa => exact hs _ _ h
  case gfSetzero | gfSetone =>
    exact Option.some.inj h ▸ cellsStored_fld _
  case gfNeg fd fa =>
    obtain ⟨a, -, rfl⟩ := Option.map_eq_some_iff.1 h
    exact cellsNeg_stored a
  case gfAdd fd fa fb =>
    obtain ⟨a, -, h⟩ := Option.bind_eq_some_iff.1 h
    obtain ⟨b, -, h⟩ := Option.bind_eq_some_iff.1 h
    exact Option.some.inj h ▸ cellsAdd_stored a b
  case gfSub fd fa fb =>
    obtain ⟨a, -, h⟩ := Option.bind_eq_some_iff.1 h
    obtain ⟨b, -, h⟩ := Option.bind_eq_some_iff.1 h
    exact Option.some.inj h ▸ cellsSub_stored a b
  case gfMul fd fa fb =>
    obtain ⟨a, -, h⟩ := Option.bind_eq_some_iff.1 h
    obtain ⟨b, -, h⟩ := Option.bind_eq_some_iff.1 h
    exact Option.some.inj h ▸ cellsStored_fld _
  case gfSqr | gfInv | gfSqrt | gfCubert | gfMaptobase =>
    obtain ⟨a, -, rfl⟩ := Option.map_eq_some_iff.1 h
    exact cellsStored_fld _
  case gfDecode wd fd off =>
    obtain ⟨bs, -, h⟩ := Option.bind_eq_some_iff.1 h
    obtain ⟨a, -, rfl⟩ := Option.map_eq_some_iff.1 h
    exact cellsStored_fld a
  all_goals cases h

/-- R24: every command keeps the range of the stored cells. -/
theorem result_keeps_stored (i : Instr) {s : State} (hs : storedWf s) : storedWf (result i s) :=
  result_induction (fun _ => hs) hs fun _ =>
    forall_readReg_putReg _ hs fun _ => valueF_stored hs

/-! ### The canonical form of BUF -/

theorem encodeField_length (a : Gf) : (encodeField a).length = 32 := by
  simp [encodeField, encodeGroup]

theorem encodePoint_length (a : Point) : (encodePoint a).length = 32 := by
  cases a <;> simp [encodePoint, neutralBytes, orByte31, encodeField_length]

theorem encodePointX_length (a : Point) : (encodePointX a).length = 32 := by
  cases a <;> simp [encodePointX, neutralBytes, encodeField_length]

theorem pairBytes_length (c : Int × Int) : (pairBytes c).length = 32 := by
  simp [pairBytes, sleBytes]

theorem length_of_map_eq_some {α : Type} {f : α → List Byte} {len : Nat}
    (hf : ∀ a, (f a).length = len) {o : Option α} {bs : List Byte} (h : o.map f = some bs) :
    bs.length = len := by
  obtain ⟨a, -, rfl⟩ := Option.map_eq_some_iff.1 h
  exact hf a

/-- A command stores as many bytes as its range has (R58). -/
theorem valueBytes_length {i : Instr} {s : State} {addr len : Nat} {bs : List Byte}
    (hr : storeRange i = some (addr, len)) (h : valueBytes i s = some bs) : bs.length = len := by
  cases i <;> cases hr
  case wSt => exact length_of_map_eq_some (fun v : Word => leBytes_length 4 v.toNat) h
  case gfEncode => exact length_of_map_eq_some (fun a => encodeField_length (fval a)) h
  case scEncode => exact length_of_map_eq_some (fun a : Scalar => leBytes_length 32 a.val) h
  case scReduceBasisVartime => exact length_of_map_eq_some (fun _ => pairBytes_length _) h
  case pEncode => exact length_of_map_eq_some encodePoint_length h
  case pEncodeX => exact length_of_map_eq_some encodePointX_length h

/-- An access that raises no BufRange is inside BUF (R53). -/
theorem storeRange_inside {i : Instr} {s : State} {addr len : Nat}
    (h : raisesBufRange s i = false) (hr : storeRange i = some (addr, len)) :
    addr + len ≤ 4096 := by
  simp only [raisesBufRange, hr, Bool.or_eq_false_iff] at h
  simpa [outOfRange] using h.1

/-- Every command keeps the canonical form of BUF (log 4). -/
theorem result_keeps_memoryWf (i : Instr) {s : State} (hs : memoryWf s.buf = true) :
    memoryWf (result i s).buf = true := by
  refine result_induction (P := fun t => memoryWf t.buf = true) (fun _ => hs) hs fun hr => ?_
  simp only [deliver]
  cases hrange : storeRange i with
  | none => exact hs
  | some r =>
    obtain ⟨addr, len⟩ := r
    cases hv : valueBytes i s with
    | none => exact eraseBytes_wf addr len hs
    | some bs =>
      have hin := storeRange_inside hr hrange
      rw [← valueBytes_length hrange hv] at hin
      exact writeBytes_wf bs hin hs

/-! ### STATUS -/

/-- R302: outside the error state a legal STATUS is 0. -/
theorem status_eq_zero {s : State} (hs : statusWf s.status = true) (he : inError s = false) :
    s.status = 0 := by
  simp only [statusWf, Bool.or_eq_true, beq_iff_eq] at hs
  obtain (h | h) | h := hs
  · exact h
  · rw [inError, h] at he
    exact absurd he (by decide)
  · rw [inError, h] at he
    exact absurd he (by decide)

/-- R302, R304: what an engine error raised while BUSY is 1 leaves once BUSY is 0 again. -/
theorem statusWf_raised (e : EngineError) :
    statusWf (statusClearBusy (statusRaise (statusSetBusy 0) (causeCode e))) = true := by
  cases e <;> decide

/-- R320 item 1: a command started with STATUS 0 ends with a legal STATUS. -/
theorem result_keeps_statusWf (i : Instr) {s : State} (hs : s.status = statusSetBusy 0) :
    statusWf (statusClearBusy (result i s).status) = true := by
  obtain ⟨-, -, -, h | ⟨e, h⟩⟩ := result_control i s
  · rw [h, hs]
    decide
  · rw [h, raise_status, hs]
    exact statusWf_raised e

/-! ### Reset -/

theorem readReg_indeterminate {α : Type} (x : α) (j : Fin 16) :
    readReg (Vector.replicate 16 ⟨x, false⟩) j = none := by
  simp [readReg]

theorem reset_getW (j : WReg) : getW State.reset j = none := readReg_indeterminate _ j

theorem reset_getF (j : FReg) : getF State.reset j = none := readReg_indeterminate _ j

theorem reset_getS (j : SReg) : getS State.reset j = none := readReg_indeterminate _ j

theorem reset_getP (j : PReg) : getP State.reset j = none := readReg_indeterminate _ j

theorem reset_inv : Inv State.reset where
  buf := rfl
  status := rfl
  stored j a h := by
    rw [reset_getF] at h
    cases h

theorem reset_pointsOnCurve : pointsOnCurve State.reset := by
  intro j a h
  rw [reset_getP] at h
  cases h

/-- A reset the host asserts leaves the engine as State.reset has it (R331, log 10). -/
theorem hostReset_inv (rest : List HostTxn) (s : State) : Inv (hostReset rest s) :=
  ⟨reset_inv.buf, reset_inv.status, reset_inv.stored⟩

theorem hostReset_pointsOnCurve (rest : List HostTxn) (s : State) :
    pointsOnCurve (hostReset rest s) := reset_pointsOnCurve

/-! ### The invariant -/

/-- Settles O17: by the kind of transaction, a command by what it delivers. -/
theorem stepKeepsTheInvariant : Obligations.StepKeepsTheInvariant := by
  unfold Obligations.StepKeepsTheInvariant
  intro s s' hs h
  obtain ⟨hbuf, hstatus, hstored⟩ := hs
  cases stepResult_of_step h with
  | discarded rest polls he => exact ⟨hbuf, hstatus, hstored⟩
  | illegal rest early late he =>
    refine ⟨hbuf, ?_, hstored⟩
    simp only [endCommand_status, raise_status, startCommand_status, status_eq_zero hstatus he]
    exact statusWf_raised _
  | command i rest early late he =>
    refine ⟨result_keeps_memoryWf i hbuf, result_keeps_statusWf i ?_, result_keeps_stored i hstored⟩
    rw [startCommand_status, status_eq_zero hstatus he]
  | bufWritten rest a v => exact ⟨writeByte_wf v a.isLt hbuf, hstatus, hstored⟩
  | bufRead rest a => exact ⟨hbuf, hstatus, hstored⟩
  | statusRead rest => exact ⟨hbuf, hstatus, hstored⟩
  | reset rest => exact hostReset_inv rest s

/-- Settles O16: nothing in BUF, STATUS 0, and no determinate register. -/
theorem resetMeetsTheInvariants : Obligations.ResetMeetsTheInvariants := by
  unfold Obligations.ResetMeetsTheInvariants
  exact ⟨reset_inv, reset_pointsOnCurve⟩

/-! ### Points -/

theorem onCurve_pointAdd {a b : Point} (ha : onCurve a = true) (hb : onCurve b = true) :
    onCurve (pointAdd a b) = true := by
  obtain ⟨_, _, _, -, hadd, -, -⟩ := exists_curve_group
  exact (hadd a b ha hb).1

theorem onCurve_pointNeg {a : Point} (ha : onCurve a = true) : onCurve (pointNeg a) = true := by
  obtain ⟨_, _, _, -, -, hneg, -⟩ := exists_curve_group
  exact (hneg a ha).1

theorem onCurve_generator : onCurve generator = true := by decide +kernel

theorem onCurve_pointDouble {a : Point} (ha : onCurve a = true) (k : Nat) :
    onCurve (pointDouble a k) = true := by
  induction k with
  | zero => exact ha
  | succ k ih => exact onCurve_pointAdd ih ih

theorem onCurve_pointMulBits {a : Point} (ha : onCurve a = true) (fuel m : Nat) :
    onCurve (pointMulBits a fuel m) = true := by
  induction fuel generalizing m with
  | zero => rfl
  | succ fuel ih =>
    have hd := onCurve_pointAdd (ih (m / 2)) (ih (m / 2))
    rw [pointMulBits]
    split
    · rfl
    · dsimp only
      split
      · exact onCurve_pointAdd hd ha
      · exact hd

theorem onCurve_pointMul {a : Point} (ha : onCurve a = true) (k : Scalar) :
    onCurve (pointMul k a) = true := onCurve_pointMulBits ha 252 k.val

theorem onCurve_pointMulMulGenAdd {a : Point} (ha : onCurve a = true) (k l : Scalar) :
    onCurve (pointMulMulGenAdd a k l) = true :=
  onCurve_pointAdd (onCurve_pointMul ha k) (onCurve_pointMul onCurve_generator l)

/-- R219: make_y gives a second coordinate of a point. -/
theorem onCurve_makeY {x y : Gf} {sign : Bool} (h : makeY x sign = some y) :
    onCurve (.affine x y) = true := by
  simp only [makeY] at h
  split at h
  next hok =>
    have hr : onCurve (.affine x (gfSqrtRoot (curveRhs x))) = true := by
      simpa [onCurve, gfSqrtOk] using hok
    have hn := onCurve_pointNeg hr
    obtain rfl := Option.some.inj h
    split
    · exact hr
    · exact hn
  next => cases h

/-- R220: what a string decodes to is a point of the curve. -/
theorem onCurve_decodePoint {bs : List Byte} {a : Point} (h : decodePoint bs = some a) :
    onCurve a = true := by
  simp only [decodePoint] at h
  split at h
  · cases h
  · obtain ⟨x, -, h⟩ := Option.bind_eq_some_iff.1 h
    obtain ⟨y, hy, h⟩ := Option.bind_eq_some_iff.1 h
    exact Option.some.inj h ▸ onCurve_makeY hy

/-- R200, R201: the point a command delivers is on the curve where those it reads are. -/
theorem valueP_onCurve {i : Instr} {s : State} (hs : pointsOnCurve s) {c : Point}
    (h : valueP i s = some c) : onCurve c = true := by
  cases i
  case pMov => exact hs _ _ h
  case pSetneutral => exact Option.some.inj h ▸ rfl
  case pSetgen => exact Option.some.inj h ▸ onCurve_generator
  case pAdd =>
    obtain ⟨a, ha, h⟩ := Option.bind_eq_some_iff.1 h
    obtain ⟨b, hb, h⟩ := Option.bind_eq_some_iff.1 h
    exact Option.some.inj h ▸ onCurve_pointAdd (hs _ _ ha) (hs _ _ hb)
  case pNeg =>
    obtain ⟨a, ha, rfl⟩ := Option.map_eq_some_iff.1 h
    exact onCurve_pointNeg (hs _ _ ha)
  case pMul2k =>
    obtain ⟨a, ha, rfl⟩ := Option.map_eq_some_iff.1 h
    exact onCurve_pointDouble (hs _ _ ha) _
  case pMul =>
    obtain ⟨a, ha, h⟩ := Option.bind_eq_some_iff.1 h
    obtain ⟨k, -, h⟩ := Option.bind_eq_some_iff.1 h
    exact Option.some.inj h ▸ onCurve_pointMul (hs _ _ ha) k
  case pMulgen =>
    obtain ⟨k, -, rfl⟩ := Option.map_eq_some_iff.1 h
    exact onCurve_pointMul onCurve_generator k
  case pMulMulgenAdd =>
    obtain ⟨a, ha, h⟩ := Option.bind_eq_some_iff.1 h
    obtain ⟨k, -, h⟩ := Option.bind_eq_some_iff.1 h
    obtain ⟨l, -, h⟩ := Option.bind_eq_some_iff.1 h
    exact Option.some.inj h ▸ onCurve_pointMulMulGenAdd (hs _ _ ha) k l
  case pDecode =>
    obtain ⟨bs, -, rfl⟩ := Option.map_eq_some_iff.1 h
    cases hd : decodePoint bs with
    | none => rfl
    | some a => exact onCurve_decodePoint hd
  all_goals cases h

/-- R28: every command keeps the points of the determinate registers on the curve. -/
theorem result_keeps_pointsOnCurve (i : Instr) {s : State} (hs : pointsOnCurve s) :
    pointsOnCurve (result i s) :=
  result_induction (fun _ => hs) hs fun _ =>
    forall_readReg_putReg _ hs fun _ => valueP_onCurve hs

/-- Settles O18: only a command writes a point register, and what it delivers is on the curve. -/
theorem stepKeepsPointsOnTheCurve : Obligations.StepKeepsPointsOnTheCurve := by
  unfold Obligations.StepKeepsPointsOnTheCurve
  intro s s' hs h
  cases stepResult_of_step h with
  | command i rest early late he => exact result_keeps_pointsOnCurve i hs
  | reset rest => exact hostReset_pointsOnCurve rest s
  | discarded => exact hs
  | illegal => exact hs
  | bufWritten => exact hs
  | bufRead => exact hs
  | statusRead => exact hs

end Sys2Proof.Machine
end

section
/-! SUPPORT. Two states that differ only in what their indeterminate registers hold take steps to such
states: what a command delivers is the same for both, and every update keeps Agree
(spec/10_state.md R33). -/

namespace Sys2Proof.Machine

theorem readReg_eq_of_agree {α : Type} {a b : Vector (Reg α) 16}
    (h : ∀ j : Fin 16, regAgree a[j] b[j]) (j : Fin 16) : readReg a j = readReg b j := by
  obtain ⟨hdet, hval⟩ := h j
  unfold readReg
  rw [← hdet]
  split
  · rw [hval ‹_›]
  · rfl

/-- Register files that agree still agree after the same value is delivered. -/
theorem putReg_agree {α : Type} {a b : Vector (Reg α) 16} (h : ∀ j : Fin 16, regAgree a[j] b[j])
    (d : Option (Fin 16)) (v : Option α) (free : α) (j : Fin 16) :
    regAgree (putReg d v free a)[j] (putReg d v free b)[j] := by
  by_cases hd : d = some j
  · subst hd
    cases v <;> simp [putReg, regAgree]
  · rw [getElem_putReg_other hd, getElem_putReg_other hd]
    exact h j

section
variable {s t : State} (h : Agree s t)
include h

theorem Agree.getW : getW s = getW t := funext (readReg_eq_of_agree h.regsW)

theorem Agree.getF : getF s = getF t := funext (readReg_eq_of_agree h.regsF)

theorem Agree.getS : getS s = getS t := funext (readReg_eq_of_agree h.regsS)

theorem Agree.getP : getP s = getP t := funext (readReg_eq_of_agree h.regsP)

theorem Agree.byteLength : byteLength s = byteLength t := by
  unfold Machine.byteLength
  rw [h.getW]

theorem Agree.loadBytes : loadBytes s = loadBytes t := by
  unfold Machine.loadBytes
  rw [h.buf]

theorem Agree.loadLength : loadLength s = loadLength t := by
  unfold Machine.loadLength
  rw [h.loadBytes]

theorem Agree.valueW (i : Instr) : valueW i s = valueW i t := by
  unfold Machine.valueW
  rw [h.getW, h.getF, h.getS, h.getP, h.loadBytes, h.loadLength, h.byteLength]

theorem Agree.valueF (i : Instr) : valueF i s = valueF i t := by
  unfold Machine.valueF
  rw [h.getW, h.getF, h.loadBytes]

theorem Agree.valueS (i : Instr) : valueS i s = valueS i t := by
  unfold Machine.valueS
  rw [h.getW, h.getS, h.loadLength, h.byteLength]

theorem Agree.valueP (i : Instr) : valueP i s = valueP i t := by
  unfold Machine.valueP
  rw [h.getS, h.getP, h.loadBytes]

theorem Agree.valueBytes (i : Instr) : valueBytes i s = valueBytes i t := by
  unfold Machine.valueBytes
  rw [h.getW, h.getF, h.getS, h.getP]

theorem Agree.raisesBufRange (i : Instr) : raisesBufRange s i = raisesBufRange t i := by
  unfold Machine.raisesBufRange loadRange
  rw [h.byteLength]

theorem Agree.keepsDestination (i : Instr) : keepsDestination i s = keepsDestination i t := by
  unfold Machine.keepsDestination
  rw [h.getW, h.getS]

theorem Agree.inError : inError s = inError t := by
  unfold Machine.inError
  rw [h.status]

theorem Agree.deliver (i : Instr) : Agree (deliver i s) (deliver i t) := by
  unfold Machine.deliver
  rw [h.valueW, h.valueF, h.valueS, h.valueP, h.valueBytes, h.fresh, h.buf]
  exact {
    regsW := putReg_agree h.regsW _ _ _
    regsF := putReg_agree h.regsF _ _ _
    regsS := putReg_agree h.regsS _ _ _
    regsP := putReg_agree h.regsP _ _ _
    status := h.status
    buf := rfl
    idx := h.idx
    pending := h.pending
    hostReads := h.hostReads
    fresh := rfl }

theorem Agree.raise (e : EngineError) : Agree (raise e s) (raise e t) :=
  { h with status := by rw [raise_status, raise_status, h.status] }

theorem Agree.result (i : Instr) : Agree (result i s) (result i t) := by
  unfold Machine.result
  rw [h.raisesBufRange, h.keepsDestination]
  split
  · exact h.raise _
  · split
    · exact h.raise _
    · split
      · exact h
      · exact h.deliver i

theorem Agree.startCommand (rest : List HostTxn) (early : Nat) :
    Agree (startCommand rest early s) (startCommand rest early t) :=
  { h with
    status := by rw [startCommand_status, startCommand_status, h.status]
    idx := congrArg (· + 1) h.idx
    pending := rfl
    hostReads := by rw [startCommand_hostReads, startCommand_hostReads, h.status, h.hostReads] }

theorem Agree.endCommand (late : Nat) : Agree (endCommand late s) (endCommand late t) :=
  { h with
    status := by rw [endCommand_status, endCommand_status, h.status]
    hostReads := by rw [endCommand_hostReads, endCommand_hostReads, h.status, h.hostReads] }

theorem Agree.discardCommand (rest : List HostTxn) (polls : Nat) :
    Agree (discardCommand rest polls s) (discardCommand rest polls t) :=
  { h with
    idx := congrArg (· + 1) h.idx
    pending := rfl
    hostReads := by rw [discardCommand_hostReads, discardCommand_hostReads, h.status, h.hostReads] }

theorem Agree.hostWrite (rest : List HostTxn) (a : BitVec 12) (v : Byte) :
    Agree (hostWrite rest a v s) (hostWrite rest a v t) :=
  { h with
    buf := by rw [hostWrite_buf, hostWrite_buf, h.buf]
    pending := rfl }

theorem Agree.hostReadByte (rest : List HostTxn) (a : BitVec 12) :
    Agree (hostReadByte rest a s) (hostReadByte rest a t) :=
  { h with
    pending := rfl
    hostReads := by rw [hostReadByte_hostReads, hostReadByte_hostReads, h.buf, h.hostReads] }

theorem Agree.hostReadStatus (rest : List HostTxn) :
    Agree (hostReadStatus rest s) (hostReadStatus rest t) :=
  { h with
    pending := rfl
    hostReads := by
      rw [hostReadStatus_hostReads, hostReadStatus_hostReads, h.status, h.hostReads] }

theorem Agree.hostReset (rest : List HostTxn) : Agree (hostReset rest s) (hostReset rest t) where
  regsW _ := ⟨rfl, fun _ => rfl⟩
  regsF _ := ⟨rfl, fun _ => rfl⟩
  regsS _ := ⟨rfl, fun _ => rfl⟩
  regsP _ := ⟨rfl, fun _ => rfl⟩
  status := rfl
  buf := rfl
  idx := rfl
  pending := rfl
  hostReads := h.hostReads
  fresh := congrArg (· + 1) h.fresh

end

/-- Settles O15: what a step does with the next transaction depends only on what agreeing states
share. -/
theorem indeterminateContentsHaveNoInfluence :
    Obligations.IndeterminateContentsHaveNoInfluence := by
  unfold Obligations.IndeterminateContentsHaveNoInfluence
  intro s t h
  have hst := h.pending
  match hp : t.pending with
  | [] => exact .inl ⟨hst.trans hp, rfl⟩
  | .issue w early late :: rest =>
    rw [hp] at hst
    have het := h.inError
    cases he : inError t with
    | true =>
      exact .inr ⟨_, _, step_issue_discarded hst (het.trans he), step_issue_discarded hp he,
        h.discardCommand _ _⟩
    | false =>
      cases hd : decode w with
      | error e =>
        exact .inr ⟨_, _, step_issue_illegal hst (het.trans he) hd, step_issue_illegal hp he hd,
          ((h.startCommand _ _).raise _).endCommand _⟩
      | ok i =>
        exact .inr ⟨_, _, step_issue_result hst (het.trans he) hd, step_issue_result hp he hd,
          ((h.startCommand _ _).result i).endCommand _⟩
  | .writeBuf a v :: rest =>
    exact .inr ⟨_, _, step_writeBuf (hst.trans hp), step_writeBuf hp, h.hostWrite _ _ _⟩
  | .readBuf a :: rest =>
    exact .inr ⟨_, _, step_readBuf (hst.trans hp), step_readBuf hp, h.hostReadByte _ _⟩
  | .readStatus :: rest =>
    exact .inr ⟨_, _, step_readStatus (hst.trans hp), step_readStatus hp, h.hostReadStatus _⟩
  | .reset :: rest =>
    exact .inr ⟨_, _, step_reset (hst.trans hp), step_reset hp, h.hostReset _⟩

end Sys2Proof.Machine
end

section
/-! SUPPORT. What a command with an indeterminate source delivers, when a command raises BufRange, and
what it leaves alone (spec/10_state.md R33, spec/60_exceptions.md R302, R304). -/

namespace Sys2Proof.Machine

/-! ### Indeterminate sources -/

/-- A source is indeterminate: a register of one of the four files, or a loaded byte. -/
theorem sourcesDeterminate_eq_false {s : State} {i : Instr} :
    sourcesDeterminate s i = false ↔
      (∃ r ∈ sourcesW i, getW s r = none) ∨ (∃ r ∈ sourcesF i, getF s r = none) ∨
      (∃ r ∈ sourcesS i, getS s r = none) ∨ (∃ r ∈ sourcesP i, getP s r = none) ∨
      ∃ r, loadRange s i = some r ∧ readBytes s.buf r.1 r.2 = none := by
  simp only [sourcesDeterminate, Bool.and_eq_false_iff, List.all_eq_false,
    Option.not_isSome_iff_eq_none, or_assoc]
  iterate 4 refine or_congr_right ?_
  cases loadRange s i with
  | none => simp
  | some r => simp

/-- R33: one indeterminate source, and every value delivered is indeterminate. The cases are the
commands with two, three and four sources, the two whose load has a variable length, and the rest with
one source or none. -/
theorem values_eq_none {i : Instr} {s : State} (h : sourcesDeterminate s i = false) :
    valueW i s = none ∧ valueF i s = none ∧ valueS i s = none ∧ valueP i s = none ∧
      valueBytes i s = none := by
  rw [sourcesDeterminate_eq_false] at h
  cases i <;> simp only [sourcesW, sourcesF, sourcesS, sourcesP, loadRange, List.mem_cons,
    List.not_mem_nil, or_false, false_or, exists_eq_or_imp, exists_eq_left, exists_eq_left',
    false_and, exists_false, reduceCtorEq, Option.some.injEq] at h
  case mpAdd | mpSub | mpMontymul | gfSetc | gfAdd | gfSub | gfCondneg | gfMul | gfEq | scAdd |
      scSub | scMul | scEq | scCondcopy | pAdd | pMul =>
    obtain h | h := h <;> simp [valueW, valueF, valueS, valueP, valueBytes, h]
  case pMulMulgenAdd =>
    obtain (h | h) | h := h <;> simp [valueW, valueF, valueS, valueP, valueBytes, h]
  case pVerifyVartime =>
    obtain (h | h) | h | h := h <;> simp [valueW, valueF, valueS, valueP, valueBytes, h]
  case scDecodeStrict wlen off | scDecodeReduce wlen off =>
    have hl : loadLength s off (byteLength s wlen) = none := by
      obtain h | ⟨r, hr, h⟩ := h
      · simp [loadLength, byteLength, h]
      · obtain ⟨len, hlen, rfl⟩ := Option.map_eq_some_iff.1 hr
        simpa [loadLength, loadBytes, hlen] using h
    simp [valueW, valueF, valueS, valueP, valueBytes, hl]
  all_goals simp [valueW, valueF, valueS, valueP, valueBytes, loadBytes, h]

/-- SC_CONDCOPY keeps its destination only where both of its sources are determinate (R180). -/
theorem keepsDestination_of_indeterminate {i : Instr} {s : State}
    (h : sourcesDeterminate s i = false) : keepsDestination i s = false := by
  cases i
  case scCondcopy sd sa wb =>
    rw [sourcesDeterminate_eq_false] at h
    have h' : getW s wb = none ∨ getS s sa = none := by
      simpa [sourcesW, sourcesF, sourcesS, sourcesP, loadRange] using h
    obtain h | h := h' <;> simp [keepsDestination, h]
  all_goals rfl

/-- Settles O14: such a command delivers no value. -/
theorem indeterminateSourcesGiveIndeterminateResults :
    Obligations.IndeterminateSourcesGiveIndeterminateResults := by
  unfold Obligations.IndeterminateSourcesGiveIndeterminateResults
  intro s i hw hm hr hd
  obtain ⟨hW, hF, hS, hP, hB⟩ := values_eq_none hd
  refine ⟨deliver i s, ?_, rfl, fun r h => ?_, fun r h => ?_, fun r h => ?_, fun r h => ?_,
    fun addr len h k hk => ?_⟩
  · rw [exec_eq_result, result_of_legal hw hr (keepsDestination_of_indeterminate hd)]
  · rw [getW_eq_readReg, deliver, h, hW, readReg_putReg_same]
  · rw [getF_eq_readReg, deliver, h, hF, readReg_putReg_same]
  · rw [getS_eq_readReg, deliver, h, hS, readReg_putReg_same]
  · rw [getP_eq_readReg, deliver, h, hP, readReg_putReg_same]
  · rw [deliver, h, hB]
    exact readByte_eraseBytes_inside hm hk

/-! ### Engine errors and frames -/

/-- Settles O13: behind the range check a command keeps its destination or delivers its values. -/
theorem bufRangeExactlyWhenTheAccessLeavesBuf :
    Obligations.BufRangeExactlyWhenTheAccessLeavesBuf := by
  unfold Obligations.BufRangeExactlyWhenTheAccessLeavesBuf
  intro s i hw
  refine ⟨result i s, exec_eq_result i s, fun hr => ?_, fun hr => ?_⟩
  · rw [result_of_raisesBufRange hw hr]
    exact raise_result .bufRange s
  · rw [result_of_inside hw hr]
    split <;> rfl

/-- Settles O19: what is delivered is delivered into the destinations only. -/
theorem commandsChangeOnlyTheirDestinationRegisters :
    Obligations.CommandsChangeOnlyTheirDestinationRegisters := by
  unfold Obligations.CommandsChangeOnlyTheirDestinationRegisters
  intro s i
  refine ⟨result i s, exec_eq_result i s, fun r h => ?_, fun r h => ?_, fun r h => ?_,
    fun r h => ?_⟩
  · exact result_induction (P := fun t => t.regsW[r] = s.regsW[r]) (fun _ => rfl) rfl fun _ =>
      getElem_putReg_other h _ _ _
  · exact result_induction (P := fun t => t.regsF[r] = s.regsF[r]) (fun _ => rfl) rfl fun _ =>
      getElem_putReg_other h _ _ _
  · exact result_induction (P := fun t => t.regsS[r] = s.regsS[r]) (fun _ => rfl) rfl fun _ =>
      getElem_putReg_other h _ _ _
  · exact result_induction (P := fun t => t.regsP[r] = s.regsP[r]) (fun _ => rfl) rfl fun _ =>
      getElem_putReg_other h _ _ _

/-- Settles O20: by exec_next, and by what an engine error does to STATUS. -/
theorem commandsLeaveControlStateAlone : Obligations.CommandsLeaveControlStateAlone := by
  unfold Obligations.CommandsLeaveControlStateAlone
  intro s i
  obtain ⟨t, h, hidx, hpending, hreads, hstatus⟩ := exec_next i s
  refine ⟨t, h, hidx, hpending, hreads, fun hne => ?_⟩
  obtain hstatus | ⟨e, rfl⟩ := hstatus
  · exact absurd hstatus hne
  · exact ⟨(raise_result e s).err, (raise_result e s).rest⟩

end Sys2Proof.Machine
end

section
/-! SUPPORT. Issued words, reset, and the steps that stop or are refused (spec/60_exceptions.md R303,
R305, R320, R340). -/

namespace Sys2Proof.Machine

/-- Outside the error state an issued word, legal or not, is answered between the setting and the
clearing of BUSY by a state that keeps everything the host handed over, and STATUS too unless an engine
error is raised (R320 item 1). -/
theorem step_issue_executed {s : State} {w : BitVec 32} {early late : Nat} {rest : List HostTxn}
    (hp : s.pending = .issue w early late :: rest) (he : inError s = false) :
    ∃ u, step s = .next (endCommand late u) ∧ u.idx = (startCommand rest early s).idx ∧
      u.pending = rest ∧ u.hostReads = (startCommand rest early s).hostReads ∧
      (u.status = (startCommand rest early s).status ∨
        ∃ e, u = raise e (startCommand rest early s)) := by
  cases hd : decode w with
  | error e => exact ⟨_, step_issue_illegal hp he hd, rfl, rfl, rfl, .inr ⟨_, rfl⟩⟩
  | ok i => exact ⟨_, step_issue_result hp he hd, result_control i (startCommand rest early s)⟩

/-- Settles O7: a discarded word and an executed one are both counted. -/
theorem issueAdvancesIdxByOne : Obligations.IssueAdvancesIdxByOne := by
  unfold Obligations.IssueAdvancesIdxByOne
  intro s w early late rest hp
  cases he : inError s with
  | true => exact ⟨_, step_issue_discarded hp he, rfl, rfl⟩
  | false =>
    obtain ⟨u, h, hidx, hpending, -⟩ := step_issue_executed hp he
    exact ⟨_, h, hidx, hpending⟩

/-- Settles O6: by exec_eq_result, behind the start of the command. -/
theorem stepRunsTheDecodedCommand : Obligations.StepRunsTheDecodedCommand := by
  unfold Obligations.StepRunsTheDecodedCommand
  intro s w early late rest i hp he hd
  exact ⟨startCommand rest early s, _, rfl, exec_eq_result i _, step_issue_result hp he hd⟩

/-- Settles O10: no register of State.reset is determinate, and a reset the host asserts has its
registers. -/
theorem resetLeavesEverythingIndeterminate : Obligations.ResetLeavesEverythingIndeterminate := by
  unfold Obligations.ResetLeavesEverythingIndeterminate
  intro s rest hp
  refine ⟨hostReset rest s, step_reset hp, ?_⟩
  rintro t (rfl | rfl) <;>
    exact ⟨rfl, rfl, reset_getW, reset_getF, reset_getS, reset_getP, fun _ => rfl⟩

/-- The next step runs a command exactly where a legal word is issued outside the error state. -/
theorem commandToRun_eq_some {s : State} {i : Instr} : commandToRun s = some i ↔
    ∃ w early late rest, s.pending = .issue w early late :: rest ∧ inError s = false ∧
      decode w = .ok i := by
  constructor
  · intro h
    unfold commandToRun at h
    split at h
    next w early late rest hp =>
      refine ⟨w, early, late, rest, hp, ?_⟩
      cases he : inError s <;> cases hd : decode w <;> simp_all [Except.toOption]
    next => cases h
  · rintro ⟨w, early, late, rest, hp, he, hd⟩
    simp [commandToRun, hp, he, hd, Except.toOption]

/-- strictStep refuses exactly the run whose command reads an indeterminate source (R33, D9). -/
theorem all_hasMeaning_eq_false {s : State} : (commandToRun s).all (hasMeaning s) = false ↔
    ∃ w early late rest i, s.pending = .issue w early late :: rest ∧ inError s = false ∧
      decode w = .ok i ∧ raisesBufRange s i = false ∧ sourcesDeterminate s i = false := by
  constructor
  · intro h
    cases hi : commandToRun s with
    | none => simp [hi] at h
    | some i =>
      obtain ⟨w, early, late, rest, hp, he, hd⟩ := commandToRun_eq_some.1 hi
      rw [hi] at h
      exact ⟨w, early, late, rest, i, hp, he, hd, Bool.or_eq_false_iff.1 h⟩
  · rintro ⟨w, early, late, rest, i, hp, he, hd, hm⟩
    rw [commandToRun_eq_some.2 ⟨w, early, late, rest, hp, he, hd⟩]
    exact Bool.or_eq_false_iff.2 hm

/-- Settles O12: step by its outcomes, strictStep by the run it refuses. -/
theorem stepStopsOnlyWhenNothingIsPending : Obligations.StepStopsOnlyWhenNothingIsPending := by
  unfold Obligations.StepStopsOnlyWhenNothingIsPending
  intro s
  rw [← all_hasMeaning_eq_false]
  unfold strictStep
  obtain ⟨hp, h⟩ | ⟨hp, t, h, -⟩ := step_cases s
  · have hfault : ∃ f, step s = .fault f := ⟨_, h⟩
    simp only [hfault, hp]
    simp [h]
  · cases (commandToRun s).all (hasMeaning s) <;> simp [h, hp]

/-- Settles O60: STATUS while the word is answered is that of the start or that of an engine error
raised there, and both have BUSY set. -/
theorem statusReadsDuringACommandSeeBusy : Obligations.StatusReadsDuringACommandSeeBusy := by
  unfold Obligations.StatusReadsDuringACommandSeeBusy
  intro s s' w early late rest hp h
  refine ⟨fun he => ?_, fun he => ?_⟩
  · rw [step_issue_discarded hp he] at h
    cases h
    rfl
  · obtain ⟨u, hu, -, -, hreads, hstatus⟩ := step_issue_executed hp he
    rw [hu] at h
    cases h
    have hbusy : statusBusy u.status = true := by
      obtain hstatus | ⟨e, rfl⟩ := hstatus
      · rw [hstatus, startCommand_status, statusBusy_setBusy]
      · rw [(raise_result e _).busy, startCommand_status, statusBusy_setBusy]
    refine ⟨statusBusy_clearBusy _, statusSetBusy s.status, u.status, ?_, statusBusy_setBusy _, ?_,
      statusCause_setBusy _, hbusy, (statusErr_clearBusy _).symm, (statusCause_clearBusy _).symm⟩
    · rw [endCommand_hostReads, hreads, startCommand_hostReads]
    · rw [statusErr_setBusy]
      exact he

end Sys2Proof.Machine
end

section
/-! SUPPORT. What the host's transactions and the commands do to BUF (spec/20_memory.md R51, R53, R54,
R58, spec/60_exceptions.md R320). -/

namespace Sys2Proof.Machine

/-- R51, R320 item 3: a written byte reads as the value written, every other as before. -/
theorem readByte_writeByte (m : Memory) (a b : Nat) (v : Byte) :
    readByte (writeByte m a v) b = if b = a then some v else readByte m b := by
  split
  next h => rw [h, readByte_writeByte_same]
  next h => exact readByte_writeByte_other m v h

/-- Settles O11: by the step on each of the three transactions. -/
theorem hostBufferAndStatusAccess : Obligations.HostBufferAndStatusAccess := by
  unfold Obligations.HostBufferAndStatusAccess
  intro s rest a v
  refine ⟨fun hp => ?_, step_readBuf, step_readStatus⟩
  exact ⟨hostWrite rest a v s, step_writeBuf hp, rfl, fun b => readByte_writeByte s.buf a.toNat b v⟩

/-- A store, of determinate bytes or of an indeterminate value, changes no byte outside its range
(R33, R53). -/
theorem readByte_putBytes_outside {m : Memory} {addr len a : Nat} {v : Option (List Byte)}
    (hm : memoryWf m = true) (hlen : ∀ bs, v = some bs → bs.length = len)
    (ha : a < addr ∨ addr + len ≤ a) :
    readByte (putBytes (some (addr, len)) v m) a = readByte m a := by
  cases v with
  | none => exact readByte_eraseBytes_outside hm ha
  | some bs => exact readByte_writeBytes_outside m bs (by rwa [hlen bs rfl])

/-- Settles O21: BUF changes only where a command delivers its bytes, into a range of their length. -/
theorem commandsChangeOnlyTheBytesTheyStore :
    Obligations.CommandsChangeOnlyTheBytesTheyStore := by
  unfold Obligations.CommandsChangeOnlyTheBytesTheyStore
  intro s i hm
  refine ⟨result i s, exec_eq_result i s, fun addr len hr a ha => ?_, fun hr => ?_⟩
  · refine result_induction (P := fun t => readByte t.buf a = readByte s.buf a) (fun _ => rfl) rfl
      fun _ => ?_
    rw [deliver, hr]
    exact readByte_putBytes_outside hm (fun _ hv => valueBytes_length hr hv) ha
  · refine result_induction (P := fun t => t.buf = s.buf) (fun _ => rfl) rfl fun _ => ?_
    rw [deliver, hr]
    rfl

end Sys2Proof.Machine
end

section
/-! SUPPORT. The fields of a word and the word of its fields (spec/30_encoding.md R71, R75), and from them
that decoding inverts encoding. -/

namespace Sys2Proof.Machine

open Sys2Proof.Enc

/-! ### The value of an assembled word -/

theorem rWord_toNat {op : Nat} (a b c d e : Fin 16) (h : op < 256) :
    (rWord op a b c d e).toNat = op * 2 ^ 24 + a.val * 2 ^ 20 + b.val * 2 ^ 16 + c.val * 2 ^ 12
      + d.val * 2 ^ 8 + e.val * 2 ^ 4 := by
  rw [rWord, BitVec.toNat_ofNat, Nat.mod_eq_of_lt]
  omega

theorem iWord_toNat {op : Nat} (a b : Fin 16) (imm : Imm16) (h : op < 256) :
    (iWord op a b imm).toNat = op * 2 ^ 24 + a.val * 2 ^ 20 + b.val * 2 ^ 16 + imm.toNat := by
  rw [iWord, BitVec.toNat_ofNat, Nat.mod_eq_of_lt]
  omega

theorem mWord_toNat {op : Nat} (a b c : Fin 16) (off : Off12) (h : op < 256) :
    (mWord op a b c off).toNat = op * 2 ^ 24 + a.val * 2 ^ 20 + b.val * 2 ^ 16 + c.val * 2 ^ 12
      + off.toNat := by
  rw [mWord, BitVec.toNat_ofNat, Nat.mod_eq_of_lt]
  omega

/-- The op field of a command's word is its opcode: OpField.Statement of every command (R76). -/
theorem encode_op (i : Instr) : (encode i).toNat / 2 ^ 24 = opcode i := by
  cases i
  case wLi | gfGetc | gfSetc | pMul2k => exact Laws.iWord_op _ _ _ _ (by decide)
  case wLd | wSt | gfEncode | gfDecode | gfMaptobase | scDecodeStrict | scDecodeReduce | scEncode |
      scReduceBasisVartime | pEncode | pDecode | pEncodeX =>
    exact Laws.mWord_op _ _ _ _ _ (by decide)
  all_goals exact Laws.rWord_op _ _ _ _ _ _ (by decide)

/-! ### Reading the fields back -/

section
variable {op k : Nat} {w : BitVec 32} {a b c d e : Fin 16} {imm : Imm16} {off : Off12} {i j : Instr}

theorem fields_of_rWord (h : rWord op a b c d e = w) (hop : op < 256) :
    r1 w.toNat = a ∧ r2 w.toNat = b ∧ r3 w.toNat = c ∧ r4 w.toNat = d ∧ r5 w.toNat = e := by
  rw [← h, rWord_toNat _ _ _ _ _ hop]
  refine ⟨Fin.ext ?_, Fin.ext ?_, Fin.ext ?_, Fin.ext ?_, Fin.ext ?_⟩
  all_goals
    simp only [r1, r2, r3, r4, r5, Fin.val_ofNat]
    omega

theorem fields_of_iWord (h : iWord op a b imm = w) (hop : op < 256) :
    r1 w.toNat = a ∧ r2 w.toNat = b ∧ imm16 w.toNat = imm := by
  rw [← h, iWord_toNat _ _ _ hop]
  refine ⟨Fin.ext ?_, Fin.ext ?_, BitVec.eq_of_toNat_eq ?_⟩
  all_goals
    simp only [r1, r2, imm16, Fin.val_ofNat, BitVec.toNat_ofNat]
    omega

theorem fields_of_mWord (h : mWord op a b c off = w) (hop : op < 256) :
    r1 w.toNat = a ∧ r2 w.toNat = b ∧ r3 w.toNat = c ∧ off12 w.toNat = off := by
  rw [← h, mWord_toNat _ _ _ _ hop]
  refine ⟨Fin.ext ?_, Fin.ext ?_, Fin.ext ?_, BitVec.eq_of_toNat_eq ?_⟩
  all_goals
    simp only [r1, r2, r3, off12, Fin.val_ofNat, BitVec.toNat_ofNat]
    omega

/-- A word of the R format whose fields after the first k are zero is accepted, and stands for the
command i that its fields make. -/
theorem rForm_of_rWord (h : rWord op a b c d e = w) (hop : op < 256) (hk : 1 ≤ k ∧ k ≤ 5)
    (hb : k < 2 → b.val = 0) (hc : k < 3 → c.val = 0) (hd : k < 4 → d.val = 0)
    (he : k < 5 → e.val = 0)
    (hi : r1 w.toNat = a → r2 w.toNat = b → r3 w.toNat = c → r4 w.toNat = d → r5 w.toNat = e →
      i = j) : rForm w.toNat k i = .ok j := by
  obtain ⟨ha', hb', hc', hd', he'⟩ := fields_of_rWord h hop
  obtain ⟨h1, h5⟩ := hk
  rw [← hi ha' hb' hc' hd' he', rForm, ← h, rWord_toNat _ _ _ _ _ hop, if_neg, if_neg]
  · omega
  · interval_cases k <;> omega

theorem iForm_of_iWord {x : Bool} (h : iWord op a b imm = w) (hop : op < 256) (hk : 1 ≤ k ∧ k ≤ 2)
    (hb : k < 2 → b.val = 0) (hx : x = true → imm.toNat ≤ 18)
    (hi : r1 w.toNat = a → r2 w.toNat = b → imm16 w.toNat = imm → i = j) :
    iForm w.toNat k x i = .ok j := by
  obtain ⟨ha', hb', hm'⟩ := fields_of_iWord h hop
  obtain ⟨h1, h2⟩ := hk
  rw [← hi ha' hb' hm', iForm, ← h, iWord_toNat _ _ _ hop, if_neg, if_neg]
  · rw [Bool.and_eq_true, decide_eq_true_iff]
    rintro ⟨hx', hbig⟩
    have := hx hx'
    omega
  · interval_cases k <;> omega

theorem mForm_of_mWord (h : mWord op a b c off = w) (hop : op < 256) (hk : 1 ≤ k ∧ k ≤ 3)
    (hb : k < 2 → b.val = 0) (hc : k < 3 → c.val = 0)
    (hi : r1 w.toNat = a → r2 w.toNat = b → r3 w.toNat = c → off12 w.toNat = off → i = j) :
    mForm w.toNat k i = .ok j := by
  obtain ⟨ha', hb', hc', ho'⟩ := fields_of_mWord h hop
  obtain ⟨h1, h3⟩ := hk
  rw [← hi ha' hb' hc' ho', mForm, ← h, mWord_toNat _ _ _ _ hop, if_neg]
  interval_cases k <;> omega

end

/-- The word is a variable, tied to the command by an equation: the kernel would evaluate the fields of
`encode i` itself digit by digit. -/
theorem decode_of_encode {i : Instr} {w : BitVec 32} (hi : i.wellFormed = true) (h : encode i = w) :
    decode w = .ok i := by
  have hop : w.toNat / 2 ^ 24 = opcode i := h ▸ encode_op i
  rw [decode, hop]
  cases i
  case gfGetc | gfSetc =>
    exact iForm_of_iWord h (by decide) (by decide) (by simp) (fun _ => of_decide_eq_true hi)
      (by simp +contextual)
  case wLi | pMul2k =>
    exact iForm_of_iWord h (by decide) (by decide) (by simp) (by simp) (by simp +contextual)
  case wLd | wSt | gfEncode | gfDecode | gfMaptobase | scDecodeStrict | scDecodeReduce | scEncode |
      scReduceBasisVartime | pEncode | pDecode | pEncodeX =>
    exact mForm_of_mWord h (by decide) (by decide) (by simp) (by simp) (by simp +contextual)
  all_goals
    exact rForm_of_rWord h (by decide) (by decide) (by simp) (by simp) (by simp) (by simp)
      (by simp +contextual)

/-- Settles O2: the decoder's row is the one of the command's opcode, and reading the fields of the
assembled word gives the operands back. -/
theorem decodeInvertsEncode : Obligations.DecodeInvertsEncode := by
  unfold Obligations.DecodeInvertsEncode
  exact fun i hi => decode_of_encode hi rfl

end Sys2Proof.Machine
end

section
/-! SUPPORT. What the decoder accepts (decode_cases, decode_ok_iff): the words that break none of the
conditions of R77, each the word of its own command (spec/30_encoding.md R75 to R79). -/

namespace Sys2Proof.Machine

open Sys2Proof.Enc

/-! ### A word is assembled from its own fields -/

theorem rWord_fields {w : BitVec 32} (h : w.toNat % 2 ^ 4 = 0) :
    rWord (w.toNat / 2 ^ 24) (r1 w.toNat) (r2 w.toNat) (r3 w.toNat) (r4 w.toNat) (r5 w.toNat)
      = w := by
  apply BitVec.eq_of_toNat_eq
  simp only [rWord, r1, r2, r3, r4, r5, Fin.val_ofNat, BitVec.toNat_ofNat]
  omega

theorem iWord_fields (w : BitVec 32) :
    iWord (w.toNat / 2 ^ 24) (r1 w.toNat) (r2 w.toNat) (imm16 w.toNat) = w := by
  apply BitVec.eq_of_toNat_eq
  simp only [iWord, r1, r2, imm16, Fin.val_ofNat, BitVec.toNat_ofNat]
  omega

theorem mWord_fields (w : BitVec 32) :
    mWord (w.toNat / 2 ^ 24) (r1 w.toNat) (r2 w.toNat) (r3 w.toNat) (off12 w.toNat) = w := by
  apply BitVec.eq_of_toNat_eq
  simp only [mWord, r1, r2, r3, off12, Fin.val_ofNat, BitVec.toNat_ofNat]
  omega

/-! ### The rows of commandForms -/

/-- A row of commandForms: op, format and number of register operands (R76). -/
abbrev CommandForm := Nat × Format × Nat

theorem operands_le_fields {c : CommandForm} (hc : c ∈ commandForms) : c.2.2 ≤ c.2.1.fields := by
  revert c
  decide

theorem commandForms_unique {c c' : CommandForm} (hc : c ∈ commandForms) (hc' : c' ∈ commandForms)
    (h : c.1 = c'.1) : c = c' :=
  List.inj_on_of_nodup_map (f := Prod.fst) (by decide) hc hc' h

/-- Is the immediate of the command a coefficient index (R73)? -/
def isIndexed (op : Nat) : Bool := op == 0x05 || op == 0x06

/-- The register fields of a word that the row leaves unused, as one number (R71, R77 item 2). -/
def spareFields (c : CommandForm) (w : BitVec 32) : Nat :=
  w.toNat % 2 ^ (24 - 4 * c.2.2) / 2 ^ (24 - 4 * c.2.1.fields)

/-- A word with the op of the row c breaks none of the other conditions of R77. -/
structure Legal (c : CommandForm) (w : BitVec 32) : Prop where
  spare : spareFields c w = 0
  low : c.2.1 = .r → w.toNat % 2 ^ 4 = 0
  index : isIndexed c.1 = true → w.toNat % 2 ^ 16 ≤ 18

theorem mod_sixteen_pow_eq_zero_iff (u m : Nat) :
    u % 16 ^ m = 0 ↔ ∀ j < m, u / 16 ^ j % 16 = 0 := by
  induction m with
  | zero => simp [Nat.mod_one]
  | succ m ih =>
    rw [Nat.mod_pow_succ, Nat.add_eq_zero_iff, ih, Nat.forall_lt_succ_right, mul_eq_zero]
    simp

/-- The unused register fields are the digits of spareFields to base 16. -/
theorem spareFields_eq_zero_iff {c : CommandForm} (w : BitVec 32) (hc : c.2.2 ≤ c.2.1.fields) :
    spareFields c w = 0 ↔ ∀ j, c.2.2 < j → j ≤ c.2.1.fields → registerField w j = 0 := by
  have hf : c.2.1.fields ≤ 5 := by cases c.2.1 <;> decide
  have hpow : 2 ^ (24 - 4 * c.2.2) =
      2 ^ (24 - 4 * c.2.1.fields) * 16 ^ (c.2.1.fields - c.2.2) := by
    rw [show 16 = 2 ^ 4 from rfl, ← pow_mul, ← pow_add]
    congr 1
    omega
  have hdigit : ∀ j < c.2.1.fields, w.toNat / 2 ^ (24 - 4 * c.2.1.fields) / 16 ^ j % 16 =
      registerField w (c.2.1.fields - j) := by
    intro j hj
    rw [registerField, Nat.div_div_eq_div_mul, show 16 ^ j = 2 ^ (4 * j) from (pow_mul 2 4 j).symm,
      ← pow_add]
    congr 3
    omega
  rw [spareFields, hpow, Nat.mod_mul_right_div_self, mod_sixteen_pow_eq_zero_iff]
  constructor
  · intro h j hk hj
    have := h (c.2.1.fields - j) (by omega)
    rwa [hdigit _ (by omega), Nat.sub_sub_self hj] at this
  · intro h j hj
    rw [hdigit j (by omega)]
    exact h _ (by omega) (by omega)

/-! ### Decoding by one row -/

/-- Register field j of a word, 0 beyond the first k (R71). -/
def usedField (w : BitVec 32) (k j : Nat) : Fin 16 :=
  if j ≤ k then Fin.ofNat 16 (w.toNat / 2 ^ (24 - 4 * j)) else 0

theorem usedField_eq {c : CommandForm} {w : BitVec 32} (hc : c.2.2 ≤ c.2.1.fields)
    (h : spareFields c w = 0) {j : Nat} (hj : j ≤ c.2.1.fields) :
    usedField w c.2.2 j = Fin.ofNat 16 (w.toNat / 2 ^ (24 - 4 * j)) := by
  unfold usedField
  split
  · rfl
  · exact Fin.ext ((spareFields_eq_zero_iff w hc).1 h j (by omega) hj).symm

/-- What decoding the word w by the row c answers: an error, or the command whose word is w. -/
def DecodesBy (c : CommandForm) (w : BitVec 32) (d : Except DecodeError Instr) : Prop :=
  (¬ Legal c w ∧ ∃ e, d = .error e) ∨
  (Legal c w ∧ ∃ i, d = .ok i ∧ encode i = w ∧ i.wellFormed = true)

section
variable {w : BitVec 32} {op k : Nat} {i : Instr}

theorem rForm_decodesBy (hop : w.toNat / 2 ^ 24 = op) (hk : k ≤ 5) (hx : isIndexed op = false)
    (hw : i.wellFormed = true)
    (he : encode i = rWord op (usedField w k 1) (usedField w k 2) (usedField w k 3)
      (usedField w k 4) (usedField w k 5)) :
    DecodesBy (op, .r, k) w (rForm w.toNat k i) := by
  unfold rForm
  split
  next h => exact .inl ⟨fun hl => h hl.spare, _, rfl⟩
  next h =>
    rw [not_ne_iff] at h
    split
    next h' => exact .inl ⟨fun hl => h' (hl.low rfl), _, rfl⟩
    next h' =>
      rw [not_ne_iff] at h'
      have hu {j : Nat} (hj : j ≤ 5) := usedField_eq (c := (op, .r, k)) hk h hj
      refine .inr ⟨⟨h, fun _ => h', by simp [hx]⟩, i, rfl, ?_, hw⟩
      rw [he, ← hop, hu, hu, hu, hu, hu]
      · exact rWord_fields h'
      all_goals decide

theorem iForm_decodesBy {x : Bool} (hop : w.toNat / 2 ^ 24 = op) (hk : k ≤ 2)
    (hx : isIndexed op = x) (hw : i.wellFormed = (!x || decide ((imm16 w.toNat).toNat ≤ 18)))
    (he : encode i = iWord op (usedField w k 1) (usedField w k 2) (imm16 w.toNat)) :
    DecodesBy (op, .i, k) w (iForm w.toNat k x i) := by
  unfold iForm
  split
  next h => exact .inl ⟨fun hl => h hl.spare, _, rfl⟩
  next h =>
    rw [not_ne_iff] at h
    split
    next h' =>
      rw [Bool.and_eq_true, decide_eq_true_iff] at h'
      exact .inl ⟨fun hl => (hl.index (hx.trans h'.1)).not_gt h'.2, _, rfl⟩
    next h' =>
      rw [Bool.and_eq_true, decide_eq_true_iff, not_and, not_lt] at h'
      have hu {j : Nat} (hj : j ≤ 2) := usedField_eq (c := (op, .i, k)) hk h hj
      refine .inr ⟨⟨h, nofun, fun h => h' (hx.symm.trans h)⟩, i, rfl, ?_, ?_⟩
      · rw [he, ← hop, hu, hu]
        · exact iWord_fields w
        all_goals decide
      · cases x with
        | false => exact hw
        | true => exact hw.trans (decide_eq_true (h' rfl))

theorem mForm_decodesBy (hop : w.toNat / 2 ^ 24 = op) (hk : k ≤ 3) (hx : isIndexed op = false)
    (hw : i.wellFormed = true)
    (he : encode i = mWord op (usedField w k 1) (usedField w k 2) (usedField w k 3)
      (off12 w.toNat)) :
    DecodesBy (op, .m, k) w (mForm w.toNat k i) := by
  unfold mForm
  split
  next h => exact .inl ⟨fun hl => h hl.spare, _, rfl⟩
  next h =>
    rw [not_ne_iff] at h
    have hu {j : Nat} (hj : j ≤ 3) := usedField_eq (c := (op, .m, k)) hk h hj
    refine .inr ⟨⟨h, nofun, by simp [hx]⟩, i, rfl, ?_, hw⟩
    rw [he, ← hop, hu, hu, hu]
    · exact mWord_fields w
    all_goals decide

end

/-! ### The decoder -/

/-- A word is decoded by the row of its op, or no row has its op (R71, R77 item 1). -/
theorem decode_cases (w : BitVec 32) :
    ((∀ c ∈ commandForms, c.1 ≠ w.toNat / 2 ^ 24) ∧ decode w = .error .unassignedOp) ∨
    ∃ c ∈ commandForms, c.1 = w.toNat / 2 ^ 24 ∧ DecodesBy c w (decode w) := by
  rw [decode]
  generalize hop : w.toNat / 2 ^ 24 = op
  split
  case h_61 =>
    refine .inl ⟨?_, rfl⟩
    simp only [commandForms, List.map_cons, List.map_nil, List.cons_append, List.nil_append,
      List.forall_mem_cons, List.not_mem_nil, IsEmpty.forall_iff, implies_true, and_true, ne_eq,
      eq_comm (b := op)]
    and_intros <;> assumption
  all_goals
    first
    | exact .inr ⟨_, by decide, rfl, rForm_decodesBy hop (by decide) rfl rfl rfl⟩
    | exact .inr ⟨_, by decide, rfl, iForm_decodesBy hop (by decide) rfl rfl rfl⟩
    | exact .inr ⟨_, by decide, rfl, mForm_decodesBy hop (by decide) rfl rfl rfl⟩

theorem encode_of_decode {w : BitVec 32} {i : Instr} (h : decode w = .ok i) :
    encode i = w ∧ i.wellFormed = true := by
  obtain ⟨-, he⟩ | ⟨c, -, -, ⟨-, e, he⟩ | ⟨-, j, hj, henc, hwf⟩⟩ := decode_cases w
  · simp [h] at he
  · simp [h] at he
  · cases h.symm.trans hj
    exact ⟨henc, hwf⟩

theorem decode_ok_iff (w : BitVec 32) :
    (∃ i, decode w = .ok i) ↔ ∃ c ∈ commandForms, c.1 = w.toNat / 2 ^ 24 ∧ Legal c w := by
  constructor
  · rintro ⟨i, h⟩
    obtain ⟨-, he⟩ | ⟨c, hc, hop, ⟨-, e, he⟩ | ⟨hl, -⟩⟩ := decode_cases w
    · simp [h] at he
    · simp [h] at he
    · exact ⟨c, hc, hop, hl⟩
  · rintro ⟨c, hc, hop, hl⟩
    obtain ⟨hn, -⟩ | ⟨c', hc', hop', ⟨hl', -⟩ | ⟨-, i, h, -⟩⟩ := decode_cases w
    · exact absurd hop (hn c hc)
    · rw [commandForms_unique hc hc' (hop.trans hop'.symm)] at hl
      exact absurd hl hl'
    · exact ⟨i, h⟩

/-- Settles O3: decoding by a row keeps every field, and the fields the row leaves unused are zero. -/
theorem encodeInvertsDecode : Obligations.EncodeInvertsDecode := by
  unfold Obligations.EncodeInvertsDecode
  exact fun _ _ => encode_of_decode

/-- Settles O26: below index 19 the cell is read, and a command that a word means is well-formed. -/
theorem coefficientReadDeliversTheStoredCell :
    Obligations.CoefficientReadDeliversTheStoredCell := by
  unfold Obligations.CoefficientReadDeliversTheStoredCell
  intro s wd fa idx
  refine ⟨fun a h ha => ?_, fun hbig w hd => ?_⟩
  · rw [show exec (.gfGetc wd fa idx) s = _ from dif_pos (Nat.lt_succ_of_le h), ha,
      BitVec.ofNat_toNat]
    rfl
  · have : idx.toNat ≤ 18 := of_decide_eq_true (encode_of_decode hd).2
    omega

/-- Settles O1: by evaluation of the decoder on each word. -/
theorem sampleWordsDecode : Obligations.SampleWordsDecode := by
  unfold Obligations.SampleWordsDecode
  decide

end Sys2Proof.Machine
end

section
/-! SUPPORT. The masks of spec/opcode_table.json say what the decoder accepts (R76, R77). -/

namespace Sys2Proof.Machine

/-! ### The rows of the table and the rows of commandForms -/

/-- The width of the operand below the register fields: none, imm16 or off12 (R71). -/
def operandBits : Format → Nat
  | .r => 0
  | .i => 16
  | .m => 12

/-- The bits that the table's mask for the row c selects: op and what R77 wants to be zero. -/
def formMask (c : CommandForm) : Nat :=
  0xFF * 2 ^ 24 + (2 ^ (24 - 4 * c.2.2 - operandBits c.2.1) - 1) * 2 ^ operandBits c.2.1

/-- Is r the row of spec/opcode_table.json for the row c of commandForms (R76)? -/
def isRowOf (r : OpcodeRow) (c : CommandForm) : Bool :=
  r.matchBits.toNat == c.1 * 2 ^ 24 && r.mask.toNat == formMask c && r.indexed == isIndexed c.1

theorem isRowOf_iff {r : OpcodeRow} {c : CommandForm} : isRowOf r c = true ↔
    r.matchBits.toNat = c.1 * 2 ^ 24 ∧ r.mask.toNat = formMask c ∧ r.indexed = isIndexed c.1 := by
  simp [isRowOf, and_assoc]

theorem opcodeTable_forms : ∀ r ∈ opcodeTable, ∃ c ∈ commandForms, isRowOf r c = true := by
  decide +kernel

theorem commandForms_rows : ∀ c ∈ commandForms, ∃ r ∈ opcodeTable, isRowOf r c = true := by
  decide +kernel

theorem opcodeTable_unique {r r' : OpcodeRow} (hr : r ∈ opcodeTable) (hr' : r' ∈ opcodeTable)
    (h : r.matchBits = r'.matchBits) : r = r' :=
  List.inj_on_of_nodup_map (f := OpcodeRow.matchBits) (by decide +kernel) hr hr' h

/-! ### What a mask tests -/

theorem and_mul_two_pow_add (v a : Nat) {b n : Nat} (hb : b < 2 ^ n) :
    v &&& (a * 2 ^ n + b) = (v / 2 ^ n &&& a) * 2 ^ n + (v % 2 ^ n &&& b) := by
  have hdiv : (a * 2 ^ n + b) / 2 ^ n = a := by
    rw [Nat.add_div_of_dvd_right (Nat.dvd_mul_left _ _), Nat.mul_div_cancel _ (Nat.two_pow_pos n),
      Nat.div_eq_of_lt hb, Nat.add_zero]
  have hmod : (a * 2 ^ n + b) % 2 ^ n = b := by
    rw [Nat.mul_add_mod', Nat.mod_eq_of_lt hb]
  rw [← Nat.div_add_mod' (v &&& _) (2 ^ n), Nat.and_div_two_pow, Nat.and_mod_two_pow, hdiv, hmod]

/-- A mask of bits t to s - 1 selects v % 2^s without its low t bits. -/
theorem and_ones_mul_two_pow {s t : Nat} (v : Nat) (ht : t ≤ s) :
    v &&& (2 ^ (s - t) - 1) * 2 ^ t = v % 2 ^ s / 2 ^ t * 2 ^ t := by
  have h := and_mul_two_pow_add v (2 ^ (s - t) - 1) (Nat.two_pow_pos t)
  rwa [Nat.add_zero, Nat.and_zero, Nat.add_zero, Nat.and_two_pow_sub_one_eq_mod,
    ← Nat.mod_mul_right_div_self, ← pow_add, Nat.add_sub_cancel' ht] at h

/-- A mask of op and of bits t to s - 1 tests op, and that those bits are zero. -/
theorem and_mask_eq_iff {v op s t : Nat} (hv : v < 2 ^ 32) (ht : t ≤ s) (hs : s ≤ 24) :
    v &&& (0xFF * 2 ^ 24 + (2 ^ (s - t) - 1) * 2 ^ t) = op * 2 ^ 24 ↔
      v / 2 ^ 24 = op ∧ v % 2 ^ s / 2 ^ t = 0 := by
  have hpow : 2 ^ s ≤ 2 ^ 24 := Nat.pow_le_pow_right (by decide) hs
  have hmask : (2 ^ (s - t) - 1) * 2 ^ t < 2 ^ 24 :=
    calc (2 ^ (s - t) - 1) * 2 ^ t < 2 ^ (s - t) * 2 ^ t :=
          Nat.mul_lt_mul_of_pos_right (Nat.sub_lt (Nat.two_pow_pos _) one_pos) (Nat.two_pow_pos t)
      _ = 2 ^ s := by rw [← pow_add, Nat.sub_add_cancel ht]
      _ ≤ 2 ^ 24 := hpow
  have hsmall : v % 2 ^ s / 2 ^ t * 2 ^ t < 2 ^ 24 :=
    calc v % 2 ^ s / 2 ^ t * 2 ^ t ≤ v % 2 ^ s := Nat.div_mul_le_self _ _
      _ < 2 ^ s := Nat.mod_lt _ (Nat.two_pow_pos s)
      _ ≤ 2 ^ 24 := hpow
  have hhigh : v / 2 ^ 24 &&& 0xFF = v / 2 ^ 24 :=
    (Nat.and_two_pow_sub_one_eq_mod _ 8).trans (Nat.mod_eq_of_lt (by omega))
  have hzero : v % 2 ^ s / 2 ^ t * 2 ^ t = 0 ↔ v % 2 ^ s / 2 ^ t = 0 := by simp
  rw [and_mul_two_pow_add v 0xFF hmask, hhigh, and_ones_mul_two_pow _ ht,
    Nat.mod_mod_of_dvd _ (pow_dvd_pow 2 hs)]
  omega

/-- Legal in the mask's terms: with the R format the bits to be zero reach down to bit 0. -/
theorem legal_iff {c : CommandForm} (w : BitVec 32) (hc : c.2.2 ≤ c.2.1.fields) :
    Legal c w ↔ w.toNat % 2 ^ (24 - 4 * c.2.2) / 2 ^ operandBits c.2.1 = 0 ∧
      (isIndexed c.1 = true → w.toNat % 2 ^ 16 ≤ 18) := by
  obtain ⟨op, f, k⟩ := c
  cases f with
  | i => exact ⟨fun h => ⟨h.spare, h.index⟩, fun h => ⟨h.1, nofun, h.2⟩⟩
  | m => exact ⟨fun h => ⟨h.spare, h.index⟩, fun h => ⟨h.1, nofun, h.2⟩⟩
  | r =>
    have hlow : w.toNat % 2 ^ (24 - 4 * k) % 2 ^ 4 = w.toNat % 2 ^ 4 :=
      Nat.mod_mod_of_dvd _ (pow_dvd_pow 2 (by simp only [Format.fields] at hc; omega))
    simp only [operandBits, pow_zero, Nat.div_one]
    constructor
    · rintro ⟨hs, hl, hx⟩
      have := hl rfl
      simp only [spareFields, Format.fields] at hs
      exact ⟨by omega, hx⟩
    · rintro ⟨h, hx⟩
      refine ⟨?_, fun _ => by omega, hx⟩
      simp only [spareFields, Format.fields]
      omega

theorem takes_iff {r : OpcodeRow} {c : CommandForm} (hr : isRowOf r c = true)
    (hc : c ∈ commandForms) (w : BitVec 32) :
    r.takes w = true ↔ c.1 = w.toNat / 2 ^ 24 ∧ Legal c w := by
  obtain ⟨hmatch, hmask, hidx⟩ := isRowOf_iff.1 hr
  have hk := operands_le_fields hc
  have hs : operandBits c.2.1 ≤ 24 - 4 * c.2.2 := by
    revert hk
    cases c.2.1 <;> simp only [operandBits, Format.fields] <;> omega
  have hand : w &&& r.mask = r.matchBits ↔
      c.1 = w.toNat / 2 ^ 24 ∧ w.toNat % 2 ^ (24 - 4 * c.2.2) / 2 ^ operandBits c.2.1 = 0 := by
    rw [← BitVec.toNat_inj, BitVec.toNat_and, hmatch, hmask, formMask,
      and_mask_eq_iff w.isLt hs (Nat.sub_le _ _), eq_comm]
  rw [OpcodeRow.takes, Bool.and_eq_true, decide_eq_true_iff, hand, legal_iff w hk, hidx, and_assoc]
  cases isIndexed c.1 <;> simp

/-! ### The decoder and the table -/

theorem takes_of_decode {w : BitVec 32} {i : Instr} (h : decode w = .ok i) :
    ∃ r ∈ opcodeTable, r.takes w = true ∧ r.matchBits.toNat = opcode i * 2 ^ 24 := by
  obtain ⟨c, hc, hop, hl⟩ := (decode_ok_iff w).1 ⟨i, h⟩
  obtain ⟨r, hr, hrow⟩ := commandForms_rows c hc
  refine ⟨r, hr, (takes_iff hrow hc w).2 ⟨hop, hl⟩, ?_⟩
  rw [(isRowOf_iff.1 hrow).1, hop, ← (encode_of_decode h).1, encode_op]

theorem decode_of_takes {r : OpcodeRow} {w : BitVec 32} (hr : r ∈ opcodeTable)
    (h : r.takes w = true) : ∃ i, decode w = .ok i := by
  obtain ⟨c, hc, hrow⟩ := opcodeTable_forms r hr
  exact (decode_ok_iff w).2 ⟨c, hc, (takes_iff hrow hc w).1 h⟩

theorem matchBits_of_takes {r : OpcodeRow} {w : BitVec 32} (hr : r ∈ opcodeTable)
    (h : r.takes w = true) : r.matchBits.toNat = w.toNat / 2 ^ 24 * 2 ^ 24 := by
  obtain ⟨c, hc, hrow⟩ := opcodeTable_forms r hr
  rw [(isRowOf_iff.1 hrow).1, ((takes_iff hrow hc w).1 h).1]

/-- Settles O4: the rows of the table are those of commandForms, and a row takes the legal words of its
op. -/
theorem legalWordsAreTheTableRows : Obligations.LegalWordsAreTheTableRows := by
  unfold Obligations.LegalWordsAreTheTableRows
  intro w
  refine ⟨⟨fun ⟨i, h⟩ => ?_, fun ⟨r, hr, h⟩ => decode_of_takes hr h⟩,
    fun i h => takes_of_decode h, fun r₁ h₁ r₂ h₂ ht₁ ht₂ => ?_⟩
  · obtain ⟨r, hr, ht, -⟩ := takes_of_decode h
    exact ⟨r, hr, ht⟩
  · exact opcodeTable_unique h₁ h₂ (BitVec.eq_of_toNat_eq
      ((matchBits_of_takes h₁ ht₁).trans (matchBits_of_takes h₂ ht₂).symm))

end Sys2Proof.Machine
end

section
/-! SUPPORT. The four conditions of R77 and what the engine does with a word that meets one
(spec/60_exceptions.md R303, R304, R320). -/

namespace Sys2Proof.Machine

theorem illegalWord_iff (w : BitVec 32) :
    illegalWord w ↔ ¬ ∃ c ∈ commandForms, c.1 = w.toNat / 2 ^ 24 ∧ Legal c w := by
  constructor
  · rintro h ⟨c, hc, hop, hl⟩
    obtain h | ⟨c', hc', hop', h⟩ | ⟨hidx, hbig⟩ := h
    · exact h c hc hop
    · obtain rfl := commandForms_unique hc hc' (hop.trans hop'.symm)
      obtain ⟨j, hj, hj', hne⟩ | ⟨hr, hlow⟩ := h
      · exact hne ((spareFields_eq_zero_iff w (operands_le_fields hc)).1 hl.spare j hj hj')
      · exact hlow (hl.low hr)
    · have := hl.index (by simpa [isIndexed, hop] using hidx)
      omega
  · intro h
    by_contra hn
    simp only [illegalWord, not_or, not_forall, not_exists, not_and, not_not, exists_prop] at hn
    obtain ⟨⟨c, hc, hop⟩, hform, hidx⟩ := hn
    obtain ⟨hfields, hlow⟩ := hform c hc hop
    have hspare := (spareFields_eq_zero_iff w (operands_le_fields hc)).2 hfields
    refine h ⟨c, hc, hop, hspare, hlow, fun hx => ?_⟩
    have := hidx (by simpa [isIndexed, hop] using hx)
    omega

theorem statusReserved_setBusy (st : BitVec 32) :
    statusReserved (statusSetBusy st) = statusReserved st := by
  rw [statusReserved, statusSetBusy, BitVec.and_or_distrib_right,
    show 1#32 &&& 0xFFFFFF0C#32 = 0#32 from rfl, BitVec.or_zero]
  rfl

theorem statusReserved_clearBusy (st : BitVec 32) :
    statusReserved (statusClearBusy st) = statusReserved st := by
  rw [statusReserved, statusClearBusy, BitVec.and_assoc]
  rfl

/-- R304, R320 item 1: an engine error raised between the setting and the clearing of BUSY. -/
theorem raise_during_command (e : EngineError) (rest : List HostTxn) (early late : Nat)
    {s s' : State} (hb : statusBusy s.status = false)
    (hs : s' = endCommand late (raise e (startCommand rest early s))) :
    RaiseResult { s with pending := rest, idx := s.idx + 1, hostReads := s'.hostReads } s'
      (causeCode e) := by
  obtain ⟨-, herr, hcause, -, hreserved⟩ := raise_result e (startCommand rest early s)
  subst hs
  exact ⟨rfl, (statusErr_clearBusy _).trans herr, (statusCause_clearBusy _).trans hcause,
    (statusBusy_clearBusy _).trans hb.symm,
    (statusReserved_clearBusy _).trans (hreserved.trans (statusReserved_setBusy _))⟩

/-- Settles O5: the conditions of R77 hold of exactly the words that do not decode. -/
theorem illegalWordRaisesIllegalCommand : Obligations.IllegalWordRaisesIllegalCommand := by
  unfold Obligations.IllegalWordRaisesIllegalCommand
  intro s w early late rest hp he hb
  rw [illegalWord_iff, ← decode_ok_iff, not_not]
  refine ⟨fun hill => ?_, id⟩
  cases hd : decode w with
  | ok i => exact absurd ⟨i, hd⟩ hill
  | error e => exact ⟨_, step_issue_illegal hp he hd, raise_during_command _ _ _ _ hb rfl⟩

end Sys2Proof.Machine
end

section
/-! SUPPORT. The base-field unit: what each operation of Machine/Montgomery.lean answers inside its stated
range and outside it, the residues those answers stand for, and Euler's criterion for 9767
(spec/40_basefield.md R100 to R107). -/

namespace Sys2Proof.Machine

/-! ### A command that delivers one word -/

section
variable {s : State} {i : Instr} {wd wa wb : WReg} {a b : Word} {v : Option Word}

theorem setW_none_losesW (s : State) (wd : WReg) : LosesW s (setW s wd none) wd where
  rest := by simp [setW]
  lost := by simp [getW, setW]

theorem exec_losesW (h : exec i s = .next (setW s wd v)) (hv : v = none) :
    ∃ s', exec i s = .next s' ∧ LosesW s s' wd :=
  ⟨_, hv ▸ h, setW_none_losesW s wd⟩

theorem exec_deliversW {r : Word} (h : exec i s = .next (setW s wd v)) (hv : v = some r) :
    exec i s = .next { s with regsW := s.regsW.set wd ⟨r, true⟩ } := by
  subst hv
  exact h

theorem exec_mpAdd (ha : getW s wa = some a) (hb : getW s wb = some b) :
    exec (.mpAdd wd wa wb) s = .next (setW s wd (mpAdd a b)) := by
  simp [exec, execMpAdd, ha, hb]

theorem exec_mpSub (ha : getW s wa = some a) (hb : getW s wb = some b) :
    exec (.mpSub wd wa wb) s = .next (setW s wd (mpSub a b)) := by
  simp [exec, execMpSub, ha, hb]

theorem exec_mpFrommonty (ha : getW s wa = some a) :
    exec (.mpFrommonty wd wa) s = .next (setW s wd (mpReduce a.toNat)) := by
  simp [exec, execMpFrommonty, ha]

theorem exec_mpMontymul (ha : getW s wa = some a) (hb : getW s wb = some b) :
    exec (.mpMontymul wd wa wb) s = .next (setW s wd (mpReduce (a.toNat * b.toNat))) := by
  simp [exec, execMpMontymul, mpMontymul, ha, hb]

theorem exec_mpTomonty (ha : getW s wa = some a) :
    exec (.mpTomonty wd wa) s = .next (setW s wd (mpTomonty a)) := by
  simp [exec, execMpTomonty, ha]

theorem exec_mpInv (ha : getW s wa = some a) :
    exec (.mpInv wd wa) s = .next (setW s wd (mpInv a)) := by
  simp [exec, execMpInv, ha]

theorem exec_mpIsQr (ha : getW s wa = some a) :
    exec (.mpIsQr wd wa) s = .next (setW s wd (mpIsQr a)) := by
  simp [exec, execMpIsQr, ha]

end

/-! ### Representatives and residues -/

theorem toNat_toWord_norm (v : Int) : (toWord (norm v)).toNat = norm v :=
  toWord_toNat (norm_range v).2

theorem toNat_toWord_mrep (v : Nat) : (toWord (mrep v)).toNat = mrep v :=
  toWord_toNat (mrep_range v).2

theorem norm_mod (v : Nat) : norm v % 9767 = v % 9767 := by
  exact_mod_cast norm_modEq v

theorem mval_add (m k : Nat) : mval (m + k) = (mval m + mval k) % 9767 := by
  rw [mval, add_mul, Nat.add_mod, ← mval, ← mval]

theorem mrep_congr {v w : Nat} (h : v % 9767 = w % 9767) : mrep v = mrep w := by
  rw [← mrep_mval (mrep_range v).1 (mrep_range v).2, mval_mrep, h, ← mval_mrep,
    mrep_mval (mrep_range w).1 (mrep_range w).2]

/-- R25: among the stored values 9767 alone stands for zero. -/
theorem mval_eq_zero_iff {m : Nat} (h1 : 1 ≤ m) (h2 : m ≤ 9767) : mval m = 0 ↔ m = 9767 := by
  constructor
  · intro h
    rw [← mrep_mval h1 h2, h]
    rfl
  · rintro rfl
    rfl

/-- R8: RINV is the inverse of the radix. -/
theorem norm_rinv_mul_radix (x : Nat) : norm (x * rinv : Nat) * 2 ^ 32 % 9767 = x % 9767 := by
  have hr : rinv * 2 ^ 32 % 9767 = 1 := by decide
  rw [Nat.mul_mod, norm_mod, ← Nat.mul_mod, mul_assoc, Nat.mul_mod, hr, mul_one, Nat.mod_mod]

/-- R8: 7182 is the residue of the radix. -/
theorem norm_mul_one_rep (x : Nat) : norm (x * 7182 : Nat) % 9767 = x * 2 ^ 32 % 9767 := by
  have hr : 7182 % 9767 = 2 ^ 32 % 9767 := by decide
  rw [norm_mod, Nat.mul_mod, hr, ← Nat.mul_mod]

/-! ### The operations inside their range and outside it -/

section
variable {a b : Word}

theorem mpAdd_of_stored (h : (isStored a && isStored b) = true) :
    mpAdd a b = some (toWord (norm (a.toNat + b.toNat))) := if_pos h

theorem mpSub_of_stored (h : (isStored a && isStored b) = true) :
    mpSub a b = some (toWord (norm (a.toNat - b.toNat))) := if_pos h

theorem mpAdd_eq_none (h : ¬ (isStored a && isStored b) = true) : mpAdd a b = none := if_neg h

theorem mpSub_eq_none (h : ¬ (isStored a && isStored b) = true) : mpSub a b = none := if_neg h

theorem inReductionRange_iff {x : Nat} :
    inReductionRange x = true ↔ 1 ≤ x ∧ x ≤ 3654952486 := by
  simp [inReductionRange]

/-- R103, on the exact integer that MP_FROMMONTY and MP_MONTYMUL reduce. -/
theorem mpReduce_of_inRange {x : Nat} (h : 1 ≤ x ∧ x ≤ 3654952486) : ∃ r, mpReduce x = some r ∧
    1 ≤ r.toNat ∧ r.toNat ≤ 9767 ∧ r.toNat * 2 ^ 32 % 9767 = x % 9767 := by
  refine ⟨_, if_pos (inReductionRange_iff.2 h), ?_⟩
  rw [toNat_toWord_norm]
  exact ⟨(norm_range _).1, (norm_range _).2, norm_rinv_mul_radix x⟩

theorem mpReduce_eq_none {x : Nat} (h : ¬ (1 ≤ x ∧ x ≤ 3654952486)) : mpReduce x = none :=
  if_neg (mt inReductionRange_iff.1 h)

theorem mpTomonty_of_le (h : a.toNat ≤ 2278869) :
    mpTomonty a = some (toWord (norm (a.toNat * 7182 : Nat))) := if_pos h

theorem mpTomonty_eq_none (h : 2278869 < a.toNat) : mpTomonty a = none := if_neg h.not_ge

theorem mrep_powModP (m : Nat) {e : Nat} (he : e < 2 ^ 14) :
    mrep (powModP m 14 e) = mrep (m ^ e % 9767) :=
  mrep_congr ((powModP_eq m 14 e he).trans (Nat.mod_mod _ _).symm)

theorem mpInv_of_stored (h : isStored a = true) :
    mpInv a = some (toWord (mrep (mval a.toNat ^ 9765 % 9767))) := by
  rw [mpInv, if_pos h, mrep_powModP _ (by decide)]

theorem mpInv_eq_none (h : ¬ isStored a = true) : mpInv a = none := if_neg h

theorem mpIsQr_of_stored (h : isStored a = true) :
    mpIsQr a = some (toWord (mrep (mval a.toNat ^ 4883 % 9767))) := by
  rw [mpIsQr, if_pos h, mrep_powModP _ (by decide)]

theorem mpIsQr_eq_none (h : ¬ isStored a = true) : mpIsQr a = none := if_neg h

end

/-! ### Fermat and Euler -/

theorem mod_eq_of_cast_eq {m k : Nat} (hk : k < 9767) (h : (m : ZMod 9767) = (k : ZMod 9767)) :
    m % 9767 = k :=
  ((ZMod.natCast_eq_natCast_iff' m k 9767).1 h).trans (Nat.mod_eq_of_lt hk)

theorem isSquare_natCast_iff {m : Nat} (hm : m < 9767) :
    IsSquare (m : ZMod 9767) ↔ ∃ x, x * x % 9767 = m := by
  constructor
  · rintro ⟨z, hz⟩
    refine ⟨z.val, ?_⟩
    rw [← ZMod.val_mul, ← hz, ZMod.val_natCast_of_lt hm]
  · rintro ⟨x, rfl⟩
    exact ⟨x, by simp⟩

section
variable {m : Nat} (h0 : m ≠ 0) (hm : m < 9767)
include h0 hm

theorem natCast_zmod_ne_zero : (m : ZMod 9767) ≠ 0 := by
  rw [Ne, ZMod.natCast_eq_zero_iff]
  exact Nat.not_dvd_of_pos_of_lt (Nat.pos_of_ne_zero h0) hm

/-- R106: the power 9765 is the inverse, by Fermat. -/
theorem pow_mul_self_mod_eq_one : m ^ 9765 % 9767 * m % 9767 = 1 := by
  have : Fact (Nat.Prime 9767) := ⟨prime_p⟩
  have h : (m : ZMod 9767) ^ 9766 = 1 := ZMod.pow_card_sub_one_eq_one (natCast_zmod_ne_zero h0 hm)
  rw [Nat.mod_mul_mod, ← pow_succ]
  exact mod_eq_of_cast_eq (by decide) (by rw [Nat.cast_pow, h, Nat.cast_one])

/-- R107: the power 4883 is 1 for a square, by Euler's criterion. -/
theorem pow_half_of_square (hsq : ∃ x, x * x % 9767 = m) : m ^ 4883 % 9767 = 1 := by
  have : Fact (Nat.Prime 9767) := ⟨prime_p⟩
  have h : (m : ZMod 9767) ^ 4883 = 1 :=
    (ZMod.euler_criterion 9767 (natCast_zmod_ne_zero h0 hm)).1 ((isSquare_natCast_iff hm).2 hsq)
  exact mod_eq_of_cast_eq (by decide) (by rw [Nat.cast_pow, h, Nat.cast_one])

/-- R107: the power 4883 is -1 for a non-square, by Euler's criterion. -/
theorem pow_half_of_nonsquare (hsq : ¬ ∃ x, x * x % 9767 = m) : m ^ 4883 % 9767 = 9766 := by
  have : Fact (Nat.Prime 9767) := ⟨prime_p⟩
  have hne := natCast_zmod_ne_zero h0 hm
  have h : (m : ZMod 9767) ^ 4883 = -1 :=
    (ZMod.pow_div_two_eq_neg_one_or_one 9767 hne).resolve_left
      (mt (ZMod.euler_criterion 9767 hne).2 (mt (isSquare_natCast_iff hm).1 hsq))
  exact mod_eq_of_cast_eq (by decide) (by rw [Nat.cast_pow, h]; rfl)

end

/-! ### The commands -/

/-- Settles O28: both results are representatives in [1, 9767], fixed by the residue of the exact sum and
difference. -/
theorem mpAddAndSubAreModular : Obligations.MpAddAndSubAreModular := by
  unfold Obligations.MpAddAndSubAreModular
  intro s wd wa wb a b ha hb
  rw [← isStored_iff, ← isStored_iff, ← Bool.and_eq_true]
  refine ⟨fun h => ⟨_, _, exec_deliversW (exec_mpAdd ha hb) (mpAdd_of_stored h),
      exec_deliversW (exec_mpSub ha hb) (mpSub_of_stored h), ?_⟩,
    fun h => ⟨exec_losesW (exec_mpAdd ha hb) (mpAdd_eq_none h),
      exec_losesW (exec_mpSub ha hb) (mpSub_eq_none h)⟩⟩
  rw [Bool.and_eq_true, isStored_iff, isStored_iff] at h
  obtain ⟨⟨ha1, ha2⟩, hb1, hb2⟩ := h
  rw [toNat_toWord_norm, toNat_toWord_norm, ← mval_add, ← mval_add]
  refine ⟨?_, ?_, ?_, ?_⟩
  · split <;> exact norm_unique (by omega) (by omega) (by omega)
  · split <;> exact norm_unique (by omega) (by omega) (by omega)
  · exact mval_norm (by push_cast; rfl)
  · have hdiff := norm_modEq (a.toNat - b.toNat)
    unfold mval rinv
    omega

/-- Settles O29: both commands are the reduction of R103, of the source or of the exact product. -/
theorem montgomeryReductionDividesByTheRadix :
    Obligations.MontgomeryReductionDividesByTheRadix := by
  unfold Obligations.MontgomeryReductionDividesByTheRadix
  intro s wd wa wb a b ha hb
  refine ⟨fun h => ?_, fun h => exec_losesW (exec_mpFrommonty ha) (mpReduce_eq_none h),
    fun h => ?_, fun h => exec_losesW (exec_mpMontymul ha hb) (mpReduce_eq_none h)⟩
  · obtain ⟨r, hr, hspec⟩ := mpReduce_of_inRange h
    exact ⟨r, exec_deliversW (exec_mpFrommonty ha) hr, hspec⟩
  · obtain ⟨r, hr, hspec⟩ := mpReduce_of_inRange h
    exact ⟨r, exec_deliversW (exec_mpMontymul ha hb) hr, hspec⟩

/-- Settles O30: the model multiplies by 7182, the residue of 2^32. -/
theorem mpTomontyMultipliesByTheRadix : Obligations.MpTomontyMultipliesByTheRadix := by
  unfold Obligations.MpTomontyMultipliesByTheRadix
  intro s wd wa a ha
  refine ⟨fun h => ⟨_, exec_deliversW (exec_mpTomonty ha) (mpTomonty_of_le h), ?_⟩,
    fun h => exec_losesW (exec_mpTomonty ha) (mpTomonty_eq_none h)⟩
  rw [toNat_toWord_norm]
  exact ⟨(norm_range _).1, (norm_range _).2, norm_mul_one_rep _⟩

/-- Settles O31: the model raises the residue to the power p - 2, the inverse by Fermat. -/
theorem mpInvDeliversTheInverse : Obligations.MpInvDeliversTheInverse := by
  unfold Obligations.MpInvDeliversTheInverse
  intro s wd wa a ha
  rw [← isStored_iff]
  refine ⟨fun h => ⟨_, exec_deliversW (exec_mpInv ha) (mpInv_of_stored h), ?_⟩,
    fun h => exec_losesW (exec_mpInv ha) (mpInv_eq_none h)⟩
  obtain ⟨h1, h2⟩ := isStored_iff.1 h
  rw [toNat_toWord_mrep, mval_mrep, Nat.mod_mod]
  refine ⟨(mrep_range _).1, (mrep_range _).2, rfl, fun hne => ?_, fun hz => ?_⟩
  · exact pow_mul_self_mod_eq_one (mt (mval_eq_zero_iff h1 h2).1 hne) (mval_lt _)
  · rw [(mval_eq_zero_iff h1 h2).2 hz, zero_pow (by decide)]
    rfl

/-- Settles O32: the model raises the residue to the power (p - 1)/2, Euler's criterion. -/
theorem mpIsQrTellsSquaresApart : Obligations.MpIsQrTellsSquaresApart := by
  unfold Obligations.MpIsQrTellsSquaresApart
  intro s wd wa a ha
  rw [← isStored_iff]
  refine ⟨fun h => ⟨_, exec_deliversW (exec_mpIsQr ha) (mpIsQr_of_stored h), ?_⟩,
    fun h => exec_losesW (exec_mpIsQr ha) (mpIsQr_eq_none h)⟩
  obtain ⟨h1, h2⟩ := isStored_iff.1 h
  have hzero := mval_eq_zero_iff h1 h2
  rw [toNat_toWord_mrep, mval_mrep, Nat.mod_mod]
  refine ⟨rfl, fun hz => ?_, fun hne hsq => ?_, fun hne hsq => ?_⟩
  · rw [hzero.2 hz, zero_pow (by decide)]
    rfl
  · rw [pow_half_of_square (mt hzero.1 hne) (mval_lt _) hsq]
    rfl
  · rw [pow_half_of_nonsquare (mt hzero.1 hne) (mval_lt _) hsq]
    rfl

end Sys2Proof.Machine
end

section
/-! SUPPORT. The arithmetic of GF(9767^19): the folded product, inversion, square roots, cube roots and
the sign of an element, as Machine/Field.lean computes them (spec/41_field_arith.md R125 to R131). -/

namespace Sys2Proof.Machine

/-! ### Coefficients -/

theorem gf_ext {a b : Gf} (h : ∀ k : Fin 19, a[k] = b[k]) : a = b :=
  Vector.ext fun k hk => h ⟨k, hk⟩

theorem gfAdd_coeff (a b : Gf) (k : Fin 19) : (gfAdd a b)[k] = a[k] + b[k] := by simp [gfAdd]

theorem gfSub_coeff (a b : Gf) (k : Fin 19) : (gfSub a b)[k] = a[k] - b[k] := by simp [gfSub]

theorem gfNeg_coeff (a : Gf) (k : Fin 19) : (gfNeg a)[k] = -a[k] := by simp [gfNeg]

theorem gfZero_coeff (k : Fin 19) : gfZero[k] = 0 := by simp [gfZero]

/-! ### Products (R125) -/

/-- The partner of a_i in coefficient k is b_(k-i), doubled where k - i wraps around 19. -/
theorem sum_folded_row (x : Nat) (b : Gf) (k i : Fin 19) :
    (∑ j : Fin 19, if i.val + j.val = k.val then x * b[j].val
      else if i.val + j.val = k.val + 19 then 2 * (x * b[j].val) else 0) =
    x * if i ≤ k then b[k - i].val else 2 * b[k - i].val := by
  rw [Finset.sum_eq_single (k - i)]
  · by_cases h : i ≤ k
    · have hv := Fin.sub_val_of_le h
      rw [Fin.le_def] at h
      rw [if_pos (by omega), if_pos (Fin.le_def.2 h)]
    · have hv : (k - i).val = k.val + 19 - i.val := by
        rw [Fin.le_def] at h
        rw [Fin.val_sub]
        omega
      rw [if_neg (by omega), if_pos (by omega), if_neg h]
      ring
  · intro j _ hj
    have hne : j.val ≠ (k - i).val := fun e => hj (Fin.ext e)
    rw [Fin.val_sub] at hne
    rw [if_neg (by omega), if_neg (by omega)]
  · simp

theorem gfMul_eq_foldedCoefficient (a b : Gf) (k : Fin 19) :
    (gfMul a b)[k].val = foldedCoefficient a b k % 9767 := by
  simp only [gfMul_coeff, foldedCoefficient, sum_folded_row]

/-! ### Exponents -/

theorem lt_expBits {e : Nat} (h : e ≤ q) : e < 2 ^ expBits :=
  h.trans_lt (by norm_num [expBits])

/-! ### Inversion (R127) -/

theorem gfInv_zero : gfInv gfZero = gfZero :=
  toK_eq_zero.1 (toK_inv_zero toK_zero)

theorem gfMul_gfInv {a : Gf} (h : a ≠ gfZero) : gfMul a (gfInv a) = gfOne := by
  rw [← toK_inj, toK_mul, toK_one, toK_mul_inv (mt toK_eq_zero.1 h)]

theorem eq_gfInv_of_gfMul {a x : Gf} (h : a ≠ gfZero) (hx : gfMul a x = gfOne) : x = gfInv a := by
  have h0 := mt toK_eq_zero.1 h
  have hxK : toK a * toK x = toK a * toK (gfInv a) := by
    rw [← toK_mul, hx, toK_one, toK_mul_inv h0]
  let _ := fieldK
  exact toK_inj.1 (mul_left_cancel₀ h0 hxK)

theorem gfInv_eq_gfPow (a : Gf) : gfInv a = gfPow a expBits (q - 2) := by
  rw [← toK_inj, toK_inv, toK_pow a expBits _ (lt_expBits (Nat.sub_le q 2))]

/-! ### Square roots (R128, R129)

q is 3 modulo 4, so a^((q+1)/4) squares to a^((q-1)/2) * a: to a for squares, to -a for the others. -/

theorem toK_sqrtRoot (a : Gf) : toK (gfSqrtRoot a) = toK a ^ ((q + 1) / 4) :=
  toK_pow a expBits _ (lt_expBits (by norm_num))

theorem toK_sqr_sqrtRoot (a : Gf) :
    toK (gfSqr (gfSqrtRoot a)) = toK a ^ ((q - 1) / 2) * toK a := by
  rw [toK_sqr, toK_sqrtRoot, ← pow_mul, ← pow_succ,
    show (q + 1) / 4 * 2 = (q - 1) / 2 + 1 by norm_num]

theorem gfSqr_sqrtRoot_of_square {a : Gf} (h : ∃ x, gfSqr x = a) : gfSqr (gfSqrtRoot a) = a := by
  obtain ⟨x, rfl⟩ := h
  rw [← toK_inj, toK_sqr_sqrtRoot, toK_sqr]
  calc (toK x ^ 2) ^ ((q - 1) / 2) * toK x ^ 2
      = toK x ^ q * toK x := by
        rw [← pow_mul, ← pow_add, ← pow_succ, show 2 * ((q - 1) / 2) + 2 = q + 1 by norm_num]
    _ = toK x ^ 2 := by rw [K_pow_card, sq]

theorem gfSqr_sqrtRoot_of_nonsquare {a : Gf} (h : ¬ ∃ x, gfSqr x = a) :
    gfSqr (gfSqrtRoot a) = gfNeg a := by
  have hne : toK (gfSqr (gfSqrtRoot a)) - toK a ≠ 0 := fun e =>
    h ⟨_, toK_inj.1 (sub_eq_zero.1 e)⟩
  have hsq : toK (gfSqr (gfSqrtRoot a)) ^ 2 = toK a ^ 2 := by
    rw [toK_sqr_sqrtRoot, mul_pow, ← pow_mul, ← pow_add,
      show (q - 1) / 2 * 2 + 2 = q + 1 by norm_num, pow_succ, K_pow_card, sq]
  have hprod : (toK (gfSqr (gfSqrtRoot a)) - toK a) * (toK (gfSqr (gfSqrtRoot a)) + toK a) = 0 := by
    linear_combination hsq
  rw [← toK_inj, toK_neg]
  exact eq_neg_of_add_eq_zero_left ((K_mul_eq_zero.1 hprod).resolve_left hne)

theorem gfSqrtOk_iff {a : Gf} : gfSqrtOk a = true ↔ ∃ x, gfSqr x = a := by
  rw [gfSqrtOk, decide_eq_true_eq]
  exact ⟨fun h => ⟨_, h⟩, gfSqr_sqrtRoot_of_square⟩

/-- Euler's criterion in GF(q). -/
theorem gfIsSquare_iff {a : Gf} : gfIsSquare a = true ↔ ∃ x, gfSqr x = a := by
  have hhalf : toK (gfPow a expBits ((q - 1) / 2)) = toK a ^ ((q - 1) / 2) :=
    toK_pow a expBits _ (lt_expBits (by norm_num))
  rw [gfIsSquare, Bool.or_eq_true, decide_eq_true_eq, decide_eq_true_eq, ← toK_eq_zero, ← toK_inj,
    hhalf, toK_one]
  constructor
  · rintro (h | h)
    · exact ⟨gfZero, by rw [← toK_inj, toK_sqr, toK_zero, h, sq, mul_zero]⟩
    · exact ⟨gfSqrtRoot a, by rw [← toK_inj, toK_sqr_sqrtRoot, h, one_mul]⟩
  · rintro ⟨x, rfl⟩
    rw [toK_sqr]
    by_cases hx : toK x = 0
    · exact .inl (by rw [hx, sq, mul_zero])
    · refine .inr ?_
      rw [← pow_mul, show 2 * ((q - 1) / 2) = q - 1 by norm_num, K_pow_card_sub_one hx]

/-! ### Cube roots (R130)

3 divides 2q - 1, and the power 2q - 1 fixes every element. -/

theorem K_pow_two_q_sub_one (x : K) : x ^ (2 * q - 1) = x := by
  by_cases h : x = 0
  · rw [h, zero_pow (by norm_num)]
  · rw [show 2 * q - 1 = q - 1 + q by norm_num, pow_add, K_pow_card_sub_one h, K_pow_card, one_mul]

theorem toK_cube (x : Gf) : toK (gfMul (gfSqr x) x) = toK x ^ 3 := by
  rw [toK_mul, toK_sqr, ← pow_succ]

theorem toK_cubert (a : Gf) : toK (gfCubert a) = toK a ^ ((2 * q - 1) / 3) :=
  toK_pow a expBits _ (lt_expBits (by norm_num))

theorem three_mul_cubert_exponent : 3 * ((2 * q - 1) / 3) = 2 * q - 1 := by norm_num

theorem gfCubert_cube (a : Gf) : gfMul (gfSqr (gfCubert a)) (gfCubert a) = a := by
  rw [← toK_inj, toK_cube, toK_cubert, ← pow_mul, mul_comm, three_mul_cubert_exponent,
    K_pow_two_q_sub_one]

theorem eq_gfCubert_of_cube {a x : Gf} (h : gfMul (gfSqr x) x = a) : x = gfCubert a := by
  rw [← toK_inj, toK_cubert, ← h, toK_cube, ← pow_mul, three_mul_cubert_exponent,
    K_pow_two_q_sub_one]

/-! ### The sign (R131) -/

theorem firstNonzeroNegative_append {zeros : List Nat} {c : Nat} (rest : List Nat)
    (hz : ∀ x ∈ zeros, x = 0) (hc : c ≠ 0) :
    firstNonzeroNegative (zeros ++ c :: rest) = decide (4883 < c) := by
  induction zeros with
  | nil => simp [firstNonzeroNegative, hc]
  | cons x xs ih =>
    obtain ⟨rfl, hxs⟩ := List.forall_mem_cons.1 hz
    simpa [firstNonzeroNegative] using ih hxs

/-- The highest degree with a non-zero coefficient decides the sign. -/
theorem gfIsNeg_of_top {a : Gf} {k : Fin 19} (hk : a[k] ≠ 0) (htop : ∀ j, k < j → a[j] = 0) :
    gfIsNeg a = decide (4883 < a[k].val) := by
  have hlen : k.val < (gfCoeffs a).length := by rw [gfCoeffs_length]; exact k.isLt
  have hsplit : (gfCoeffs a).reverse = ((gfCoeffs a).drop (k.val + 1)).reverse ++
      a[k].val :: ((gfCoeffs a).take k.val).reverse := by
    have hget := gfCoeffs_getElem a k.val hlen
    conv_lhs => rw [← List.take_append_drop k.val (gfCoeffs a), List.drop_eq_getElem_cons hlen, hget]
    simp
  have hz : ∀ x ∈ ((gfCoeffs a).drop (k.val + 1)).reverse, x = 0 := by
    intro x hx
    obtain ⟨j, hj, rfl⟩ := List.mem_iff_getElem.1 (List.mem_reverse.1 hx)
    rw [List.length_drop, gfCoeffs_length] at hj
    have hj0 := htop ⟨k.val + 1 + j, by omega⟩ (show k.val < k.val + 1 + j by omega)
    rw [List.getElem_drop, gfCoeffs_getElem]
    exact congrArg Fin.val hj0
  rw [gfIsNeg, hsplit, firstNonzeroNegative_append _ hz fun h => hk (Fin.ext h)]

theorem exists_top {a : Gf} (h : a ≠ gfZero) :
    ∃ k : Fin 19, a[k] ≠ 0 ∧ ∀ j, k < j → a[j] = 0 := by
  have hne : {k : Fin 19 | a[k] ≠ 0}.Nonempty := by
    by_contra hno
    rw [Set.not_nonempty_iff_eq_empty, Set.eq_empty_iff_forall_notMem] at hno
    exact h (gf_ext fun k => (not_not.1 (hno k)).trans (gfZero_coeff k).symm)
  obtain ⟨k, hk⟩ := (Set.toFinite _).exists_maximal hne
  exact ⟨k, hk.prop, fun j hj => not_not.1 fun hj0 => hj.not_ge (hk.le_of_ge hj0 hj.le)⟩

theorem gfIsNeg_iff {a : Gf} : gfIsNeg a = true ↔
    ∃ k : Fin 19, 4883 < a[k].val ∧ ∀ j : Fin 19, k < j → a[j].val = 0 := by
  constructor
  · intro h
    have ha : a ≠ gfZero := by
      rintro rfl
      exact absurd h (by decide +kernel)
    obtain ⟨k, hk, htop⟩ := exists_top ha
    rw [gfIsNeg_of_top hk htop, decide_eq_true_eq] at h
    exact ⟨k, h, fun j hj => congrArg Fin.val (htop j hj)⟩
  · rintro ⟨k, hk, htop⟩
    have hk0 : a[k] ≠ 0 := fun e => by
      rw [e] at hk
      exact absurd hk (by decide)
    rw [gfIsNeg_of_top hk0 fun j hj => Fin.ext (htop j hj), decide_eq_true_eq]
    exact hk

/-- 9767 is odd: of c and 9767 - c exactly one is above 4883. -/
theorem gfIsNeg_gfNeg {a : Gf} (h : a ≠ gfZero) : gfIsNeg (gfNeg a) = !gfIsNeg a := by
  obtain ⟨k, hk, htop⟩ := exists_top h
  have hkn : (gfNeg a)[k] ≠ 0 := by rwa [gfNeg_coeff, neg_ne_zero]
  have htopn : ∀ j, k < j → (gfNeg a)[j] = 0 := fun j hj => by rw [gfNeg_coeff, htop j hj, neg_zero]
  have hval : (gfNeg a)[k].val = 9767 - a[k].val := by
    rw [gfNeg_coeff, Fin.val_neg, if_neg hk]
  rw [gfIsNeg_of_top hkn htopn, gfIsNeg_of_top hk htop, hval, ← decide_not]
  have hlt := a[k].isLt
  exact decide_eq_decide.2 (by omega)

end Sys2Proof.Machine
end

section
/-! SUPPORT. The field unit's arithmetic commands: what each delivers when its sources are determinate, and
the statements about them (spec/41_field_arith.md R121 to R132). -/

namespace Sys2Proof.Machine

/-! ### Cells -/

theorem ofFn_norm_cell (f : Fin 19 → Int) (k : Fin 19) :
    (Vector.ofFn fun k => BitVec.ofNat 16 (norm (f k)))[k].toNat = norm (f k) := by
  simp only [Fin.getElem_fin, Vector.getElem_ofFn]
  exact cell_toNat (norm_range _).2

theorem cellsAdd_cell (a b : Cells) (k : Fin 19) :
    (cellsAdd a b)[k].toNat = norm (a[k].toNat + b[k].toNat) := ofFn_norm_cell _ k

theorem cellsSub_cell (a b : Cells) (k : Fin 19) :
    (cellsSub a b)[k].toNat = norm (a[k].toNat - b[k].toNat) := ofFn_norm_cell _ k

theorem cellsNeg_cell (a : Cells) (k : Fin 19) :
    (cellsNeg a)[k].toNat = norm (9767 - a[k].toNat) := ofFn_norm_cell _ k

/-! ### What a command delivers -/

theorem setF_none_losesF (s : State) (fd : FReg) : LosesF s (setF s fd none) fd where
  rest := by simp [setF]
  lost := by simp

section
variable {s : State} {fa fb : FReg} {a b : Cells} (ha : getF s fa = some a)
include ha

theorem exec_gfNeg (fd : FReg) :
    exec (.gfNeg fd fa) s = .next (setF s fd (some (cellsNeg a))) := by
  simp [exec, execGfNeg, ha]

theorem exec_gfCondneg (fd : FReg) {wb : WReg} {ctl : Word} (hc : getW s wb = some ctl) :
    exec (.gfCondneg fd fa wb) s = .next (setF s fd
      (if ctl = 1 then some (cellsNeg a) else if ctl = 0 then some a else none)) := by
  simp [exec, execGfCondneg, ha, hc]

theorem exec_gfSqr (fd : FReg) :
    exec (.gfSqr fd fa) s = .next (setF s fd (some (fld (gfSqr (fval a))))) := by
  simp [exec, execGfSqr, ha]

theorem exec_gfInv (fd : FReg) :
    exec (.gfInv fd fa) s = .next (setF s fd (some (fld (gfInv (fval a))))) := by
  simp [exec, execGfInv, ha]

theorem exec_gfSqrt (wd : WReg) (fc : FReg) :
    exec (.gfSqrt wd fc fa) s = .next (setF
      (setW s wd (some (boolWord (gfSqrtOk (fval a))))) fc (some (fld (gfSqrtRoot (fval a))))) := by
  simp [exec, execGfSqrt, ha]

theorem exec_gfIsqr (wd : WReg) :
    exec (.gfIsqr wd fa) s = .next (setW s wd (some (boolWord (gfIsSquare (fval a))))) := by
  simp [exec, execGfIsqr, ha]

theorem exec_gfCubert (fd : FReg) :
    exec (.gfCubert fd fa) s = .next (setF s fd (some (fld (gfCubert (fval a))))) := by
  simp [exec, execGfCubert, ha]

theorem exec_gfIsneg (wd : WReg) :
    exec (.gfIsneg wd fa) s = .next (setW s wd (some (boolWord (gfIsNeg (fval a))))) := by
  simp [exec, execGfIsneg, ha]

variable (hb : getF s fb = some b)
include hb

theorem exec_gfAdd (fd : FReg) :
    exec (.gfAdd fd fa fb) s = .next (setF s fd (some (cellsAdd a b))) := by
  simp [exec, execGfAdd, ha, hb]

theorem exec_gfSub (fd : FReg) :
    exec (.gfSub fd fa fb) s = .next (setF s fd (some (cellsSub a b))) := by
  simp [exec, execGfSub, ha, hb]

theorem exec_gfMul (fd : FReg) :
    exec (.gfMul fd fa fb) s = .next (setF s fd (some (fld (gfMul (fval a) (fval b))))) := by
  simp [exec, execGfMul, ha, hb]

theorem exec_gfEq (wd : WReg) :
    exec (.gfEq wd fa fb) s = .next (setW s wd (some (boolWord (decide (a = b))))) := by
  simp [exec, execGfEq, ha, hb]

end

/-! ### The commands -/

/-- Settles O33: the model works on the cells, and each map on cells is the map on elements. -/
theorem gfAddSubNegAreCoefficientwise : Obligations.GfAddSubNegAreCoefficientwise := by
  unfold Obligations.GfAddSubNegAreCoefficientwise
  intro s fd fa fb a b ha hb
  refine ⟨_, _, _, exec_gfAdd ha hb fd, exec_gfSub ha hb fd, exec_gfNeg ha fd, fun k => ?_⟩
  rw [fval_cellsAdd, fval_cellsSub, fval_cellsNeg]
  exact ⟨cellsAdd_cell a b k, cellsSub_cell a b k, cellsNeg_cell a k,
    gfAdd_coeff _ _ k, gfSub_coeff _ _ k, gfNeg_coeff _ k⟩

/-- Settles O34: the delivered value is fixed by the control word, and nothing is delivered for a word
other than 0 and 1. -/
theorem gfCondnegFollowsTheControlWord : Obligations.GfCondnegFollowsTheControlWord := by
  unfold Obligations.GfCondnegFollowsTheControlWord
  intro s fd fa wb a ctl ha hc
  have hexec := exec_gfCondneg ha fd hc
  refine ⟨fun h1 => ⟨cellsNeg a, ?_, cellsNeg_stored a, fun k => ?_⟩, fun h0 => ?_, fun h0 h1 => ?_⟩
  · rwa [if_pos h1] at hexec
  · rw [fval_cellsNeg, gfNeg_coeff]
  · rwa [if_neg (by rw [h0]; decide), if_pos h0] at hexec
  · rw [if_neg h1, if_neg h0] at hexec
    exact ⟨_, hexec, setF_none_losesF s fd⟩

/-- Settles O35: the row that the model sums against holds, for each a_i, the one b_j that meets it in
coefficient k. -/
theorem gfMulIsTheFoldedProduct : Obligations.GfMulIsTheFoldedProduct := by
  unfold Obligations.GfMulIsTheFoldedProduct
  intro s fd fa fb a b ha hb
  refine ⟨_, _, exec_gfMul ha hb fd, exec_gfSqr ha fd, cellsStored_fld _, cellsStored_fld _,
    fun k => ?_⟩
  rw [fval_fld, fval_fld]
  exact ⟨gfMul_eq_foldedCoefficient _ _ k, gfMul_eq_foldedCoefficient _ _ k⟩

/-- Settles O36: Itoh-Tsujii inversion is the inverse and the power q - 2 in the field. -/
theorem gfInvDeliversTheInverse : Obligations.GfInvDeliversTheInverse := by
  unfold Obligations.GfInvDeliversTheInverse
  intro s fd fa a ha
  refine ⟨_, exec_gfInv ha fd, cellsStored_fld _, ?_⟩
  rw [fval_fld]
  exact ⟨fun h => by rw [h, gfInv_zero],
    fun h => ⟨gfMul_gfInv h, fun x hx => eq_gfInv_of_gfMul h hx⟩, gfInv_eq_gfPow _⟩

/-- Settles O37: both predicates answer true exactly for squares, and the power (q + 1)/4 squares to a or
to -a. -/
theorem gfSqrtRootsTheElementOrItsNegation : Obligations.GfSqrtRootsTheElementOrItsNegation := by
  unfold Obligations.GfSqrtRootsTheElementOrItsNegation
  intro s wd fc fa a ha
  have hsame : gfIsSquare (fval a) = gfSqrtOk (fval a) :=
    Bool.eq_iff_iff.2 (gfIsSquare_iff.trans gfSqrtOk_iff.symm)
  have hisqr := exec_gfIsqr ha wd
  rw [hsame] at hisqr
  refine ⟨_, _, exec_gfSqrt ha wd fc, hisqr, cellsStored_fld _, fun h => ?_, fun h => ?_⟩
  · rw [gfSqrtOk_iff.2 h, fval_fld]
    exact ⟨rfl, gfSqr_sqrtRoot_of_square h⟩
  · rw [Bool.eq_false_iff.2 (mt gfSqrtOk_iff.1 h), fval_fld]
    exact ⟨rfl, gfSqr_sqrtRoot_of_nonsquare h⟩

/-- Settles O38: the power (2q - 1)/3 undoes the cube and is undone by it. -/
theorem gfCubertDeliversTheCubeRoot : Obligations.GfCubertDeliversTheCubeRoot := by
  unfold Obligations.GfCubertDeliversTheCubeRoot
  intro s fd fa a ha
  refine ⟨_, exec_gfCubert ha fd, cellsStored_fld _, ?_⟩
  rw [fval_fld]
  exact ⟨rfl, gfCubert_cube _, fun x hx => eq_gfCubert_of_cube hx⟩

/-- Settles O39: the first non-zero entry of the reversed coefficients is the top one, and negation maps
it to 9767 minus it. -/
theorem gfIsnegLooksAtTheTopCoefficient : Obligations.GfIsnegLooksAtTheTopCoefficient := by
  unfold Obligations.GfIsnegLooksAtTheTopCoefficient
  intro s wd fa a ha
  exact ⟨exec_gfIsneg ha wd, gfIsNeg_iff, gfIsNeg_gfNeg⟩

/-- Settles O40: cells in the range of R24 are equal exactly when their elements are. -/
theorem gfEqComparesElements : Obligations.GfEqComparesElements := by
  unfold Obligations.GfEqComparesElements
  intro s wd fa fb a b hs ha hb
  refine ⟨_, exec_gfEq ha hb wd, fun h => ?_, fun ⟨k, hk⟩ => ?_, ?_⟩
  · rw [decide_eq_true (Vector.ext fun k hk => h ⟨k, hk⟩)]
    rfl
  · rw [decide_eq_false fun h => hk (by rw [h])]
    rfl
  · rw [fval_inj (hs fa a ha) (hs fb b hb)]
    by_cases h : a = b <;> simp [boolWord, h]

end Sys2Proof.Machine
end

section
/-! SUPPORT. BUF as a load and a store see it: determinate bytes as a list, the little-endian integer
of a list, what a store leaves and what an access outside BUF raises (spec/10_state.md R12, R33,
spec/20_memory.md R52, R53). -/

namespace Sys2Proof.Machine

/-! ### Loads -/

theorem readBytes_of_readByte {m : Memory} {a len : Nat} {b : Nat → Byte}
    (h : ∀ i < len, readByte m (a + i) = some (b i)) :
    readBytes m a len = some ((List.range len).map b) := by
  induction len generalizing a b with
  | zero => rfl
  | succ len ih =>
    have hhead : readByte m a = some (b 0) := h 0 (Nat.succ_pos _)
    have htail : readBytes m (a + 1) len = some ((List.range len).map fun i => b (i + 1)) :=
      ih fun i hi => by rw [Nat.add_right_comm]; exact h (i + 1) (Nat.succ_lt_succ hi)
    simp [readBytes, hhead, htail, List.range_succ_eq_map, Function.comp_def]

theorem loadBytes_of_holdsBytes {s : State} {off : Off12} {len : Nat} {b : Nat → Byte}
    (h : holdsBytes s off.toNat len b) : loadBytes s off len = some ((List.range len).map b) :=
  readBytes_of_readByte h

/-! ### Little-endian integers -/

theorem leValue_succ (len : Nat) (b : Nat → Byte) :
    leValue (len + 1) b = (b 0).toNat + 256 * leValue len fun i => b (i + 1) := by
  simp only [leValue, Finset.sum_range_succ', Finset.mul_sum, pow_succ]
  rw [Nat.pow_zero, Nat.mul_one, Nat.add_comm]
  exact congrArg _ (Finset.sum_congr rfl fun i _ => by ring)

theorem leNat_map_range (len : Nat) (b : Nat → Byte) :
    leNat ((List.range len).map b) = leValue len b := by
  induction len generalizing b with
  | zero => rfl
  | succ len ih =>
    rw [leValue_succ, ← ih, List.range_succ_eq_map, List.map_cons, List.map_map]
    rfl

/-- Bytes are determined by their little-endian integer (R12). -/
theorem leValue_inj {len : Nat} {b c : Nat → Byte} :
    leValue len b = leValue len c ↔ ∀ i < len, b i = c i := by
  constructor
  · intro h
    have hb := leBytes_leNat ((List.range len).map b)
    have hc := leBytes_leNat ((List.range len).map c)
    simp only [List.length_map, List.length_range, leNat_map_range] at hb hc
    rw [h, hc] at hb
    simpa using hb.symm
  · intro h
    exact Finset.sum_congr rfl fun i hi => by rw [h i (Finset.mem_range.1 hi)]

/-! ### Stores and engine errors -/

theorem storeBytes_result (s : State) (off : Off12) {len : Nat} {bs : List Byte}
    (h : bs.length = len) : StoreResult s (storeBytes s off len (some bs)) off.toNat len
      fun i => some (bs.getD i 0) where
  rest := rfl
  inside i hi := by
    have hi' : i < bs.length := h ▸ hi
    rw [storeBytes_buf_some, readByte_writeBytes_inside _ _ _ _ hi', List.getD_eq_getElem _ _ hi']
  outside a ha := by rw [storeBytes_buf_some, readByte_writeBytes_outside _ _ (h ▸ ha)]

/-- A command behind a range check raises BufRange when its access leaves BUF (R52, R53, R304). -/
theorem exec_raises_bufRange {i : Instr} {s t : State} {off : Off12} {len : Nat}
    (h : exec i s = .next (inRange off len s t)) (ho : 4096 < off.toNat + len) :
    ∃ s', exec i s = .next s' ∧ RaiseResult s s' 2 := by
  rw [inRange_outside ho] at h
  exact ⟨_, h, raise_result .bufRange s⟩

end Sys2Proof.Machine
end

section
/-! SUPPORT. The byte format of field elements, group by group: packing and unpacking are inverse, and
the decoder accepts exactly the encodings (spec/42_field_codec.md R150 to R155). -/

namespace Sys2Proof.Machine

/-! ### Coefficients -/

theorem gfOf_coeff (l : List Nat) (k : Fin 19) : (gfOf l)[k].val = coeffAt l k % 9767 := by
  simp [gfOf, coeffAt]

theorem coeffAt_gfCoeffs (a : Gf) (k : Fin 19) : coeffAt (gfCoeffs a) k = a[k].val := by
  simp [coeffAt, gfCoeffs]

theorem coeffAt_gfCoeffs_lt (a : Gf) (k : Nat) : coeffAt (gfCoeffs a) k < 9767 := by
  rcases lt_or_ge k 19 with hk | hk
  · exact (coeffAt_gfCoeffs a ⟨k, hk⟩).trans_lt a[k].isLt
  · simp [coeffAt, gfCoeffs, hk]

theorem gfOf_gfCoeffs (a : Gf) : gfOf (gfCoeffs a) = a :=
  gf_ext fun k => Fin.ext <| by
    rw [gfOf_coeff, coeffAt_gfCoeffs, Nat.mod_eq_of_lt a[k].isLt]

theorem gfCoeffs_gfOf {l : List Nat} (hlen : l.length = 19) (hlt : ∀ x ∈ l, x < 9767) :
    gfCoeffs (gfOf l) = l := by
  refine List.ext_getElem ((gfCoeffs_length _).trans hlen.symm) fun k hk hk' => ?_
  have hcoeff := gfOf_coeff l ⟨k, hlen ▸ hk'⟩
  rw [coeffAt, List.getD_eq_getElem _ _ hk', Nat.mod_eq_of_lt (hlt _ (List.getElem_mem hk'))]
    at hcoeff
  exact (gfCoeffs_getElem _ k hk).trans hcoeff

/-- The three coefficients of group g (R150). -/
def triple (l : List Nat) (g : Nat) : List Nat :=
  [coeffAt l (3 * g), coeffAt l (3 * g + 1), coeffAt l (3 * g + 2)]

theorem eq_iff_triples {l m : List Nat} (hl : l.length = 19) (hm : m.length = 19) :
    l = m ↔ (∀ g < 6, triple l g = triple m g) ∧ coeffAt l 18 = coeffAt m 18 := by
  refine ⟨fun h => by simp [h], fun ⟨hgroup, hlast⟩ => List.ext_getElem (hl.trans hm.symm)
    fun k hk hk' => ?_⟩
  rw [← List.getD_eq_getElem _ 0 hk, ← List.getD_eq_getElem _ 0 hk']
  change coeffAt l k = coeffAt m k
  obtain hk18 | hk18 : k = 18 ∨ k / 3 < 6 := by omega
  · rwa [hk18]
  · have h := hgroup _ hk18
    simp only [triple, List.cons.injEq, and_true] at h
    obtain ⟨h0, h1, h2⟩ := h
    obtain e | e | e : k = 3 * (k / 3) ∨ k = 3 * (k / 3) + 1 ∨ k = 3 * (k / 3) + 2 := by omega
    · rwa [← e] at h0
    · rwa [← e] at h1
    · rwa [← e] at h2

/-! ### One group of three coefficients -/

/-- The integer of group g (R150). -/
def packGroup (l : List Nat) (g : Nat) : Nat :=
  packTriple (coeffAt l (3 * g)) (coeffAt l (3 * g + 1)) (coeffAt l (3 * g + 2))

theorem packTriple_lt {c0 c1 c2 : Nat} (h0 : c0 < 9767) (h1 : c1 < 9767) (h2 : c2 < 9767) :
    packTriple c0 c1 c2 < 256 ^ 5 := by
  unfold packTriple
  omega

/-- A coefficient l + 2048 * d is packed as its low bits l and the selector digit d (R150). -/
theorem packTriple_join {l0 l1 l2 : Nat} (d0 d1 d2 : Nat) (h0 : l0 < 2048) (h1 : l1 < 2048)
    (h2 : l2 < 2048) : packTriple (l0 + d0 * 2048) (l1 + d1 * 2048) (l2 + d2 * 2048) =
      l0 + l1 * 2 ^ 11 + l2 * 2 ^ 22 + (d0 + 5 * d1 + 25 * d2) * 2 ^ 33 := by
  simp [packTriple, Nat.add_mul_div_right, Nat.mod_eq_of_lt, Nat.div_eq_of_lt, h0, h1, h2]

theorem unpackTriple_join {l0 l1 l2 d0 d1 : Nat} (d2 : Nat) (h0 : l0 < 2048) (h1 : l1 < 2048)
    (h2 : l2 < 2048) (hd0 : d0 < 5) (hd1 : d1 < 5) :
    unpackTriple (l0 + l1 * 2 ^ 11 + l2 * 2 ^ 22 + (d0 + 5 * d1 + 25 * d2) * 2 ^ 33) =
      [l0 + d0 * 2048, l1 + d1 * 2048, l2 + d2 * 2048] := by
  have hsel : (l0 + l1 * 2 ^ 11 + l2 * 2 ^ 22 + (d0 + 5 * d1 + 25 * d2) * 2 ^ 33) / 2 ^ 33 =
      d0 + 5 * d1 + 25 * d2 := by omega
  simp only [unpackTriple, hsel, List.cons.injEq, and_true]
  omega

/-- The integer of three coefficients is the only one that unpacks to them (R153). -/
theorem unpackTriple_eq_iff {v c0 c1 c2 : Nat} (h0 : c0 < 9767) (h1 : c1 < 9767) :
    unpackTriple v = [c0, c1, c2] ↔ v = packTriple c0 c1 c2 := by
  have hl (c : Nat) : c % 2048 < 2048 := Nat.mod_lt _ (by norm_num)
  constructor
  · intro h
    simp only [unpackTriple, List.cons.injEq, and_true] at h
    obtain ⟨rfl, rfl, rfl⟩ := h
    have h22 : v / 2 ^ 11 / 2 ^ 11 = v / 2 ^ 22 := Nat.div_div_eq_div_mul ..
    have h33 : v / 2 ^ 22 / 2 ^ 11 = v / 2 ^ 33 := Nat.div_div_eq_div_mul ..
    have hsel (m : Nat) : m % 5 + 5 * (m / 5 % 5) + 25 * (m / 25) = m := by
      have := Nat.div_div_eq_div_mul m 5 5
      omega
    rw [packTriple_join _ _ _ (hl _) (hl _) (hl _), hsel]
    omega
  · rintro rfl
    have hc (c : Nat) : c = c % 2048 + c / 2048 * 2048 := (Nat.mod_add_div' c 2048).symm
    rw [packTriple, unpackTriple_join _ (hl _) (hl _) (hl _) (by omega) (by omega), ← hc,
      ← hc, ← hc]

/-! ### The encoder -/

theorem leValue_encodeField_group (a : Gf) {g : Nat} (hg : g < 6) :
    leValue 5 (fun i => (encodeField a).getD (5 * g + i) 0) = packGroup (gfCoeffs a) g := by
  have hbytes : (List.range 5).map (fun i => (encodeField a).getD (5 * g + i) 0) =
      encodeGroup (gfCoeffs a) g := by
    interval_cases g <;> rfl
  rw [← leNat_map_range, hbytes, encodeGroup, leNat_leBytes]
  exact Nat.mod_eq_of_lt (packTriple_lt (coeffAt_gfCoeffs_lt _ _) (coeffAt_gfCoeffs_lt _ _)
    (coeffAt_gfCoeffs_lt _ _))

theorem leValue_encodeField_last (a : Gf) :
    leValue 2 (fun i => (encodeField a).getD (30 + i) 0) = coeffAt (gfCoeffs a) 18 := by
  have hbytes : (List.range 2).map (fun i => (encodeField a).getD (30 + i) 0) =
      leBytes 2 (coeffAt (gfCoeffs a) 18) := rfl
  rw [← leNat_map_range, hbytes, leNat_leBytes]
  exact Nat.mod_eq_of_lt ((coeffAt_gfCoeffs_lt a 18).trans (by norm_num))

/-! ### The decoder -/

/-- The 32 bytes in six groups of five and a pair. -/
theorem forall_lt_32_iff {p : Nat → Prop} :
    (∀ i < 32, p i) ↔ (∀ g < 6, ∀ i < 5, p (5 * g + i)) ∧ ∀ i < 2, p (30 + i) := by
  refine ⟨fun h => ⟨fun g hg i hi => h _ (by omega), fun i hi => h _ (by omega)⟩,
    fun ⟨hgroup, hlast⟩ i hi => ?_⟩
  rcases lt_or_ge i 30 with h | h
  · simpa [Nat.div_add_mod] using hgroup (i / 5) (by omega) (i % 5) (by omega)
  · simpa [h] using hlast (i - 30) (by omega)

/-- Clearing bits 7:6 of the second byte keeps the low 14 bits of the integer (R154). -/
theorem leValue_mask (f : Nat → Byte) :
    leValue 2 (fun i => if i = 1 then f i &&& 0x3F else f i) = leValue 2 f % 2 ^ 14 := by
  have hmask : (f 1 &&& 0x3F).toNat = (f 1).toNat % 2 ^ 6 :=
    (BitVec.toNat_and _ _).trans (Nat.and_two_pow_sub_one_eq_mod _ 6)
  have h0 := (f 0).isLt
  simp only [leValue, Finset.sum_range_succ, Finset.sum_range_zero, zero_ne_one,
    if_true, if_false, hmask]
  omega

section
variable (b : Nat → Byte)

/-- An encoding is known by the integers of its groups (R150, R154). -/
theorem isFieldEncoding_iff (x : Gf) : isFieldEncoding x b ↔
    (∀ g < 6, leValue 5 (fun i => b (5 * g + i)) = packGroup (gfCoeffs x) g) ∧
      leValue 2 (fun i => b (30 + i)) % 2 ^ 14 = coeffAt (gfCoeffs x) 18 := by
  unfold isFieldEncoding
  rw [forall_lt_32_iff, ← leValue_mask, ← leValue_encodeField_last, leValue_inj]
  refine and_congr (forall₂_congr fun g hg => ?_) (forall₂_congr fun i hi => ?_)
  · rw [← leValue_encodeField_group x hg, leValue_inj]
    exact forall₂_congr fun i hi => by rw [if_neg (by omega)]
  · simp only [show 30 + i = 31 ↔ i = 1 by omega]

theorem triple_reconstruct {g : Nat} (hg : g < 6) :
    triple (reconstruct ((List.range 32).map b)) g =
      unpackTriple (leValue 5 fun i => b (5 * g + i)) := by
  rw [← leNat_map_range]
  interval_cases g <;> rfl

theorem coeffAt_reconstruct_last : coeffAt (reconstruct ((List.range 32).map b)) 18 =
    leValue 2 (fun i => b (30 + i)) % 2 ^ 14 := by
  rw [← leNat_map_range]
  rfl

theorem reconstruct_length (bs : List Byte) : (reconstruct bs).length = 19 := rfl

theorem decodeField_eq_some_iff {bs : List Byte} {x : Gf} :
    decodeField bs = some x ↔ reconstruct bs = gfCoeffs x := by
  constructor
  · intro h
    obtain ⟨hlt, rfl⟩ : (∀ c ∈ reconstruct bs, c < 9767) ∧ gfOf (reconstruct bs) = x := by
      simpa [decodeField] using h
    exact (gfCoeffs_gfOf (reconstruct_length bs) hlt).symm
  · intro h
    have hlt : ∀ c ∈ gfCoeffs x, c < 9767 := by simp [gfCoeffs]
    simpa [decodeField, h, gfOf_gfCoeffs] using hlt

/-- The decoder accepts exactly the encodings, up to bits 7:6 of byte 31 (R153, R154). -/
theorem decodeField_eq_some_iff_isFieldEncoding (x : Gf) :
    decodeField ((List.range 32).map b) = some x ↔ isFieldEncoding x b := by
  rw [decodeField_eq_some_iff, isFieldEncoding_iff,
    eq_iff_triples (reconstruct_length _) (gfCoeffs_length x), coeffAt_reconstruct_last]
  refine and_congr_left' (forall₂_congr fun g hg => ?_)
  rw [triple_reconstruct b hg]
  exact unpackTriple_eq_iff (coeffAt_gfCoeffs_lt _ _) (coeffAt_gfCoeffs_lt _ _)

end

/-! ### map_to_base -/

theorem coeffAt_digitsP {len k : Nat} (hk : k < len) (x : Nat) :
    coeffAt (digitsP len x) k = x / 9767 ^ k % 9767 := by
  induction len generalizing k x with
  | zero => omega
  | succ len ih =>
    cases k with
    | zero => simp [coeffAt, digitsP]
    | succ k =>
      rw [Nat.pow_succ', ← Nat.div_div_eq_div_mul, ← ih (Nat.lt_of_succ_lt_succ hk)]
      rfl

theorem mapToBase_coeff (bs : List Byte) (k : Fin 19) :
    (mapToBase bs)[k].val = leNat bs / 9767 ^ k.val % 9767 := by
  rw [mapToBase, gfOf_coeff, coeffAt_digitsP k.isLt, Nat.mod_mod]

/-! ### What a command inside BUF does -/

section
variable {s : State} {off : Off12}

theorem exec_gfEncode {fa : FReg} {a : Cells} (ha : getF s fa = some a) (ho : off.toNat ≤ 4064) :
    exec (.gfEncode fa off) s = .next (storeBytes s off 32 (some (encodeField (fval a)))) := by
  simp [exec, execGfEncode, inRange_inside (Nat.add_le_add_right ho 32), ha]

variable {fd : FReg} {b : Nat → Byte}

theorem exec_gfDecode (wd : WReg) (ho : off.toNat ≤ 4064) (hb : holdsBytes s off.toNat 32 b) :
    exec (.gfDecode wd fd off) s = .next (setF
      (setW s wd (some (boolWord (decodeField ((List.range 32).map b)).isSome))) fd
      ((decodeField ((List.range 32).map b)).map fld)) := by
  simp [exec, execGfDecode, inRange_inside (Nat.add_le_add_right ho 32), loadBytes_of_holdsBytes hb]

theorem exec_gfMaptobase (ho : off.toNat ≤ 4048) (hb : holdsBytes s off.toNat 48 b) :
    exec (.gfMaptobase fd off) s =
      .next (setF s fd (some (fld (mapToBase ((List.range 48).map b))))) := by
  simp [exec, execGfMaptobase, inRange_inside (Nat.add_le_add_right ho 48),
    loadBytes_of_holdsBytes hb]

end

/-! ### The commands -/

/-- Settles O41: the stored bytes are read back group by group. -/
theorem gfEncodeStoresThePackedCoefficients : Obligations.GfEncodeStoresThePackedCoefficients := by
  unfold Obligations.GfEncodeStoresThePackedCoefficients
  intro s fa off a _ ha
  refine ⟨fun ho => ⟨_, _, exec_gfEncode ha ho,
      storeBytes_result s off (encodeField_length (fval a)), fun g hg c0 c1 c2 h0 h1 h2 => ?_, ?_⟩,
    fun ho => exec_raises_bufRange rfl (Nat.add_lt_add_right ho 32)⟩
  · have hc (k c : Nat) (h : (gfCoeffs (fval a))[k]? = some c) :
        coeffAt (gfCoeffs (fval a)) k = c := by simp [coeffAt, h]
    rw [leValue_encodeField_group _ hg, packGroup, hc _ _ h0, hc _ _ h1, hc _ _ h2]
    rfl
  · exact (leValue_encodeField_last _).trans (coeffAt_gfCoeffs _ 18)

/-- Settles O42: the decoder accepts exactly the encodings, and what it loads is the bytes held. -/
theorem gfDecodeAcceptsExactlyTheEncodings : Obligations.GfDecodeAcceptsExactlyTheEncodings := by
  unfold Obligations.GfDecodeAcceptsExactlyTheEncodings
  intro s wd fd off b
  refine ⟨fun ho hb => ?_, fun ho => exec_raises_bufRange rfl (Nat.add_lt_add_right ho 32)⟩
  have hexec := exec_gfDecode (fd := fd) wd ho hb
  refine ⟨fun x hx => ?_, fun hno => ?_⟩
  · rw [(decodeField_eq_some_iff_isFieldEncoding b x).2 hx] at hexec
    exact ⟨fld x, hexec, cellsStored_fld x, fval_fld x⟩
  · have hnone : decodeField ((List.range 32).map b) = none :=
      Option.eq_none_iff_forall_ne_some.2 fun x hx =>
        hno ⟨x, (decodeField_eq_some_iff_isFieldEncoding b x).1 hx⟩
    rw [hnone] at hexec
    exact ⟨_, hexec, setF_none_losesF _ fd⟩

/-- Settles O43: each digit is what remains of the integer after the lower ones are divided off. -/
theorem gfMaptobaseDeliversTheBasePDigits : Obligations.GfMaptobaseDeliversTheBasePDigits := by
  unfold Obligations.GfMaptobaseDeliversTheBasePDigits
  intro s fd off b
  refine ⟨fun ho hb => ⟨_, exec_gfMaptobase ho hb, cellsStored_fld _, fun k => ?_⟩,
    fun ho => exec_raises_bufRange rfl (Nat.add_lt_add_right ho 48)⟩
  rw [fval_fld, mapToBase_coeff, leNat_map_range]

end Sys2Proof.Machine
end

section
/-! SUPPORT. The lattice pair of SC_REDUCE_BASIS_VARTIME: Euclid on (n, b) keeps the determinant of its two
rows, so the first remainder below 2^126 and its cofactor are an admissible pair
(spec/43_scalar.md R182, R183). -/

namespace Sys2Proof.Machine

/-- The order has 252 bits (R9). -/
theorem order_lt : n < 2 ^ 252 := by norm_num

theorem admissiblePair_iff {b : Nat} {c : Int × Int} : admissiblePair b c = true ↔
    (n : Int) ∣ c.2 * b - c.1 ∧ (c.1 ≠ 0 ∨ c.2 ≠ 0) ∧ c.1 * c.1 + c.2 * c.2 < 2 ^ 253 := by
  have hne : c ≠ (0, 0) ↔ c.1 ≠ 0 ∨ c.2 ≠ 0 := by rw [Ne, Prod.ext_iff, not_and_or]
  simp only [admissiblePair, Bool.and_eq_true, decide_eq_true_iff, and_assoc, hne,
    Int.dvd_iff_emod_eq_zero]

theorem mul_self_lt_two_pow {x : Int} (h0 : 0 ≤ x) (h : x < 2 ^ 126) : x * x < 2 ^ 252 :=
  (mul_self_lt_mul_self h0 h).trans_eq (by norm_num)

/-- What Euclid on (n, b) keeps while it runs. Each row (r, t) satisfies t * b = r modulo n, the
cofactors have opposite signs (e is the sign of t1), and the determinant of the rows is n up to that
sign. -/
structure EuclidRows (b r0 r1 : Nat) (t0 t1 : Int) : Prop where
  row0 : (n : Int) ∣ t0 * b - r0
  row1 : (n : Int) ∣ t1 * b - r1
  decreasing : r1 < r0
  large : 2 ^ 126 ≤ r0
  det : ∃ e : Int, e * e = 1 ∧ e * t0 ≤ 0 ∧ 0 ≤ e * t1 ∧ e * t1 * r0 - e * t0 * r1 = n

theorem euclidRows_start {b : Nat} (hb : b < n) : EuclidRows b n b 0 1 where
  row0 := by simp
  row1 := by simp
  decreasing := hb
  large := by decide
  det := ⟨1, by simp⟩

section
variable {b r0 r1 : Nat} {t0 t1 : Int} (h : EuclidRows b r0 r1 t0 t1)
include h

theorem EuclidRows.next (hr : 2 ^ 126 ≤ r1) :
    EuclidRows b r1 (r0 % r1) t1 (t0 - (r0 / r1 : Nat) * t1) := by
  obtain ⟨e, hee, ht0, ht1, hdet⟩ := h.det
  have hmod : ((r0 % r1 : Nat) : Int) = r0 - r1 * (r0 / r1 : Nat) := Int.emod_def r0 r1
  have hq : (0 : Int) ≤ (r0 / r1 : Nat) * (e * t1) := mul_nonneg (Int.natCast_nonneg _) ht1
  have hrow : (t0 - (r0 / r1 : Nat) * t1) * b - (r0 % r1 : Nat) =
      t0 * b - r0 - (r0 / r1 : Nat) * (t1 * b - r1) := by
    rw [hmod]
    ring
  exact {
    row0 := h.row1
    row1 := hrow ▸ dvd_sub h.row0 (h.row1.mul_left _)
    decreasing := Nat.mod_lt _ ((Nat.two_pow_pos 126).trans_le hr)
    large := hr
    det := ⟨-e, by linarith, by linarith, by linarith, by rw [hmod]; linear_combination hdet⟩ }

/-- The determinant bounds the cofactor by n / r0, so by 2^126. -/
theorem EuclidRows.cofactor_sq_lt : t1 * t1 < 2 ^ 252 := by
  obtain ⟨e, hee, ht0, ht1, hdet⟩ := h.det
  have hlarge : (2 : Int) ^ 126 ≤ r0 := by exact_mod_cast h.large
  have hle : e * t1 * 2 ^ 126 ≤ n := by
    have hrow0 := mul_le_mul_of_nonneg_left hlarge ht1
    have hrow1 := mul_nonpos_of_nonpos_of_nonneg ht0 (Int.natCast_nonneg r1)
    linarith
  have hlt : e * t1 < 2 ^ 126 := by
    norm_num at hle ⊢
    omega
  calc t1 * t1 = e * t1 * (e * t1) := by linear_combination -(t1 * t1) * hee
    _ < 2 ^ 252 := mul_self_lt_two_pow ht1 hlt

theorem EuclidRows.cofactor_ne_zero_or : (r1 : Int) ≠ 0 ∨ t1 ≠ 0 := by
  obtain ⟨e, -, -, -, hdet⟩ := h.det
  by_contra hno
  rw [not_or, not_not, not_not] at hno
  simp [hno] at hdet

theorem EuclidRows.admissible (hr : r1 < 2 ^ 126) : admissiblePair b (r1, t1) = true := by
  have hr1 := mul_self_lt_two_pow (Int.natCast_nonneg r1) (by exact_mod_cast hr)
  exact admissiblePair_iff.2 ⟨h.row1, h.cofactor_ne_zero_or,
    (add_lt_add hr1 h.cofactor_sq_lt).trans_eq (by norm_num)⟩

end

/-- A division step at least halves the product of the two remainders. -/
theorem two_mul_mod_product_le {r0 r1 : Nat} (h : r1 ≤ r0) : 2 * (r1 * (r0 % r1)) ≤ r0 * r1 := by
  rcases Nat.eq_zero_or_pos r1 with rfl | hpos
  · simp
  · have hle : r1 ≤ r1 * (r0 / r1) := Nat.le_mul_of_pos_right r1 (Nat.div_pos h hpos)
    have hlt := Nat.mod_lt r0 hpos
    have hdiv := Nat.mod_add_div r0 r1
    calc 2 * (r1 * (r0 % r1)) = 2 * (r0 % r1) * r1 := by ring
      _ ≤ r0 * r1 := Nat.mul_le_mul_right r1 (by omega)

/-- The product of the remainders measures the fuel: below 2^252 the second one is below 2^126. -/
theorem euclidPair_admissible {b fuel r0 r1 : Nat} {t0 t1 : Int} (h : EuclidRows b r0 r1 t0 t1)
    (hfuel : r0 * r1 < 2 ^ 252 * 2 ^ fuel) :
    admissiblePair b (euclidPair fuel r0 r1 t0 t1) = true := by
  induction fuel generalizing r0 r1 t0 t1 with
  | zero =>
    refine h.admissible (lt_of_not_ge fun hr => hfuel.not_ge ?_)
    exact (Nat.mul_le_mul h.large hr).trans' (by norm_num)
  | succ fuel ih =>
    rw [euclidPair]
    split
    · exact h.admissible ‹_›
    · refine ih (h.next (not_lt.1 ‹_›)) ?_
      have := two_mul_mod_product_le h.decreasing.le
      rw [pow_succ] at hfuel
      omega

theorem somePair_admissible {b : Nat} (hb : b < n) : admissiblePair b (somePair b) = true :=
  euclidPair_admissible (euclidRows_start hb)
    (Nat.mul_lt_mul'' order_lt (hb.trans (by norm_num)))

/-- R182: whatever BASIS_CHOICE is, the pair of the command is admissible. -/
theorem reduceBasis_admissible (b : Scalar) : admissiblePair b.val (reduceBasis b.val) = true := by
  unfold reduceBasis
  split
  · assumption
  · exact somePair_admissible b.isLt

end Sys2Proof.Machine
end

section
/-! SUPPORT. The scalar unit: what each command delivers when its sources are determinate, and the
statements about them (spec/43_scalar.md R171 to R184). -/

namespace Sys2Proof.Machine

/-! ### Words and integers -/

theorem boolWord_decide (p : Prop) [Decidable p] :
    boolWord (decide p) = if p then 1 else 0 := by
  simp [boolWord]

/-- The integer of a list of bytes is that of the bytes by index (R12). -/
theorem leValue_getD {bs : List Byte} {len : Nat} (h : bs.length = len) :
    leValue len (fun i => bs.getD i 0) = leNat bs := by
  have hbs : (List.range len).map (fun i => bs.getD i 0) = bs :=
    List.ext_getElem (by simp [h]) fun i hi hi' => by simp [hi']
  rw [← leNat_map_range, hbs]

theorem byte_mul_le_leValue (b : Nat → Byte) {i len : Nat} (h : i < len) :
    (b i).toNat * 256 ^ i ≤ leValue len b :=
  Finset.single_le_sum (f := fun i => (b i).toNat * 256 ^ i) (fun _ _ => Nat.zero_le _)
    (Finset.mem_range.2 h)

theorem leNat_leBytes_scalar (a : Scalar) : leNat (leBytes 32 a.val) = a.val := by
  rw [leNat_leBytes]
  exact Nat.mod_eq_of_lt (a.isLt.trans (by norm_num))

/-- Two's complement is the residue modulo 256^k (R12). -/
theorem leNat_sleBytes (k : Nat) (v : Int) : (leNat (sleBytes k v) : Int) = v % (256 ^ k : Nat) := by
  have hpos : (0 : Int) < (256 ^ k : Nat) := by positivity
  have h0 := Int.emod_nonneg v hpos.ne'
  rw [sleBytes, leNat_leBytes, Nat.mod_eq_of_lt, Int.toNat_of_nonneg h0]
  exact (Int.toNat_lt h0).2 (Int.emod_lt_of_pos v hpos)

theorem sleBytes_length (k : Nat) (v : Int) : (sleBytes k v).length = k := leBytes_length _ _

/-- The first sixteen bytes stored are c0, the next sixteen c1 (R182). -/
theorem leValue_pairBytes (c : Int × Int) :
    (leValue 16 (fun i => (pairBytes c).getD i 0) : Int) = c.1 % 2 ^ 128 ∧
      (leValue 16 (fun i => (pairBytes c).getD (16 + i) 0) : Int) = c.2 % 2 ^ 128 := by
  have hlow : leValue 16 (fun i => (pairBytes c).getD i 0) = leNat (sleBytes 16 c.1) := by
    rw [← leValue_getD (sleBytes_length 16 c.1), leValue_inj]
    intro i hi
    exact List.getD_append _ _ _ _ (by rwa [sleBytes_length])
  have hhigh : leValue 16 (fun i => (pairBytes c).getD (16 + i) 0) = leNat (sleBytes 16 c.2) := by
    rw [← leValue_getD (sleBytes_length 16 c.2), leValue_inj]
    intro i hi
    rw [pairBytes, List.getD_append_right _ _ _ _ (by simp [sleBytes_length]), sleBytes_length,
      Nat.add_sub_cancel_left]
  rw [hlow, hhigh, leNat_sleBytes, leNat_sleBytes]
  norm_num

/-- What a command stored the next one loads (R52, R53). -/
theorem loadBytes_storeBytes (s : State) (off : Off12) (k : Nat) {len : Nat} {bs : List Byte}
    (h : bs.length = len) : loadBytes (storeBytes s off k (some bs)) off len = some bs := by
  subst h
  exact readBytes_writeBytes_same s.buf off.toNat bs

/-! ### What a command delivers -/

theorem setS_none_losesS (s : State) (sd : SReg) : LosesS s (setS s sd none) sd where
  rest := by simp [setS]
  lost := by simp

section
variable {s : State} {sa sb : SReg} {a b : Scalar} (ha : getS s sa = some a)
include ha

theorem exec_scEncode {off : Off12} (ho : off.toNat ≤ 4064) :
    exec (.scEncode sa off) s = .next (storeBytes s off 32 (some (leBytes 32 a.val))) := by
  simp [exec, execScEncode, inRange_inside (Nat.add_le_add_right ho 32), ha]

theorem exec_scReduceBasisVartime {off : Off12} (ho : off.toNat ≤ 4064) :
    exec (.scReduceBasisVartime sa off) s =
      .next (storeBytes s off 32 (some (pairBytes (reduceBasis a.val)))) := by
  simp [exec, execScReduceBasisVartime, inRange_inside (Nat.add_le_add_right ho 32), ha]

theorem exec_scNeg (sd : SReg) : exec (.scNeg sd sa) s = .next (setS s sd (some (-a))) := by
  simp [exec, execScNeg, ha]

theorem exec_scIszero (wd : WReg) :
    exec (.scIszero wd sa) s = .next (setW s wd (some (boolWord (decide (a = 0))))) := by
  simp [exec, execScIszero, ha]

theorem exec_scNormalize (sd : SReg) : exec (.scNormalize sd sa) s = .next (setS s sd (some a)) := by
  simp [exec, execScNormalize, ha]

theorem exec_scCondcopy (sd : SReg) {wb : WReg} {ctl : Word} (hc : getW s wb = some ctl) :
    exec (.scCondcopy sd sa wb) s = if ctl = 1 then .next (setS s sd (some a))
      else if ctl = 0 then .next s else .next (setS s sd none) := by
  simp [exec, execScCondcopy, ha, hc]

variable (hb : getS s sb = some b)
include hb

theorem exec_scAdd (sd : SReg) : exec (.scAdd sd sa sb) s = .next (setS s sd (some (a + b))) := by
  simp [exec, execScAdd, ha, hb]

theorem exec_scSub (sd : SReg) : exec (.scSub sd sa sb) s = .next (setS s sd (some (a - b))) := by
  simp [exec, execScSub, ha, hb]

theorem exec_scMul (sd : SReg) : exec (.scMul sd sa sb) s = .next (setS s sd (some (a * b))) := by
  simp [exec, execScMul, ha, hb]

theorem exec_scEq (wd : WReg) :
    exec (.scEq wd sa sb) s = .next (setW s wd (some (boolWord (decide (a = b))))) := by
  simp [exec, execScEq, ha, hb]

end

section
variable {s : State} {wlen : WReg} {len : Word} (hlen : getW s wlen = some len)
include hlen

/-- A determinate length register gives the range check of its unsigned content (R171, R342). -/
theorem inLengthRange_of_getW (off : Off12) (t : State) :
    inLengthRange off (byteLength s wlen) s t = inRange off len.toNat s t := by
  simp [byteLength, inLengthRange, hlen]

theorem loadLength_of_getW (off : Off12) :
    loadLength s off (byteLength s wlen) = loadBytes s off len.toNat := by
  simp [byteLength, loadLength, hlen]

variable {off : Off12} {bs : List Byte}

theorem scDecodeStrict_raises_bufRange (wd : WReg) (sd : SReg) (ho : 4096 < off.toNat + len.toNat) :
    ∃ s', exec (.scDecodeStrict wd sd wlen off) s = .next s' ∧ RaiseResult s s' 2 :=
  exec_raises_bufRange (congrArg _ (inLengthRange_of_getW hlen off _)) ho

theorem scDecodeReduce_raises_bufRange (sd : SReg) (ho : 4096 < off.toNat + len.toNat) :
    ∃ s', exec (.scDecodeReduce sd wlen off) s = .next s' ∧ RaiseResult s s' 2 :=
  exec_raises_bufRange (congrArg _ (inLengthRange_of_getW hlen off _)) ho

variable (ho : off.toNat + len.toNat ≤ 4096) (hl : loadBytes s off len.toNat = some bs)
include ho hl

theorem exec_scDecodeStrict_accept (wd : WReg) (sd : SReg) {a : Scalar} (h : leNat bs = a.val) :
    exec (.scDecodeStrict wd sd wlen off) s = .next { s with
      regsW := s.regsW.set wd ⟨1, true⟩, regsS := s.regsS.set sd ⟨a, true⟩ } := by
  simp [exec, execScDecodeStrict, inLengthRange_of_getW hlen, loadLength_of_getW hlen,
    inRange_inside ho, hl, h, boolWord, setW, setS]

theorem exec_scDecodeStrict_reject (wd : WReg) (sd : SReg) (h : n ≤ leNat bs) :
    exec (.scDecodeStrict wd sd wlen off) s = .next (setS (setW s wd (some 0)) sd none) := by
  simp [exec, execScDecodeStrict, inLengthRange_of_getW hlen, loadLength_of_getW hlen,
    inRange_inside ho, hl, h.not_gt, boolWord]

theorem exec_scDecodeReduce (sd : SReg) : exec (.scDecodeReduce sd wlen off) s =
    .next (setS s sd (some (Fin.ofNat n (leNat bs)))) := by
  simp [exec, execScDecodeReduce, inLengthRange_of_getW hlen, loadLength_of_getW hlen,
    inRange_inside ho, hl]

end

/-! ### The commands -/

/-- Settles O44: the bytes held are the bytes loaded, and the integer decides. -/
theorem scDecodeStrictAcceptsIntegersBelowTheOrder :
    Obligations.ScDecodeStrictAcceptsIntegersBelowTheOrder := by
  unfold Obligations.ScDecodeStrictAcceptsIntegersBelowTheOrder
  intro s wd sd wlen off len b hlen
  refine ⟨fun ho hb => ?_, scDecodeStrict_raises_bufRange hlen wd sd⟩
  have hl := loadBytes_of_holdsBytes hb
  have hvalue := leNat_map_range len.toNat b
  exact ⟨fun _ => exec_scDecodeStrict_accept hlen ho hl wd sd hvalue, fun h =>
    ⟨_, exec_scDecodeStrict_reject hlen ho hl wd sd (hvalue ▸ h), setS_none_losesS _ sd⟩⟩

/-- Settles O45: the residue of the integer of the bytes loaded. -/
theorem scDecodeReduceReducesModuloTheOrder : Obligations.ScDecodeReduceReducesModuloTheOrder := by
  unfold Obligations.ScDecodeReduceReducesModuloTheOrder
  intro s sd wlen off len b hlen
  refine ⟨fun ho hb => ?_, scDecodeReduce_raises_bufRange hlen sd⟩
  rw [← leNat_map_range]
  exact ⟨_, exec_scDecodeReduce hlen ho (loadBytes_of_holdsBytes hb) sd, rfl⟩

/-- Settles O46: the representative is below 2^252, so byte 31 is below 16. -/
theorem scEncodeStoresTheRepresentative : Obligations.ScEncodeStoresTheRepresentative := by
  unfold Obligations.ScEncodeStoresTheRepresentative
  intro s sa off a _ ha
  have hvalue := (leValue_getD (leBytes_length 32 a.val)).trans (leNat_leBytes_scalar a)
  refine ⟨fun ho => ⟨_, _, exec_scEncode ha ho, storeBytes_result s off (leBytes_length 32 a.val),
    hvalue, ?_⟩, fun ho => exec_raises_bufRange rfl (Nat.add_lt_add_right ho 32)⟩
  have htop := byte_mul_le_leValue (fun i => (leBytes 32 a.val).getD i 0) (show 31 < 32 by decide)
  have hlt := a.isLt.trans order_lt
  rw [hvalue] at htop
  omega

/-- Settles O47: the model computes in Fin n, whose sum, difference, negation and product are those of
Z/n. -/
theorem scArithmeticIsModuloTheOrder : Obligations.ScArithmeticIsModuloTheOrder := by
  unfold Obligations.ScArithmeticIsModuloTheOrder
  intro s sd sa sb a b ha hb
  refine ⟨_, _, _, _, exec_scAdd ha hb sd, exec_scSub ha hb sd, exec_scNeg ha sd,
    exec_scMul ha hb sd, Fin.val_add a b, ?_, ?_, Fin.val_mul a b⟩
  · rw [← Fin.val_add, sub_add_cancel]
  · rw [← Fin.val_add, neg_add_cancel, Fin.val_zero]

/-- Settles O50: the bytes stored are the bytes loaded, and their integer is below n. -/
theorem scalarEncodingRoundTrips : Obligations.ScalarEncodingRoundTrips := by
  unfold Obligations.ScalarEncodingRoundTrips
  intro s wd wlen sa sd off a ha hlen ho
  refine ⟨_, exec_scEncode ha ho, ?_⟩
  have hl := loadBytes_storeBytes s off 32 ((leBytes_length 32 a.val).trans (show 32 = (32 : Word).toNat by decide))
  exact exec_scDecodeStrict_accept ((getW_storeBytes ..).trans hlen)
    (Nat.add_le_add_right ho 32) hl wd sd (leNat_leBytes_scalar a)

/-- Settles O51: the pair is admissible whatever the free choice is, and its bytes are read back half by
half. -/
theorem scReduceBasisStoresAnAdmissiblePair :
    Obligations.ScReduceBasisStoresAnAdmissiblePair := by
  unfold Obligations.ScReduceBasisStoresAnAdmissiblePair
  intro s sa off b _ hb
  refine ⟨fun ho => ?_, fun ho => exec_raises_bufRange rfl (Nat.add_lt_add_right ho 32)⟩
  obtain ⟨hlattice, hne, hnorm⟩ := admissiblePair_iff.1 (reduceBasis_admissible b)
  obtain ⟨hlow, hhigh⟩ := leValue_pairBytes (reduceBasis b.val)
  exact ⟨_, _, _, _, exec_scReduceBasisVartime hb ho,
    storeBytes_result s off (pairBytes_length _), hlattice, hne, hnorm, hlow, hhigh⟩

/-- Settles O48: residues are equal exactly where their representatives are. -/
theorem scPredicatesCompareResidues : Obligations.ScPredicatesCompareResidues := by
  unfold Obligations.ScPredicatesCompareResidues
  intro s wd sa sb a b ha hb
  rw [exec_scIszero ha wd, exec_scEq ha hb wd, boolWord_decide, boolWord_decide]
  simp only [Fin.ext_iff]
  exact ⟨rfl, rfl⟩

/-- Settles O49: the control word selects the case. -/
theorem scCondcopyFollowsTheControlWord : Obligations.ScCondcopyFollowsTheControlWord := by
  unfold Obligations.ScCondcopyFollowsTheControlWord
  intro s sd sa wb a ctl ha hc
  rw [exec_scCondcopy ha sd hc]
  refine ⟨fun h1 => if_pos h1, fun h0 => ?_, fun h0 h1 => ?_, exec_scNormalize ha sd⟩
  · rw [h0]
    rfl
  · rw [if_neg h1, if_neg h0]
    exact ⟨_, rfl, setS_none_losesS s sd⟩

end Sys2Proof.Machine
end

section
/-! SUPPORT. The addition law on points of the curve: its cases with the slopes as solutions of
their equations, the group laws, and multiples as repeated addition (spec/44_point.md R201 to R207,
R212). -/

namespace Sys2Proof.Machine

/-! ### Field facts -/

theorem gfMul_ne_zero {a b : Gf} (ha : a ≠ gfZero) (hb : b ≠ gfZero) : gfMul a b ≠ gfZero := by
  intro h
  have hprod : toK a * toK b = 0 := by rw [← toK_mul, h, toK_zero]
  exact (K_mul_eq_zero.1 hprod).elim (mt toK_eq_zero.1 ha) (mt toK_eq_zero.1 hb)

theorem gfSub_ne_zero {a b : Gf} (h : a ≠ b) : gfSub a b ≠ gfZero := by
  rwa [ne_eq, ← toK_eq_zero, toK_sub, sub_eq_zero, toK_inj]

/-- A quotient solves the equation that its division stands for (R203). -/
theorem gfMul_gfDiv (u : Gf) {v : Gf} (hv : v ≠ gfZero) : gfMul (gfDiv u v) v = u := by
  have hinv := toK_mul_inv (mt toK_eq_zero.1 hv)
  rw [← toK_inj, toK_mul, gfDiv, toK_mul]
  linear_combination toK u * hinv

theorem gfSqr_eq_gfSqr_iff {a b : Gf} : gfSqr a = gfSqr b ↔ a = b ∨ a = gfNeg b := by
  rw [← toK_inj, toK_sqr, toK_sqr, ← sub_eq_zero, sq_sub_sq, K_mul_eq_zero, or_comm, sub_eq_zero,
    add_eq_zero_iff_eq_neg, ← toK_neg, toK_inj, toK_inj]

/-! ### The cases of the addition law (R203) -/

@[simp] theorem neutral_pointAdd (a : Point) : pointAdd .neutral a = a := rfl

@[simp] theorem pointAdd_neutral (a : Point) : pointAdd a .neutral = a := by cases a <;> rfl

theorem pointAdd_of_x_ne {x1 x2 : Gf} (h : x1 ≠ x2) (y1 y2 : Gf) :
    pointAdd (.affine x1 y1) (.affine x2 y2) =
      chordPoint (gfDiv (gfSub y2 y1) (gfSub x2 x1)) x1 y1 x2 := if_pos h

theorem pointAdd_self (x y : Gf) :
    pointAdd (.affine x y) (.affine x y) = chordPoint (tangentSlope x y) x y x := by simp [pointAdd]

theorem pointAdd_of_y_ne (x : Gf) {y1 y2 : Gf} (h : y1 ≠ y2) :
    pointAdd (.affine x y1) (.affine x y2) = .neutral := by simp [pointAdd, h]

theorem gfMul_chordSlope {x1 x2 : Gf} (h : x1 ≠ x2) (y1 y2 : Gf) :
    gfMul (gfDiv (gfSub y2 y1) (gfSub x2 x1)) (gfSub x2 x1) = gfSub y2 y1 :=
  gfMul_gfDiv _ (gfSub_ne_zero h.symm)

/-- 2 * y is not 0 as no point has order 2 (R201), and A = -3 (R7). -/
theorem gfMul_tangentSlope {x y : Gf} (h : onCurve (.affine x y) = true) :
    gfMul (tangentSlope x y) (gfMul (gfOf [2]) y) =
      gfSub (gfMul (gfOf [3]) (gfSqr x)) (gfOf [3]) := by
  have htwo : gfOf [2] ≠ gfZero := by decide +kernel
  rw [tangentSlope, gfMul_gfDiv _ (gfMul_ne_zero htwo (onCurve_ne_zero h)), ← toK_inj, toK_add,
    toK_sub, toK_curveA, toK_constant, Nat.cast_ofNat, sub_eq_add_neg]

theorem onCurve_affine_iff {x y : Gf} :
    onCurve (.affine x y) = true ↔ gfSqr y = curveRhs x := by
  simp only [onCurve, decide_eq_true_eq]

/-- Two points with one abscissa are equal or opposite. -/
theorem eq_or_eq_gfNeg_of_onCurve {x y1 y2 : Gf} (h1 : onCurve (.affine x y1) = true)
    (h2 : onCurve (.affine x y2) = true) : y2 = y1 ∨ y2 = gfNeg y1 := by
  rw [onCurve_affine_iff] at h1 h2
  exact gfSqr_eq_gfSqr_iff.1 (h2.trans h1.symm)

/-! ### The group laws (R201, R203) -/

section
variable {a b c : Point} (ha : onCurve a = true)
include ha

theorem pointAdd_pointNeg : pointAdd a (pointNeg a) = .neutral := by
  obtain ⟨E, _, f, hzero, hadd, hneg, hinj⟩ := exists_curve_group
  obtain ⟨hn, hfn⟩ := hneg a ha
  obtain ⟨hs, hfs⟩ := hadd a _ ha hn
  exact hinj _ _ hs rfl (by rw [hfs, hfn, hzero, add_neg_cancel])

variable (hb : onCurve b = true)
include hb

theorem pointAdd_comm : pointAdd a b = pointAdd b a := by
  obtain ⟨E, _, f, -, hadd, -, hinj⟩ := exists_curve_group
  obtain ⟨hab, hfab⟩ := hadd a b ha hb
  obtain ⟨hba, hfba⟩ := hadd b a hb ha
  exact hinj _ _ hab hba (by rw [hfab, hfba, add_comm])

theorem pointAdd_assoc (hc : onCurve c = true) :
    pointAdd (pointAdd a b) c = pointAdd a (pointAdd b c) := by
  obtain ⟨E, _, f, -, hadd, -, hinj⟩ := exists_curve_group
  obtain ⟨hab, hfab⟩ := hadd a b ha hb
  obtain ⟨hbc, hfbc⟩ := hadd b c hb hc
  obtain ⟨hl, hfl⟩ := hadd _ c hab hc
  obtain ⟨hr, hfr⟩ := hadd a _ ha hbc
  exact hinj _ _ hl hr (by rw [hfl, hfab, hfr, hfbc, add_assoc])

end

/-! ### Multiples (R207, R212) -/

section
variable {a : Point} (ha : onCurve a = true)
include ha

theorem onCurve_pointSum (m : Nat) : onCurve (pointSum a m) = true := by
  induction m with
  | zero => rfl
  | succ m ih => exact onCurve_pointAdd ih ha

theorem pointAdd_pointSum (m k : Nat) :
    pointAdd (pointSum a m) (pointSum a k) = pointSum a (m + k) := by
  induction k with
  | zero => exact pointAdd_neutral _
  | succ k ih =>
    calc pointAdd (pointSum a m) (pointAdd (pointSum a k) a)
        = pointAdd (pointAdd (pointSum a m) (pointSum a k)) a :=
          (pointAdd_assoc (onCurve_pointSum ha m) (onCurve_pointSum ha k) ha).symm
      _ = pointSum a (m + (k + 1)) := by rw [ih]; rfl

/-- k doublings add 2^k terms (R207). -/
theorem pointDouble_eq_pointSum (k : Nat) : pointDouble a k = pointSum a (2 ^ k) := by
  induction k with
  | zero => rfl
  | succ k ih => rw [pointDouble, ih, pointAdd_pointSum ha, pow_succ, mul_two]

/-- Double-and-add adds m terms (R212): half of them doubled, and one more where m is odd. -/
theorem pointMulBits_eq_pointSum {fuel m : Nat} (h : m < 2 ^ fuel) :
    pointMulBits a fuel m = pointSum a m := by
  induction fuel generalizing m with
  | zero =>
    obtain rfl : m = 0 := by simpa using h
    rfl
  | succ fuel ih =>
    have hhalf : pointAdd (pointMulBits a fuel (m / 2)) (pointMulBits a fuel (m / 2)) =
        pointSum a (m / 2 + m / 2) := by
      rw [ih (by rw [pow_succ] at h; omega), pointAdd_pointSum ha]
    simp only [pointMulBits, hhalf]
    split
    next h0 => rw [h0]; rfl
    next =>
      split
      next hodd =>
        conv_rhs => rw [show m = m / 2 + m / 2 + 1 by omega]
        rfl
      next heven => rw [show m / 2 + m / 2 = m by omega]

theorem pointMul_eq_pointSum (k : Scalar) : pointMul k a = pointSum a k.val :=
  pointMulBits_eq_pointSum ha (k.isLt.trans order_lt)

theorem pointMulMulGenAdd_eq_pointSum (k l : Scalar) : pointMulMulGenAdd a k l =
    pointAdd (pointSum a k.val) (pointSum generator l.val) := by
  rw [pointMulMulGenAdd, pointMulGen, pointMul_eq_pointSum ha,
    pointMul_eq_pointSum onCurve_generator]

end

end Sys2Proof.Machine
end

section
/-! SUPPORT. The encodings of points: the sign bit in byte 31, and which strings decode
(spec/44_point.md R218 to R221). -/

namespace Sys2Proof.Machine

/-! ### The encoder -/

theorem neutralBytes_getD (c : Byte) {i : Nat} (h : i < 32) :
    (neutralBytes c).getD i 0 = if i = 31 then c else 0xFF := by
  interval_cases i <;> rfl

theorem orByte31_getD {bs : List Byte} (hlen : bs.length = 32) (bit : Byte) {i : Nat} (h : i < 32) :
    (orByte31 bs bit).getD i 0 = if i = 31 then bs.getD 31 0 ||| bit else bs.getD i 0 := by
  have htake : (bs.take 31).length = 31 := by simp [hlen]
  rw [orByte31]
  split
  next h31 => rw [h31, List.getD_append_right _ _ _ _ htake.le, htake]; rfl
  next h31 =>
    have hi : i < 31 := by omega
    rw [List.getD_append _ _ _ _ (hi.trans_eq htake.symm)]
    simp [hi]

theorem encodePoint_affine_getD (x y : Gf) {i : Nat} (h : i < 32) :
    (encodePoint (.affine x y)).getD i 0 =
      if i = 31 then (encodeField x).getD 31 0 ||| (if gfIsNeg y then 0x40 else 0)
      else (encodeField x).getD i 0 :=
  orByte31_getD (encodeField_length x) _ h

theorem encodePoint_affine_byte31 (x y : Gf) : (encodePoint (.affine x y)).getD 31 0 =
    (encodeField x).getD 31 0 ||| if gfIsNeg y then 0x40 else 0 :=
  encodePoint_affine_getD x y (by decide)

/-- Coefficient 18 is below 2^14, so bits 7:6 of byte 31 are clear (R152). -/
theorem encodeField_byte31_lt (x : Gf) : ((encodeField x).getD 31 0).toNat < 64 := by
  have hle := byte_mul_le_leValue (fun i => (encodeField x).getD (30 + i) 0) (show 1 < 2 by decide)
  rw [leValue_encodeField_last] at hle
  have hlt := coeffAt_gfCoeffs_lt x 18
  simp only [Nat.reduceAdd] at hle
  omega

/-- Bit 6 set or left clear above six bits (R218). -/
theorem or_sign_bit {c : Byte} (hc : c.toNat < 64) (sign : Bool) :
    (c ||| if sign then 0x40 else 0) &&& 0x3F = c ∧
      (c ||| if sign then 0x40 else 0).toNat < 128 ∧
      (c ||| if sign then 0x40 else 0).getLsbD 6 = sign := by
  revert c sign
  decide +kernel

/-- The encoding of x stays one when a sign is set in bit 6 of byte 31 (R154, R218). -/
theorem isFieldEncoding_of_sign {x : Gf} {b : Nat → Byte} (sign : Bool)
    (h : ∀ i < 32, b i = if i = 31 then (encodeField x).getD 31 0 ||| (if sign then 0x40 else 0)
      else (encodeField x).getD i 0) : isFieldEncoding x b := by
  intro i hi
  rw [h i hi]
  split
  next h31 =>
    rw [h31]
    exact (or_sign_bit (encodeField_byte31_lt x) sign).1
  next => rfl

theorem isFieldEncoding_encodePoint (x y : Gf) :
    isFieldEncoding x fun i => (encodePoint (.affine x y)).getD i 0 :=
  isFieldEncoding_of_sign (gfIsNeg y) fun _ hi => encodePoint_affine_getD x y hi

theorem isFieldEncoding_encodeField (x : Gf) :
    isFieldEncoding x fun i => (encodeField x).getD i 0 :=
  isFieldEncoding_of_sign false fun i _ => by
    split
    next h31 => rw [h31]; exact (BitVec.or_zero).symm
    next => rfl

/-! ### The decoder -/

theorem gfSqrtOk_of_onCurve {x y : Gf} (h : onCurve (.affine x y) = true) :
    gfSqrtOk (curveRhs x) = true :=
  gfSqrtOk_iff.2 ⟨y, onCurve_affine_iff.1 h⟩

theorem onCurve_sqrtRoot {x : Gf} (h : gfSqrtOk (curveRhs x) = true) :
    onCurve (.affine x (gfSqrtRoot (curveRhs x))) = true := h

theorem makeY_of_sqrtOk {x : Gf} (h : gfSqrtOk (curveRhs x) = true) (sign : Bool) :
    makeY x sign = some (if gfIsNeg (gfSqrtRoot (curveRhs x)) = sign then gfSqrtRoot (curveRhs x)
      else gfNeg (gfSqrtRoot (curveRhs x))) := by
  simp only [makeY, h, if_true]

/-- Opposite points have opposite signs, as y is not 0 (R201). -/
theorem gfIsNeg_gfNeg_of_onCurve {x y : Gf} (h : onCurve (.affine x y) = true) :
    gfIsNeg (gfNeg y) = !gfIsNeg y := gfIsNeg_gfNeg (onCurve_ne_zero h)

/-- R219: of the points with abscissa x make_y finds the one with the sign. -/
theorem makeY_eq_some_iff {x y : Gf} {sign : Bool} :
    makeY x sign = some y ↔ onCurve (.affine x y) = true ∧ gfIsNeg y = sign := by
  constructor
  · intro h
    have hy := onCurve_makeY h
    have hneg := gfIsNeg_gfNeg_of_onCurve (onCurve_sqrtRoot (gfSqrtOk_of_onCurve hy))
    rw [makeY_of_sqrtOk (gfSqrtOk_of_onCurve hy)] at h
    refine ⟨hy, ?_⟩
    obtain rfl := Option.some.inj h
    split
    next hs => exact hs
    next hs => rw [hneg]; exact Bool.not_eq.2 hs
  · rintro ⟨hy, rfl⟩
    have hr := onCurve_sqrtRoot (gfSqrtOk_of_onCurve hy)
    rw [makeY_of_sqrtOk (gfSqrtOk_of_onCurve hy)]
    rcases eq_or_eq_gfNeg_of_onCurve hr hy with h | h
    · rw [h, if_pos rfl]
    · rw [h, gfIsNeg_gfNeg_of_onCurve hr, if_neg (by simp)]

/-- R220: what decodes is what encodes an affine point of the curve. -/
theorem decodePoint_eq_some_iff (b : Nat → Byte) {p : Point} :
    decodePoint ((List.range 32).map b) = some p ↔ ∃ x y, (onCurve (.affine x y) = true ∧
      isFieldEncoding x b ∧ (b 31).getLsbD 7 = false ∧ gfIsNeg y = (b 31).getLsbD 6) ∧
      p = .affine x y := by
  have h31 : ((List.range 32).map b).getD 31 0 = b 31 := rfl
  simp only [decodePoint, h31]
  split
  next h7 => simp [h7]
  next h7 =>
    simp only [Option.bind_eq_bind, Option.pure_def, Option.bind_eq_some_iff,
      decodeField_eq_some_iff_isFieldEncoding, makeY_eq_some_iff, Option.some.injEq]
    constructor
    · rintro ⟨x, hx, y, ⟨hy, hsign⟩, rfl⟩
      exact ⟨x, y, ⟨hy, hx, eq_false_of_ne_true h7, hsign⟩, rfl⟩
    · rintro ⟨x, y, ⟨hy, hx, -, hsign⟩, rfl⟩
      exact ⟨x, hx, y, ⟨hy, hsign⟩, rfl⟩

end Sys2Proof.Machine
end

section
/-! SUPPORT. The point unit: what each command delivers when its sources are determinate, and the
statements about them (spec/44_point.md R201 to R222). -/

namespace Sys2Proof.Machine

/-! ### What a command delivers -/

section
variable {s : State} {pa : PReg} {a : Point} (ha : getP s pa = some a)
include ha

theorem exec_pNeg (pd : PReg) : exec (.pNeg pd pa) s = .next (setP s pd (some (pointNeg a))) := by
  simp [exec, execPNeg, ha]

theorem exec_pIsneutral (wd : WReg) :
    exec (.pIsneutral wd pa) s = .next (setW s wd (some (if a = .neutral then 1 else 0))) := by
  simp [exec, execPIsneutral, ha, boolWord_decide]

theorem exec_pAdd {pb : PReg} {b : Point} (hb : getP s pb = some b) (pd : PReg) :
    exec (.pAdd pd pa pb) s = .next (setP s pd (some (pointAdd a b))) := by
  simp [exec, execPAdd, ha, hb]

theorem exec_pMul2k (pd : PReg) (k : Imm16) :
    exec (.pMul2k pd pa k) s = .next (setP s pd (some (pointDouble a k.toNat))) := by
  simp [exec, execPMul2k, ha]

section
variable {sb sc : SReg} {b c : Scalar} (hb : getS s sb = some b)
include hb

theorem exec_pMul (pd : PReg) :
    exec (.pMul pd pa sb) s = .next (setP s pd (some (pointMul b a))) := by
  simp [exec, execPMul, ha, hb]

variable (hc : getS s sc = some c)
include hc

theorem exec_pMulMulgenAdd (pd : PReg) : exec (.pMulMulgenAdd pd pa sb sc) s =
    .next (setP s pd (some (pointMulMulGenAdd a b c))) := by
  simp [exec, execPMulMulgenAdd, ha, hb, hc]

theorem exec_pVerifyVartime (wd : WReg) {pe : PReg} {e : Point} (he : getP s pe = some e) :
    exec (.pVerifyVartime wd pa sb sc pe) s =
      .next (setW s wd (some (if pointMulMulGenAdd a b c = e then 1 else 0))) := by
  simp [exec, execPVerifyVartime, ha, hb, hc, he, boolWord_decide]

end

variable {off : Off12} (ho : off.toNat ≤ 4064)
include ho

theorem exec_pEncode :
    exec (.pEncode pa off) s = .next (storeBytes s off 32 (some (encodePoint a))) := by
  simp [exec, execPEncode, inRange_inside (Nat.add_le_add_right ho 32), ha]

theorem exec_pEncodeX :
    exec (.pEncodeX pa off) s = .next (storeBytes s off 32 (some (encodePointX a))) := by
  simp [exec, execPEncodeX, inRange_inside (Nat.add_le_add_right ho 32), ha]

end

section
variable {s : State}

theorem exec_pMulgen (pd : PReg) {sb : SReg} {b : Scalar} (hb : getS s sb = some b) :
    exec (.pMulgen pd sb) s = .next (setP s pd (some (pointMulGen b))) := by
  simp [exec, execPMulgen, hb]

theorem exec_pDecode (wd : WReg) (pd : PReg) {off : Off12} {b : Nat → Byte}
    (ho : off.toNat ≤ 4064) (hb : holdsBytes s off.toNat 32 b) :
    exec (.pDecode wd pd off) s = .next (setP
      (setW s wd (some (boolWord (decodePoint ((List.range 32).map b)).isSome))) pd
      (some ((decodePoint ((List.range 32).map b)).getD .neutral))) := by
  simp [exec, execPDecode, inRange_inside (Nat.add_le_add_right ho 32), loadBytes_of_holdsBytes hb]

end

/-! ### The commands -/

/-- Settles O52: the slopes solve their equations, as their denominators are not 0. -/
theorem pAddFollowsTheAdditionLaw : Obligations.PAddFollowsTheAdditionLaw := by
  unfold Obligations.PAddFollowsTheAdditionLaw
  intro s pd pa pb a b ha hb hac hbc
  refine ⟨pointAdd a b, exec_pAdd ha hb pd, onCurve_pointAdd hac hbc, ?_, ?_, ?_⟩
  · rintro rfl
    exact neutral_pointAdd b
  · rintro rfl
    exact pointAdd_neutral a
  · rintro x1 y1 x2 y2 rfl rfl
    refine ⟨fun hx => ?_, ?_, ?_⟩
    · exact ⟨_, _, gfMul_chordSlope hx y1 y2, rfl, pointAdd_of_x_ne hx y1 y2⟩
    · rintro rfl rfl
      exact ⟨_, _, gfMul_tangentSlope hac, rfl, pointAdd_self x1 y1⟩
    · rintro rfl hy
      exact ⟨(eq_or_eq_gfNeg_of_onCurve hac hbc).resolve_left (Ne.symm hy), pointAdd_of_y_ne x1 hy⟩

/-- Settles O53: the points of the curve embed into a group. -/
theorem curvePointsFormAnAbelianGroup : Obligations.CurvePointsFormAnAbelianGroup := by
  unfold Obligations.CurvePointsFormAnAbelianGroup
  intro a b c ha hb hc
  exact ⟨onCurve_pointAdd ha hb, onCurve_pointNeg ha, pointAdd_comm ha hb,
    pointAdd_assoc ha hb hc, pointAdd_neutral a, pointAdd_pointNeg ha⟩

/-- Settles O54: y is negated coefficient by coefficient. -/
theorem pNegAndIsneutral : Obligations.PNegAndIsneutral := by
  unfold Obligations.PNegAndIsneutral
  intro s pd pa wd
  refine ⟨fun ha => ⟨exec_pNeg ha pd, exec_pIsneutral ha wd⟩, fun x y ha => ⟨?_, ?_⟩⟩
  · exact ⟨gfNeg y, gfNeg_coeff y, exec_pNeg ha pd⟩
  · exact exec_pIsneutral ha wd

/-- Settles O55, by induction on the number of doublings. -/
theorem pMul2kMultipliesByAPowerOfTwo : Obligations.PMul2kMultipliesByAPowerOfTwo := by
  unfold Obligations.PMul2kMultipliesByAPowerOfTwo
  intro s pd pa k a ha hac
  rw [exec_pMul2k ha, pointDouble_eq_pointSum hac]
  rfl

/-- Settles O56: double-and-add is repeated addition, by induction on the bits of the scalar. -/
theorem scalarMultiplicationIsRepeatedAddition :
    Obligations.ScalarMultiplicationIsRepeatedAddition := by
  unfold Obligations.ScalarMultiplicationIsRepeatedAddition
  intro s pd pa sb sc a b c ha hb hc hac
  rw [exec_pMul ha hb, exec_pMulgen pd hb, exec_pMulMulgenAdd ha hb hc, pointMulGen,
    pointMul_eq_pointSum hac, pointMul_eq_pointSum onCurve_generator,
    pointMulMulGenAdd_eq_pointSum hac]
  exact ⟨rfl, rfl, rfl⟩

/-- Settles O57: the linear combination that the command tests is the sum of the two multiples. -/
theorem pVerifyTestsTheLinearCombination : Obligations.PVerifyTestsTheLinearCombination := by
  unfold Obligations.PVerifyTestsTheLinearCombination
  intro s wd pa pe sb sc a e b c ha hb hc he hac
  rw [exec_pVerifyVartime ha hb hc wd he, pointMulMulGenAdd_eq_pointSum hac]
  rfl

/-- Settles O58: the sign takes a bit that the encoding of x leaves clear. -/
theorem pEncodeStoresXAndTheSignOfY : Obligations.PEncodeStoresXAndTheSignOfY := by
  unfold Obligations.PEncodeStoresXAndTheSignOfY
  intro s pa off a _ ha
  refine ⟨fun ho => ⟨_, _, _, _, exec_pEncode ha ho, storeBytes_result s off (encodePoint_length a),
      exec_pEncodeX ha ho, storeBytes_result s off (encodePointX_length a), ?_, ?_⟩,
    fun ho => ⟨exec_raises_bufRange rfl (Nat.add_lt_add_right ho 32),
      exec_raises_bufRange rfl (Nat.add_lt_add_right ho 32)⟩⟩
  · rintro rfl i hi
    exact ⟨neutralBytes_getD _ hi, neutralBytes_getD _ hi⟩
  · rintro x y rfl
    have hlow := encodeField_byte31_lt x
    obtain ⟨-, hlt, hsign⟩ := or_sign_bit hlow (gfIsNeg y)
    rw [← encodePoint_affine_byte31] at hlt hsign
    exact ⟨isFieldEncoding_encodePoint x y, isFieldEncoding_encodeField x, hlow, hlt, hsign⟩

/-- Settles O59: the decoder finds the one point that the string encodes, or there is none. -/
theorem pDecodeInvertsPEncode : Obligations.PDecodeInvertsPEncode := by
  unfold Obligations.PDecodeInvertsPEncode
  intro s wd pd off b
  refine ⟨fun ho hb => ?_, fun ho => exec_raises_bufRange rfl (Nat.add_lt_add_right ho 32)⟩
  rw [exec_pDecode wd pd ho hb]
  refine ⟨fun x y hy hx h7 hsign => ?_, fun hno => ?_⟩
  · rw [(decodePoint_eq_some_iff b).2 ⟨x, y, ⟨hy, hx, h7, hsign⟩, rfl⟩]
    rfl
  · have hnone : decodePoint ((List.range 32).map b) = none :=
      Option.eq_none_iff_forall_ne_some.2 fun p hp =>
        let ⟨x, y, h, _⟩ := (decodePoint_eq_some_iff b).1 hp
        hno ⟨x, y, h⟩
    rw [hnone]
    rfl

end Sys2Proof.Machine
end

section
/-! SUPPORT. Data movement and constants: the word of four bytes and the bytes of a word, the stored form
of the constants, and what each command delivers (spec/45_system.md R240 to R255). -/

namespace Sys2Proof.Machine

/-! ### Words and bytes -/

theorem toNat_append_byte {w : Nat} (x : BitVec w) (b : Byte) :
    (x ++ b).toNat = b.toNat + 256 * x.toNat := by
  rw [BitVec.toNat_append, ← Nat.shiftLeft_add_eq_or_of_lt b.isLt, Nat.shiftLeft_eq]
  omega

/-- The integer of four bytes is that of their concatenation, the first byte lowest (R12). -/
theorem leNat_four_bytes (b0 b1 b2 b3 : Byte) :
    leNat [b0, b1, b2, b3] = (b3 ++ b2 ++ b1 ++ b0).toNat := by
  simp only [leNat, toNat_append_byte, Nat.mul_zero, Nat.add_zero]

theorem loadBytes_four {s : State} {off : Off12} {b0 b1 b2 b3 : Byte}
    (h0 : readByte s.buf off.toNat = some b0) (h1 : readByte s.buf (off.toNat + 1) = some b1)
    (h2 : readByte s.buf (off.toNat + 2) = some b2)
    (h3 : readByte s.buf (off.toNat + 3) = some b3) :
    loadBytes s off 4 = some [b0, b1, b2, b3] := by
  simp [loadBytes, readBytes, h0, h1, h2, h3]

/-- Byte i of LEbytes_k(v) is digit i of v to the base 256 (R12). -/
theorem leBytes_getD {k i : Nat} (hi : i < k) (v : Nat) :
    (leBytes k v).getD i 0 = BitVec.ofNat 8 (v / 256 ^ i) := by
  induction k generalizing i v with
  | zero => exact absurd hi (Nat.not_lt_zero i)
  | succ k ih =>
    cases i with
    | zero => simp [leBytes]
    | succ i =>
      rw [leBytes, List.getD_cons_succ, ih (Nat.lt_of_succ_lt_succ hi), Nat.div_div_eq_div_mul,
        ← Nat.pow_succ']

theorem extractLsb'_byte (v : Word) (i : Nat) :
    v.extractLsb' (8 * i) 8 = BitVec.ofNat 8 (v.toNat / 256 ^ i) := by
  rw [BitVec.extractLsb', Nat.shiftRight_eq_div_pow, Nat.pow_mul]

/-! ### Stored constants -/

/-- The stored zero (R25). -/
theorem fld_gfZero : fld gfZero = Vector.replicate 19 9767 := by decide +kernel

/-- The stored one: 7182 is 2^32 modulo 9767 (R8, R251). -/
theorem fld_gfOne : fld gfOne = (Vector.replicate 19 9767).set 0 7182 := by
  decide +kernel

/-- R10. -/
theorem generator_eq : generator =
    .affine (Vector.replicate 19 0) ((Vector.replicate 19 0).set 14 32) := by decide

/-! ### One replaced cell -/

/-- A word in [1, 9767] fits a cell; the other cells are kept (R24, R246). -/
theorem set_cell_toNat (a : Cells) {v : Word} (hv : isStored v = true) {i : Nat} (hi : i < 19)
    (k : Fin 19) : (a.set i (v.truncate 16))[k].toNat =
      if k.val = i then v.toNat else a[k].toNat := by
  have hle : v.toNat < 2 ^ 16 := by have := (isStored_iff.1 hv).2; omega
  by_cases h : k.val = i
  · subst h
    simpa using hle
  · simp [h, Ne.symm h]

/-! ### What a command delivers -/

theorem exec_wLi (s : State) (wd : WReg) (imm : Imm16) :
    exec (.wLi wd imm) s = .next (setW s wd (some (BitVec.ofNat 32 imm.toNat))) := by
  rw [BitVec.ofNat_toNat]
  rfl

theorem exec_wMov {s : State} {wa : WReg} {v : Word} (ha : getW s wa = some v) (wd : WReg) :
    exec (.wMov wd wa) s = .next (setW s wd (some v)) := by
  simp [exec, execWMov, ha]

theorem exec_gfMov {s : State} {fa : FReg} {v : Cells} (ha : getF s fa = some v) (fd : FReg) :
    exec (.gfMov fd fa) s = .next (setF s fd (some v)) := by
  simp [exec, execGfMov, ha]

theorem exec_scMov {s : State} {sa : SReg} {v : Scalar} (ha : getS s sa = some v) (sd : SReg) :
    exec (.scMov sd sa) s = .next (setS s sd (some v)) := by
  simp [exec, execScMov, ha]

theorem exec_pMov {s : State} {pa : PReg} {v : Point} (ha : getP s pa = some v) (pd : PReg) :
    exec (.pMov pd pa) s = .next (setP s pd (some v)) := by
  simp [exec, execPMov, ha]

theorem exec_gfSetzero (s : State) (fd : FReg) :
    exec (.gfSetzero fd) s = .next (setF s fd (some (Vector.replicate 19 9767))) := by
  rw [← fld_gfZero]
  rfl

theorem exec_gfSetone (s : State) (fd : FReg) : exec (.gfSetone fd) s =
    .next (setF s fd (some ((Vector.replicate 19 9767).set 0 7182))) := by
  rw [← fld_gfOne]
  rfl

theorem exec_pSetgen (s : State) (pd : PReg) : exec (.pSetgen pd) s = .next (setP s pd
    (some (.affine (Vector.replicate 19 0) ((Vector.replicate 19 0).set 14 32)))) := by
  rw [← generator_eq]
  rfl

theorem exec_wLd {s : State} {off : Off12} {b0 b1 b2 b3 : Byte} (wd : WReg)
    (ho : off.toNat ≤ 4092) (hb : loadBytes s off 4 = some [b0, b1, b2, b3]) :
    exec (.wLd wd off) s = .next (setW s wd (some (b3 ++ b2 ++ b1 ++ b0))) := by
  have hv : BitVec.ofNat 32 (leNat [b0, b1, b2, b3]) = b3 ++ b2 ++ b1 ++ b0 := by
    rw [leNat_four_bytes, BitVec.ofNat_toNat, BitVec.setWidth_eq]
  simp only [exec, execWLd, inRange_inside (Nat.add_le_add_right ho 4), hb, Option.map_some, hv]

theorem exec_wSt {s : State} {wa : WReg} {off : Off12} {v : Word} (ha : getW s wa = some v)
    (ho : off.toNat ≤ 4092) :
    exec (.wSt wa off) s = .next (storeBytes s off 4 (some (leBytes 4 v.toNat))) := by
  simp [exec, execWSt, inRange_inside (Nat.add_le_add_right ho 4), ha]

theorem exec_gfSetc {s : State} {fd : FReg} {wa : WReg} {idx : Imm16} {a : Cells} {v : Word}
    (hi : idx.toNat < 19) (ha : getF s fd = some a) (hv : getW s wa = some v) :
    exec (.gfSetc fd wa idx) s = .next (setF s fd
      (if isStored v then some (a.set idx.toNat (v.truncate 16)) else none)) := by
  simp [exec, execGfSetc, hi, ha, hv]

/-! ### The commands -/

/-- Settles O25: byte i of the little-endian form is the word's byte i. -/
theorem wordStoreWritesFourBytesLittleEndian :
    Obligations.WordStoreWritesFourBytesLittleEndian := by
  unfold Obligations.WordStoreWritesFourBytesLittleEndian
  intro s wa off v _ ha
  refine ⟨fun ho => ⟨_, exec_wSt ha ho, ?_⟩,
    fun ho => exec_raises_bufRange rfl (Nat.add_lt_add_right ho 4)⟩
  have hstore := storeBytes_result s off (leBytes_length 4 v.toNat)
  exact { hstore with
    inside := fun i hi => by rw [hstore.inside i hi, leBytes_getD hi, extractLsb'_byte] }

/-- Settles O27: a stored word replaces its cell, any other delivers nothing, and a command that a word
means is well-formed. -/
theorem coefficientWriteReplacesOneCell : Obligations.CoefficientWriteReplacesOneCell := by
  unfold Obligations.CoefficientWriteReplacesOneCell
  intro s fd wa idx
  refine ⟨fun a v hi ha hv => ?_, fun hbig w hd => ?_⟩
  · have hi' : idx.toNat < 19 := Nat.lt_succ_of_le hi
    have hexec := exec_gfSetc hi' ha hv
    refine ⟨fun h1 h2 => ?_, fun hout => ?_⟩
    · have hs : isStored v = true := isStored_iff.2 ⟨h1, h2⟩
      rw [if_pos hs] at hexec
      exact ⟨_, hexec, set_cell_toNat a hs hi'⟩
    · have hs : ¬ isStored v = true := fun h => by
        have := isStored_iff.1 h
        omega
      rw [if_neg hs] at hexec
      exact ⟨_, hexec, setF_none_losesF s fd⟩
  · have : idx.toNat ≤ 18 := of_decide_eq_true (encode_of_decode hd).2
    omega

/-- Settles O22: each command delivers its immediate or its source. -/
theorem loadImmediateAndMovesCopyTheValue : Obligations.LoadImmediateAndMovesCopyTheValue := by
  unfold Obligations.LoadImmediateAndMovesCopyTheValue
  intro s d a
  exact ⟨exec_wLi s d, fun _ h => exec_wMov h d, fun _ h => exec_gfMov h d,
    fun _ h => exec_scMov h d, fun _ h => exec_pMov h d⟩

/-- Settles O23: the field constants in their stored form, the others as the model writes them. -/
theorem constantCommandsWriteTheirConstant : Obligations.ConstantCommandsWriteTheirConstant := by
  unfold Obligations.ConstantCommandsWriteTheirConstant
  intro s d
  exact ⟨exec_gfSetzero s d, exec_gfSetone s d, rfl, rfl, rfl, exec_pSetgen s d⟩

/-- Settles O24: the word is the concatenation of the bytes loaded. -/
theorem wordLoadReadsFourBytesLittleEndian : Obligations.WordLoadReadsFourBytesLittleEndian := by
  unfold Obligations.WordLoadReadsFourBytesLittleEndian
  intro s wd off
  exact ⟨fun _ _ _ _ ho h0 h1 h2 h3 => exec_wLd wd ho (loadBytes_four h0 h1 h2 h3),
    fun ho => exec_raises_bufRange rfl (Nat.add_lt_add_right ho 4)⟩

end Sys2Proof.Machine
end

section
/-! SUPPORT. The error state: what one step does there and what issued words do (spec/60_exceptions.md
R305, R331). -/

namespace Sys2Proof.Machine

/-- A run of k + 1 steps whose first step completes is a run of k steps from the state it answers. -/
theorem run_succ_of_step {M : Host.Core} {s t : M.State} (h : M.step s = .next t) (k : Nat) :
    M.run (k + 1) s = M.run k t := by
  simp only [Host.Core.run, h]

/-- In the error state every step but a reset keeps STATUS: an issued word is discarded (R305), and the
host's accesses do not write STATUS (R320 items 2 and 3). -/
theorem step_status_of_inError {s t : State} (he : inError s = true) (h : step s = .next t) :
    t.status = s.status ∨ ∃ rest, s.pending = .reset :: rest ∧ t = hostReset rest s := by
  match hp : s.pending with
  | [] =>
    obtain ⟨-, h'⟩ | ⟨hne, -⟩ := step_cases s
    · cases h.symm.trans h'
    · exact absurd hp hne
  | .issue w early late :: rest =>
    cases h.symm.trans (step_issue_discarded hp he)
    exact .inl rfl
  | .writeBuf a v :: rest =>
    cases h.symm.trans (step_writeBuf hp)
    exact .inl rfl
  | .readBuf a :: rest =>
    cases h.symm.trans (step_readBuf hp)
    exact .inl rfl
  | .readStatus :: rest =>
    cases h.symm.trans (step_readStatus hp)
    exact .inl rfl
  | .reset :: rest =>
    cases h.symm.trans (step_reset hp)
    exact .inr ⟨rest, rfl, rfl⟩

/-- Settles O8, by induction on the issued words: the first is discarded, and the others are issued in
the error state it leaves. -/
theorem errorStateDiscardsCommands : Obligations.ErrorStateDiscardsCommands := by
  unfold Obligations.ErrorStateDiscardsCommands
  intro ws rest
  induction ws with
  | nil =>
    rintro s - rfl
    rfl
  | cons x ws ih =>
    intro s he hp
    have hstep : core.step s = .next _ := step_issue_discarded hp he
    refine (run_succ_of_step hstep ws.length).trans ((ih (discardCommand _ _ s) he rfl).trans ?_)
    -- The STATUS reads of the first word lie under those of the others.
    simp [← List.append_assoc, Nat.add_comm, Nat.add_assoc]

/-- Settles O9: ERR is a bit of STATUS, so the steps that keep STATUS stay in the error state. -/
theorem onlyResetLeavesTheErrorState : Obligations.OnlyResetLeavesTheErrorState := by
  unfold Obligations.OnlyResetLeavesTheErrorState
  intro s s' he h
  obtain hstatus | ⟨rest, hp, rfl⟩ := step_status_of_inError he h
  · exact .inl ⟨(congrArg statusErr hstatus).trans he, hstatus⟩
  · exact .inr ⟨rfl, rest, hp⟩

end Sys2Proof.Machine
end
